-- ==== Sys2Proof/Word.lean ====
section
/-! DEFINITION. The word types of the block and their plainest arithmetic (R7, R9). -/

namespace Sys2Proof

/-- A register, command word or FAULT_INFO value: 32 bits (R17, R68). -/
abbrev Word := BitVec 32

/-- The CRC accumulator, polynomial and table entries: 16 bits (R7, R32). -/
abbrev Half := BitVec 16

/-- A byte of buffer memory, an opcode or a fault code: 8 bits (R7). -/
abbrev Byte := BitVec 8

/-- The four bits a CRC step consumes (R12 "Nibble"). -/
abbrev Nibble := BitVec 4

/-- `trunc_32(v)`: `v mod 2^32` (R9). -/
def trunc32 (v : Nat) : Word := BitVec.ofNat 32 v

end Sys2Proof
end

