-- ==== Sys2Proof/Config.lean ====
section
/-! DEFINITION. What an implementation or a platform fixes: the launch parameters of R7, R48 and R66. -/

namespace Sys2Proof

/-- `2^AW`, the size of buffer memory in bytes, with AW = 32 (R7, R49). -/
abbrev addrSpace : Nat := 2 ^ 32

/-- The two kinds of buffer access, the second argument of `MemAdmit` (R49). -/
inductive AccessKind where
  | read
  | write
  deriving DecidableEq, Repr

/-- A run of buffer addresses with what the block may do there (R49: "a platform may have read-only regions"). -/
structure Region where
  /-- First address of the region. -/
  base : Nat
  /-- Number of bytes. -/
  size : Nat
  /-- The block may read these bytes. -/
  readable : Bool
  /-- The block may write these bytes. -/
  writable : Bool
  deriving DecidableEq, Repr

/-- Whether the region admits an access of this kind at this address. -/
def Region.admits (r : Region) (a : Nat) (k : AccessKind) : Bool :=
  decide (r.base ≤ a) && decide (a < r.base + r.size) &&
    (match k with | .read => r.readable | .write => r.writable)

/-- The parameters given with the launch. The spec leaves each of them open (R7, R48, U2, U3, U5, U9), so they are
data of the machine that no step changes, and a claim about every state is a claim about every platform.
DESIGN CHOICE (log entries 2 to 5): safe as parameters, and the values of `Platform.standard` are the spec's defaults. -/
structure Platform where
  /-- TABLE_MAX_WIDTH, 4 to 16 (R7, U2). -/
  tableMaxWidth : Nat
  /-- MemAdmit as a list of regions: an access is admitted where some region admits it (R49, R54, U3). -/
  regions : List Region
  /-- REG_BASE, the block's base address in the host's map (R17, R66, U5). -/
  regBase : Nat
  /-- Reset value of CRC_POLY and of the table's polynomial (R48, U9). -/
  polyReset : Half
  /-- Reset value of CRC_INIT (R48, U9). -/
  initReset : Half
  deriving DecidableEq, Repr

/-- `MemAdmit(addr, kind)` (R49, R54). -/
def Platform.admits (p : Platform) (a : Nat) (k : AccessKind) : Bool :=
  p.regions.any fun r => r.admits a k

/-- The platform of State.reset: the defaults of R7 and R48, and the assumption of 95_test_vectors.md that MemAdmit is
true for every address and kind. DESIGN CHOICE (log entries 2, 3, 5). -/
def Platform.standard : Platform where
  tableMaxWidth := 8
  regions := [{ base := 0, size := addrSpace, readable := true, writable := true }]
  regBase := 0
  polyReset := 0x8005#16
  initReset := 0x0000#16

end Sys2Proof
end

