-- ==== Sys2Proof/Syntax.lean ====
section
/-! DEFINITION. The commands of the block (R69), its register names (R17) and the host's transactions (R74 to R76). -/

namespace Sys2Proof

/-- The nine commands, one constructor per row of the opcode map (R69). A command word carries no operand (R70):
every operand is in a named register. -/
inductive Instr where
  /-- NOP, word 0x00 (R83). -/
  | nop
  /-- GETBIT, word 0x01 (R87). -/
  | getbit
  /-- SETBIT, word 0x02 (R88). -/
  | setbit
  /-- MFM.DECODE, word 0x10 (R93). -/
  | mfmDecode
  /-- MFM.ENCODE, word 0x11 (R95). -/
  | mfmEncode
  /-- CRC.BUILD, word 0x20 (R105). -/
  | crcBuild
  /-- CRC.RESET, word 0x21 (R106). -/
  | crcReset
  /-- CRC.UPDATE, word 0x22 (R107). -/
  | crcUpdate
  /-- CRC.CHECK, word 0x23 (R108). -/
  | crcCheck
  deriving DecidableEq, Repr

/-- The register names of the register map (R17). -/
inductive Reg where
  | cmd
  | status
  | faultInfo
  | bitBase
  | bitIndex
  | bitData
  | mfmSrc
  | mfmDst
  | mfmN
  | mfmM
  | mfmCursor
  | crcAcc
  | crcPoly
  | crcInit
  | crcWidth
  | crcData
  | crcBase
  | crcLen
  | crcTinfo
  /-- CRC_TABLE[i] (R40). -/
  | crcTable (i : Nat)
  deriving DecidableEq, Repr

/-- What the host may do with a register (R17): RW, RO or WO. -/
inductive RegMode where
  | readWrite
  | readOnly
  | writeOnly
  deriving DecidableEq, Repr

/-- One action of the host agent (R6, R13): a register transaction with its access width in bits (R18, R74), one turn of
the loop WAIT (R76), a buffer access of its own (R85), or the assertion of the reset input (R131). -/
inductive HostOp where
  /-- `R off` (R74, R77). -/
  | regRead (off width : Nat)
  /-- `W off v` (R74, R78). -/
  | regWrite (off width : Nat) (v : Word)
  /-- One turn of `L: RD STATUS ; repeat L while bit 0 (BUSY) of the value read is 1` (R76). `polls` is how many more
  reads of the loop, this one included, land before the perform step of a pending command: any value (U4). It has no
  effect when no command is pending: then this read is the last. -/
  | wait (polls : Nat)
  /-- The host reads a buffer byte (R85). -/
  | memRead (a : Word)
  /-- The host writes a buffer byte (R85). -/
  | memWrite (a : Word) (v : Byte)
  /-- The reset input is asserted (R131). `drawn` is how many MemWrites of a command pending at that moment had been
  made: the draw of R132 and U6, which nothing constrains. It has no effect when no command is pending. -/
  | reset (drawn : Nat)
  deriving DecidableEq, Repr

/-- A host action with its place in the interleaving (U7): `early` says that, if a command is pending when its turn
comes, the action lands before the perform step. With no command pending `early` has no effect. -/
structure HostEvent where
  op : HostOp
  early : Bool
  deriving DecidableEq, Repr

/-- An assembler line of a host program (R75) or a pseudo-instruction (R76), with the buffer accesses and the reset line
of the listings in 95_test_vectors.md. -/
inductive AsmOp where
  /-- `WR <REG>, <value>`. -/
  | wr (r : Reg) (v : Word)
  /-- `RD <REG>`. -/
  | rd (r : Reg)
  /-- `CMD <mnemonic>`. -/
  | cmd (i : Instr)
  /-- `WAIT`. `polls` is how many STATUS reads it makes before the perform step of a pending command: any value (U4). -/
  | wait (polls : Nat)
  /-- `RUN <mnemonic>`: `CMD` then `WAIT`. -/
  | run (i : Instr) (polls : Nat)
  /-- `SETREG <REG>, <value>`, the same as `WR`. -/
  | setreg (r : Reg) (v : Word)
  /-- `MEM[a] <- v`. -/
  | memPut (a : Word) (v : Byte)
  /-- `MEM[a] -> v`. -/
  | memGet (a : Word)
  /-- `-- reset --`. -/
  | resetLine (drawn : Nat)
  deriving DecidableEq, Repr

end Sys2Proof
end

