-- ==== Sys2Proof/WellFormed.lean ====
section
/-! DEFINITION. Which terms of the syntax and which platforms are well formed. -/

namespace Sys2Proof

/-- A command has no operand field (R68, R70), so every command is well formed. -/
def Instr.wf : Instr → Bool
  | .nop => true
  | .getbit => true
  | .setbit => true
  | .mfmDecode => true
  | .mfmEncode => true
  | .crcBuild => true
  | .crcReset => true
  | .crcUpdate => true
  | .crcCheck => true

/-- A register name exists on a platform: a table word below 2^TABLE_MAX_WIDTH (R17, R40). -/
def Reg.wf (p : Platform) : Reg → Bool
  | .crcTable i => decide (i < 2 ^ p.tableMaxWidth)
  | _ => true

/-- A register transaction is a 32-bit access at a multiple of 4 (R18). An ill-formed one is not refused by the machine:
it raises REG_ACCESS (R77, R78). -/
def HostOp.wf : HostOp → Bool
  | .regRead off width => decide (width = 32) && decide (off % 4 = 0)
  | .regWrite off width _ => decide (width = 32) && decide (off % 4 = 0)
  | .wait _ => true
  | .memRead _ => true
  | .memWrite _ _ => true
  | .reset _ => true

/-- An assembler line names only registers of the platform (R75). -/
def AsmOp.wf (p : Platform) : AsmOp → Bool
  | .wr r _ => r.wf p
  | .rd r => r.wf p
  | .setreg r _ => r.wf p
  | .cmd i => i.wf
  | .run i _ => i.wf
  | .wait _ => true
  | .memPut _ _ => true
  | .memGet _ => true
  | .resetLine _ => true

/-- A region lies inside buffer memory (R49). -/
def Region.wf (r : Region) : Bool := decide (r.base + r.size ≤ addrSpace)

/-- The ranges the spec gives the launch parameters: 4 ≤ TABLE_MAX_WIDTH ≤ 16 (R7), regions inside buffer memory (R49). -/
def Platform.wf (p : Platform) : Bool :=
  decide (4 ≤ p.tableMaxWidth) && decide (p.tableMaxWidth ≤ 16) && p.regions.all Region.wf

end Sys2Proof
end

