-- ==== Sys2Proof/Decode.lean ====
section
/-! DEFINITION. From bits to commands and register names, and back: the command decoder and encoder (R68 to R73) and the
register map (R17). -/

namespace Sys2Proof

/-- Why a word is no command (R72). -/
inductive DecodeError where
  /-- RSV, bits [31:8], is not 0. -/
  | reservedNotZero
  /-- RSV is 0 and OP is not in the opcode map. -/
  | unknownOpcode
  deriving DecidableEq, Repr

/-- The OP byte of a command (R69). -/
def Instr.opcode : Instr → Byte
  | .nop => 0x00#8
  | .getbit => 0x01#8
  | .setbit => 0x02#8
  | .mfmDecode => 0x10#8
  | .mfmEncode => 0x11#8
  | .crcBuild => 0x20#8
  | .crcReset => 0x21#8
  | .crcUpdate => 0x22#8
  | .crcCheck => 0x23#8

/-- The opcode map: one row per command, OP then command (R69). -/
def opcodeMap : List (Byte × Instr) :=
  [(0x00#8, .nop), (0x01#8, .getbit), (0x02#8, .setbit), (0x10#8, .mfmDecode), (0x11#8, .mfmEncode),
   (0x20#8, .crcBuild), (0x21#8, .crcReset), (0x22#8, .crcUpdate), (0x23#8, .crcCheck)]

/-- The OP field, bits [7:0] of a command word (R68). -/
def opField (w : Word) : Byte := w.extractLsb' 0 8

/-- The RSV field, bits [31:8] of a command word (R68). -/
def rsvField (w : Word) : BitVec 24 := w.extractLsb' 8 24

/-- The command a word selects, or why it is illegal (R69, R72). Total on all 2^32 words (R73). -/
def decode (w : Word) : Except DecodeError Instr :=
  if rsvField w ≠ 0 then .error .reservedNotZero
  else match opcodeMap.find? (fun row => row.1 == opField w) with
    | some row => .ok row.2
    | none => .error .unknownOpcode

/-- The word of a command: OP in [7:0], RSV = 0 (R68, R69). -/
def encode (i : Instr) : Word := i.opcode.setWidth 32

/-- The command read from an opcode-table word: `nbits` bits of `w`, every bit above them 0. Every command is one 32-bit
word (R68). A register is one word, so no byte order arises (R18). -/
def decodeTableWord (nbits w : Nat) : Option Instr :=
  if w % 2 ^ nbits < 2 ^ 32 then
    match decode (BitVec.ofNat 32 (w % 2 ^ nbits)) with
    | .ok i => some i
    | .error _ => none
  else none

/-- One row of the register map (R17). -/
structure RegRow where
  off : Nat
  reg : Reg
  mode : RegMode
  /-- Implemented bits. -/
  mask : Word
  deriving DecidableEq, Repr

/-- The register map below the table window (R17). -/
def regMap : List RegRow :=
  [⟨0x000, .cmd, .writeOnly, 0xFFFFFFFF#32⟩,
   ⟨0x004, .status, .readOnly, 0x00FFFF03#32⟩,
   ⟨0x008, .faultInfo, .readOnly, 0xFFFFFFFF#32⟩,
   ⟨0x00C, .bitBase, .readWrite, 0xFFFFFFFF#32⟩,
   ⟨0x010, .bitIndex, .readWrite, 0xFFFFFFFF#32⟩,
   ⟨0x014, .bitData, .readWrite, 0x00000001#32⟩,
   ⟨0x018, .mfmSrc, .readWrite, 0xFFFFFFFF#32⟩,
   ⟨0x01C, .mfmDst, .readWrite, 0xFFFFFFFF#32⟩,
   ⟨0x020, .mfmN, .readWrite, 0xFFFFFFFF#32⟩,
   ⟨0x024, .mfmM, .readWrite, 0xFFFFFFFF#32⟩] ++
  [⟨0x028, .mfmCursor, .readWrite, 0xFFFFFFFF#32⟩,
   ⟨0x02C, .crcAcc, .readWrite, 0x0000FFFF#32⟩,
   ⟨0x030, .crcPoly, .readWrite, 0x0000FFFF#32⟩,
   ⟨0x034, .crcInit, .readWrite, 0x0000FFFF#32⟩,
   ⟨0x038, .crcWidth, .readWrite, 0x0000001F#32⟩,
   ⟨0x03C, .crcData, .readWrite, 0x000000FF#32⟩,
   ⟨0x040, .crcBase, .readWrite, 0xFFFFFFFF#32⟩,
   ⟨0x044, .crcLen, .readWrite, 0xFFFFFFFF#32⟩,
   ⟨0x048, .crcTinfo, .readOnly, 0xFFFF001F#32⟩]

/-- First offset of the CRC_TABLE window (R40). -/
abbrev tableWindow : Nat := 0x10000

/-- The row of the map at an offset that is a multiple of 4, or none where it is unmapped (R17, R40). -/
def regRowAt (p : Platform) (off : Nat) : Option RegRow :=
  if tableWindow ≤ off then
    if off < tableWindow + 4 * 2 ^ p.tableMaxWidth then
      some ⟨off, .crcTable ((off - tableWindow) / 4), .readOnly, 0x0000FFFF#32⟩
    else none
  else regMap.find? fun row => row.off == off

/-- The offset of a register (R17): the one the assembler writes for its name (R75). -/
def Reg.offset : Reg → Nat
  | .crcTable i => tableWindow + 4 * i
  | r => match regMap.find? (fun row => row.reg == r) with
    | some row => row.off
    | none => 0

end Sys2Proof
end

