-- ==== Sys2Proof/Machine/Memory.lean ====
section
/-! DEFINITION. Buffer memory (R49): a list of listed bytes in one canonical form, over 2^32 addresses. -/

namespace Sys2Proof.Machine

/-- Buffer memory: the bytes that differ from `unlistedByte`, by rising address. -/
abbrev Memory := List Host.Cell

/-- What an address that is not listed reads as. DESIGN CHOICE (log entry 1, unsafe): 95_test_vectors.md assumes
"Unlisted buffer bytes are 0x00". Any other launch contents (R61) are listed. -/
def unlistedByte : Byte := 0x00#8

/-- The byte at an address: its launch value, or what was last written to it (R61). -/
def Memory.read : Memory → Nat → Byte
  | [], _ => unlistedByte
  | (b, x) :: m, a => if a = b then x else Memory.read m a

/-- Replace one byte, keeping the canonical form. Only the byte written changes (R67). -/
def Memory.write : Memory → Nat → Byte → Memory
  | [], a, v => if v = unlistedByte then [] else [(a, v)]
  | (b, x) :: m, a, v =>
    if a < b then (if v = unlistedByte then (b, x) :: m else (a, v) :: (b, x) :: m)
    else if a = b then (if v = unlistedByte then m else (a, v) :: m)
    else (b, x) :: Memory.write m a v

/-- The canonical form: every listed address above `lo` and below 2^32, strictly rising, no listed byte equal to what an
unlisted address reads as. -/
def Memory.wfFrom : Nat → Memory → Bool
  | _, [] => true
  | lo, (b, x) :: m => decide (lo ≤ b) && decide (b < addrSpace) && decide (x ≠ unlistedByte) && Memory.wfFrom (b + 1) m

/-- The memory is in canonical form. -/
def Memory.wf (m : Memory) : Bool := Memory.wfFrom 0 m

/-- Writes made one after another, the first of the list first. -/
def Memory.writeAll (m : Memory) (ws : List Host.Cell) : Memory :=
  ws.foldl (fun acc c => Memory.write acc c.1 c.2) m

/-- Buffer bit `j` of the whole memory, MSB first in each byte (R8, R51): bit `i` of the buffer at byte address `base` is bit
`8 * base + i` of the memory. -/
def Memory.bit (m : Memory) (j : Nat) : Bool := (Memory.read m (j / 8)).getLsbD (7 - j % 8)

end Sys2Proof.Machine
end

