-- ==== Sys2Proof/Machine/Table.lean ====
section
/-! DEFINITION. The CRC table memory (R45) and its construction (R102). -/

namespace Sys2Proof.Machine

/-- One iteration of R102: shift left by 1, XOR with the polynomial if the vacated top bit was 1. -/
def tableShift (poly : Half) (r : Half) : Half :=
  let top := r.getLsbD 15
  let r' := r <<< 1
  if top then r' ^^^ poly else r'

/-- `k` iterations of R102. -/
def tableShifts (poly : Half) : Nat → Half → Half
  | 0, r => r
  | k + 1, r => tableShifts poly k (tableShift poly r)

/-- The entry of BuildTable at `idx`: the index at the top of the 16-bit register, then `w` iterations (R102, C3). -/
def tableEntry (poly : Half) (w idx : Nat) : Half :=
  tableShifts poly w (BitVec.ofNat 16 (idx <<< (16 - w)))

/-- `BuildTable(poly, w)`: 2^w entries, for 1 ≤ w ≤ 16 (R102). -/
def buildTable (poly : Half) (w : Nat) : List Half :=
  (List.range (2 ^ w)).map (tableEntry poly w)

/-- The table memory with CRC_TINFO's two fields (R39, R45). -/
structure Table where
  /-- TW, the index width of the loaded table. -/
  tw : BitVec 5
  /-- TPOLY, the polynomial the loaded table was built from. -/
  tpoly : Half
  /-- T[0 .. 2^TW - 1]. -/
  entries : List Half
  deriving DecidableEq, Repr

/-- T[i], for i < 2^TW (R45). -/
def Table.entry (t : Table) (i : Nat) : Half := t.entries.getD i 0

/-- HI[i] = T[i][15:8] (R45, R102). -/
def Table.hi (t : Table) (i : Nat) : Byte := (t.entry i).extractLsb' 8 8

/-- LO[i] = T[i][7:0] (R45, R102). -/
def Table.lo (t : Table) (i : Nat) : Byte := (t.entry i).extractLsb' 0 8

/-- The table memory that CRC.BUILD and reset load: (w, p, BuildTable(p, w)) (R45, R105). -/
def loadTable (poly : Half) (w : BitVec 5) : Table := ⟨w, poly, buildTable poly w.toNat⟩

end Sys2Proof.Machine
end

