-- ==== Sys2Proof/Machine/State.lean ====
section
/-! DEFINITION. The state of the block and its host (R6, R16, R17, R43 to R45), its fault record, and the state after
reset (R131). -/

namespace Sys2Proof.Machine

/-- The faults the block records (R115). Recording one is a next state, not a stop (R121). -/
inductive FaultCode where
  /-- 0x01: RSV is not 0, or OP is not in the opcode map. -/
  | illegalCommand
  /-- 0x02: wrong width, misaligned or unmapped offset, or a write to a read-only register. -/
  | regAccess
  /-- 0x03: a host write while BUSY = 1. -/
  | busyViolation
  /-- 0x04: an MFM command with MFM_N = 0. -/
  | ringZero
  /-- 0x05: a computed byte address at or above 2^AW. -/
  | addrOverflow
  /-- 0x06: MemAdmit refuses the access. -/
  | busError
  /-- 0x07: CRC.BUILD with CRC_WIDTH = 0 or above TABLE_MAX_WIDTH. -/
  | tableWidth
  /-- 0x08: a nibble index at or above 2^TW. -/
  | tableIndex
  deriving DecidableEq, Repr

/-- FAULT_CODE, FAULT_OP and FAULT_INFO of the first fault since reset (R44). -/
structure FaultRecord where
  code : FaultCode
  op : Byte
  info : Word
  deriving DecidableEq, Repr

/-- Everything the machine holds: the block's registers at their implemented widths (R17, R20), its hidden state (R43 to
R45), the host's buffer memory (R49), the launch parameters (R7), and the host agent (R6). -/
structure State where
  /-- The fault record: FAULTED is 1 exactly when it is not none (R22, R23, R44). -/
  faultRec : Option FaultRecord
  /-- BIT_BASE (R24). -/
  bitBase : Word
  /-- BIT_INDEX (R25). -/
  bitIndex : Word
  /-- BIT_DATA[0] (R26). -/
  bitData : BitVec 1
  /-- MFM_SRC (R27). -/
  mfmSrc : Word
  /-- MFM_DST (R28). -/
  mfmDst : Word
  /-- MFM_N (R29). -/
  mfmN : Word
  /-- MFM_M (R30). -/
  mfmM : Word
  /-- MFM_CURSOR (R31). -/
  mfmCursor : Word
  /-- CRC_ACC (R32). -/
  crcAcc : Half
  /-- CRC_POLY (R33). -/
  crcPoly : Half
  /-- CRC_INIT (R34). -/
  crcInit : Half
  /-- CRC_WIDTH (R35). -/
  crcWidth : BitVec 5
  /-- CRC_DATA (R36). -/
  crcData : Byte
  /-- CRC_BASE (R37). -/
  crcBase : Word
  /-- CRC_LEN (R38). -/
  crcLen : Word
  /-- The table memory and CRC_TINFO (R39, R45). -/
  table : Table
  /-- PENDING: none, or the accepted command that has not completed (R43). BUSY is 1 exactly when it is not none. -/
  pending : Option Instr
  /-- Buffer memory, the host's (R49). -/
  mem : Memory
  /-- The launch parameters (R7). No step changes them. -/
  platform : Platform
  /-- The MODEL's field: the host's coming actions, oldest first, with the interleaving (R6, U4, U7; log entry 6). -/
  script : List HostEvent
  /-- The MODEL's field: what the host's latest read returned (R77; log entry 11). -/
  readData : Word
  deriving DecidableEq, Repr

/-- Reasons to stop with a fault. There is none: every error the block detects is recorded in its fault record and the
machine goes on (R114, R121), so no step of this model answers with a fault (log entry 10; safe). -/
inductive Fault where
  deriving DecidableEq, Repr

/-- Reasons the model refuses a step. -/
inductive Refusal where
  /-- Raised by exec's arm of a command without a meaning. Safe: nothing can be claimed of it. No arm raises it. -/
  | notModelled (mnemonic : String)
  /-- Raised by the host's step: a buffer access at an address inside the footprint of the running command while BUSY = 1.
  Safe: U1 excludes such runs ("refuse", "Do not model it as a fault or give it a result") (log entry 9). -/
  | footprintBreach (a : Word)
  deriving DecidableEq, Repr

/-- The outcome type of every step. -/
abbrev Result := Host.Outcome State Fault Refusal

/-- The block after reset on a platform, with a given buffer memory, host script and latest read value, none of which reset
changes (R131, R133). -/
def State.resetOn (p : Platform) (m : Memory) (script : List HostEvent) (readData : Word) : State where
  faultRec := none
  bitBase := 0#32
  bitIndex := 0#32
  bitData := 0#1
  mfmSrc := 0#32
  mfmDst := 0#32
  mfmN := 0#32
  mfmM := 0#32
  mfmCursor := 0#32
  crcAcc := 0#16
  crcPoly := p.polyReset
  crcInit := p.initReset
  crcWidth := 4#5
  crcData := 0#8
  crcBase := 0#32
  crcLen := 0#32
  table := loadTable p.polyReset 4#5
  pending := none
  mem := m
  platform := p
  script := script
  readData := readData

/-- The machine right after reset: the values of R131 on the standard platform, buffer memory with nothing listed, and a
host that has nothing to do. -/
def State.reset : State := State.resetOn Platform.standard [] [] 0#32

end Sys2Proof.Machine
end

