-- ==== Sys2Proof/Machine/Flags.lean ====
section
/-! DEFINITION. The two flags of the block and the words that show the fault record (R22, R23). No command sets a flag as a
side effect, except that a faulting command sets FAULTED (R42). -/

namespace Sys2Proof.Machine

/-- The FAULT_CODE value of a fault (R115). -/
def FaultCode.toByte : FaultCode → Byte
  | .illegalCommand => 0x01#8
  | .regAccess => 0x02#8
  | .busyViolation => 0x03#8
  | .ringZero => 0x04#8
  | .addrOverflow => 0x05#8
  | .busError => 0x06#8
  | .tableWidth => 0x07#8
  | .tableIndex => 0x08#8

/-- STATUS.BUSY (R22, R43). -/
def State.busy (s : State) : Bool := s.pending.isSome

/-- STATUS.FAULTED (R22). -/
def State.faulted (s : State) : Bool := s.faultRec.isSome

/-- STATUS.FAULT_CODE, 0x00 while FAULTED = 0 (R22). -/
def State.faultCode (s : State) : Byte :=
  match s.faultRec with
  | some f => f.code.toByte
  | none => 0#8

/-- STATUS.FAULT_OP, 0x00 while FAULTED = 0 (R22). -/
def State.faultOp (s : State) : Byte :=
  match s.faultRec with
  | some f => f.op
  | none => 0#8

/-- FAULT_INFO, 0 while FAULTED = 0 (R23). -/
def State.faultInfo (s : State) : Word :=
  match s.faultRec with
  | some f => f.info
  | none => 0#32

/-- The STATUS word: FAULT_OP in [23:16], FAULT_CODE in [15:8], FAULTED in [1], BUSY in [0], every other bit 0 (R22). -/
def State.statusWord (s : State) : Word :=
  0#8 ++ (s.faultOp ++ (s.faultCode ++ (0#6 ++ (BitVec.ofBool s.faulted ++ BitVec.ofBool s.busy))))

/-- The CRC_TINFO word: TPOLY in [31:16], TW in [4:0], every other bit 0 (R39). -/
def State.tinfoWord (s : State) : Word := s.table.tpoly ++ (0#11 ++ s.table.tw)

end Sys2Proof.Machine
end

