-- ==== Sys2Proof/Machine/Operands.lean ====
section
/-! DEFINITION. How a command reads its operands: named registers, as their implemented bits, zero-extended (R70, R71), and
the bit, byte and nibble fields the rules take from them (R8, R51, R104). -/

namespace Sys2Proof.Machine

/-- The operands of an MFM command as naturals (R71, R90). -/
structure MfmOperands where
  /-- MFM_SRC: byte address of bit 0 of the buffer read (R27). -/
  src : Nat
  /-- MFM_DST: byte address of bit 0 of the buffer written (R28). -/
  dst : Nat
  /-- MFM_N: the ring's bit length (R29). -/
  n : Nat
  /-- MFM_M: the count of data bits (R30). -/
  m : Nat
  /-- MFM_CURSOR as the host wrote it (R31). -/
  cursor : Nat
  deriving DecidableEq, Repr

/-- The MFM operands a state holds (R42, R71). -/
def State.mfm (s : State) : MfmOperands :=
  ⟨s.mfmSrc.toNat, s.mfmDst.toNat, s.mfmN.toNat, s.mfmM.toNat, s.mfmCursor.toNat⟩

/-- `C mod N`, the working cursor a command starts from (R90). -/
def MfmOperands.start (o : MfmOperands) : Nat := o.cursor % o.n

/-- `(c + 1) mod N`, the cursor after one ring access (R91). -/
def advance (n c : Nat) : Nat := (c + 1) % n

/-- The exact byte address of bit `i` of the buffer at `base`: `base + (i div 8)`, not truncated (R50). -/
def byteAddr (base i : Nat) : Nat := base + i / 8

/-- Where buffer bit `i` stands in its byte, in register numbering (R8, R51). -/
def bitPlace (i : Nat) : Nat := 7 - i % 8

/-- Buffer bit `i` of its byte `b`: `(b >> (7 - (i mod 8))) & 1` (R52). -/
def bitOfByte (b : Byte) (i : Nat) : Bool := b.getLsbD (bitPlace i)

/-- The byte `b` with its buffer bit `i` set to `v` (R53). -/
def setBitOfByte (b : Byte) (i : Nat) (v : Bool) : Byte :=
  let m := 1#8 <<< bitPlace i
  if v then b ||| m else b &&& (0xFF#8 ^^^ m)

/-- `byte[7:4]` (R104). -/
def highNibble (b : Byte) : Nibble := b.extractLsb' 4 4

/-- `byte[3:0]` (R104). -/
def lowNibble (b : Byte) : Nibble := b.extractLsb' 0 4

/-- BIT_DATA[0], the value SETBIT stores (R26, R88). -/
def State.bitValue (s : State) : Bool := s.bitData.getLsbD 0

end Sys2Proof.Machine
end

