-- ==== Sys2Proof/Machine/Ops.lean ====
section
/-! DEFINITION. The shared operations: buffer accesses (R49 to R54), recording a fault (R116), and performing a command
(R81, R82, R117). -/

namespace Sys2Proof.Machine

/-- What `raise Fault(CODE, info)` gives (R10, R117). -/
structure Raise where
  code : FaultCode
  info : Word
  deriving DecidableEq, Repr

/-- One MemRead or MemWrite that happened, with the byte read or written (R49). -/
structure Access where
  kind : AccessKind
  addr : Nat
  byte : Byte
  deriving DecidableEq, Repr

/-- What a command works on: buffer memory, and the accesses it has made, the latest first (R60). The accesses are a
working value (R46), read only to say what reset during the command leaves (R132) and what a footprint is (R59). -/
structure Work where
  mem : Memory
  accesses : List Access
  deriving DecidableEq, Repr

/-- A command's body: it ends with a value or raises a fault, and keeps the buffer writes made before it (R60, R117). -/
abbrev Cmd (α : Type) := EStateM Raise Work α

/-- `raise Fault(code, info)`: the body ends at once (R117). FAULT_INFO is `trunc_32(info)` (R116). -/
def raiseFault {α : Type} (code : FaultCode) (info : Nat) : Cmd α := fun w => .error ⟨code, trunc32 info⟩ w

/-- An exact address, or ADDR_OVERFLOW at or above 2^AW (R50, R108). -/
def checkAddr (a : Nat) : Cmd Nat :=
  if addrSpace ≤ a then raiseFault .addrOverflow a else pure a

/-- `MemRead(a, 1)`, or BUS_ERROR where it is not admitted (R49, R54). -/
def memRead (p : Platform) (a : Nat) : Cmd Byte := fun w =>
  if p.admits a .read then
    .ok (Memory.read w.mem a) { w with accesses := ⟨.read, a, Memory.read w.mem a⟩ :: w.accesses }
  else raiseFault .busError a w

/-- `MemWrite(a, 1, v)`, or BUS_ERROR where it is not admitted (R49, R54). -/
def memWrite (p : Platform) (a : Nat) (v : Byte) : Cmd Unit := fun w =>
  if p.admits a .write then
    .ok () { mem := Memory.write w.mem a v, accesses := ⟨.write, a, v⟩ :: w.accesses }
  else raiseFault .busError a w

/-- `GetBit(base, i)` (R52). -/
def getBit (p : Platform) (base i : Nat) : Cmd Bool := do
  let a ← checkAddr (byteAddr base i)
  let b ← memRead p a
  pure (bitOfByte b i)

/-- `SetBit(base, i, v)`: the byte is always read and written back (R53). -/
def setBit (p : Platform) (base i : Nat) (v : Bool) : Cmd Unit := do
  let a ← checkAddr (byteAddr base i)
  let b ← memRead p a
  memWrite p a (setBitOfByte b i v)

/-- `record Fault(code, info)` with its FAULT_OP: the first fault since reset is kept (R116). This is the whole of fault
entry (R121): no pc, mode or mask is saved, because there is none. There is no return from a fault but reset (R122). -/
def recordFault (f : FaultRecord) (s : State) : State :=
  match s.faultRec with
  | none => { s with faultRec := some f }
  | some _ => s

/-- The state with buffer memory replaced. -/
def State.setMem (s : State) (m : Memory) : State := { s with mem := m }

/-- PENDING ← none (R81). -/
def State.clearPending (s : State) : State := { s with pending := none }

/-- Perform a command (R81): run its body on buffer memory. If it completes, write its output registers; if it faults, record
the fault with the command's opcode and write none of them (R82, R117). Buffer writes made remain. PENDING is cleared. -/
def perform {α : Type} (i : Instr) (body : Cmd α) (writeOut : α → State → State) (s : State) : State :=
  match body ⟨s.mem, []⟩ with
  | .ok out w => (writeOut out (s.setMem w.mem)).clearPending
  | .error r w => (recordFault ⟨r.code, i.opcode, r.info⟩ (s.setMem w.mem)).clearPending

/-- How a body ends on a buffer memory, its result left out: the fault it raises, if any, and what it worked on. -/
def runBody {α : Type} (body : Cmd α) (m : Memory) : Option Raise × Work :=
  match body ⟨m, []⟩ with
  | .ok _ w => (none, w)
  | .error r w => (some r, w)

end Sys2Proof.Machine
end

