-- ==== Sys2Proof/Machine/BitAccess.lean ====
section
/-! DEFINITION. GETBIT and SETBIT (R87, R88). -/

namespace Sys2Proof.Machine

/-- The body of GETBIT: the index is not reduced modulo anything (R25, R87). -/
def getbitBody (s : State) : Cmd Bool := getBit s.platform s.bitBase.toNat s.bitIndex.toNat

/-- GETBIT: BIT_DATA takes the bit read, on completion (R87). -/
def execGetbit (s : State) : Host.Outcome State Fault Refusal :=
  .next (perform .getbit (getbitBody s) (fun b t => { t with bitData := BitVec.ofBool b }) s)

/-- The body of SETBIT (R88). -/
def setbitBody (s : State) : Cmd Unit := setBit s.platform s.bitBase.toNat s.bitIndex.toNat s.bitValue

/-- SETBIT: no output register (R88). -/
def execSetbit (s : State) : Host.Outcome State Fault Refusal :=
  .next (perform .setbit (setbitBody s) (fun _ t => t) s)

end Sys2Proof.Machine
end

