-- ==== Sys2Proof/Machine/Control.lean ====
section
/-! DEFINITION. NOP (R83). -/

namespace Sys2Proof.Machine

/-- The body of NOP: nothing (R83). -/
def nopBody : Cmd Unit := pure ()

/-- NOP (R83). -/
def execNop (s : State) : Host.Outcome State Fault Refusal :=
  .next (perform .nop nopBody (fun _ t => t) s)

end Sys2Proof.Machine
end

