-- ==== Sys2Proof/Machine/Crc.lean ====
section
/-! DEFINITION. The CRC-16 engine: CRC.BUILD, CRC.RESET, CRC.UPDATE and CRC.CHECK (R102 to R108). -/

namespace Sys2Proof.Machine

/-- `idx = (a >> 12) ^ n` (R103). -/
def nibbleIndex (a : Half) (n : Nibble) : Nat := (a.extractLsb' 12 4 ^^^ n).toNat

/-- `NibbleStep(a, n)` against the loaded table, or TABLE_INDEX for an index at or above 2^TW (R103, R113). -/
def nibbleStep (t : Table) (a : Half) (n : Nibble) : Cmd Half :=
  let idx := nibbleIndex a n
  if 2 ^ t.tw.toNat ≤ idx then raiseFault .tableIndex idx
  else
    let s := a <<< 4
    pure ((s.extractLsb' 8 8 ^^^ t.hi idx) ++ (s.extractLsb' 0 8 ^^^ t.lo idx))

/-- `ByteUpdate(a, byte)`: high nibble first (R104). -/
def byteUpdate (t : Table) (a : Half) (b : Byte) : Cmd Half := do
  let a ← nibbleStep t a (highNibble b)
  nibbleStep t a (lowNibble b)

/-- The body of CRC.BUILD: TABLE_WIDTH for a width that is 0 or above TABLE_MAX_WIDTH, else the new table (R105). -/
def buildBody (p : Platform) (poly : Half) (w : BitVec 5) : Cmd Table :=
  if w.toNat < 1 ∨ p.tableMaxWidth < w.toNat then raiseFault .tableWidth w.toNat
  else pure (loadTable poly w)

/-- CRC.BUILD: the table memory and CRC_TINFO, all at once (R105). -/
def execCrcBuild (s : State) : Host.Outcome State Fault Refusal :=
  .next (perform .crcBuild (buildBody s.platform s.crcPoly s.crcWidth) (fun t u => { u with table := t }) s)

/-- The body of CRC.RESET (R106). -/
def resetAccBody (s : State) : Cmd Half := pure s.crcInit

/-- CRC.RESET: CRC_ACC ← CRC_INIT (R106). -/
def execCrcReset (s : State) : Host.Outcome State Fault Refusal :=
  .next (perform .crcReset (resetAccBody s) (fun a u => { u with crcAcc := a }) s)

/-- The body of CRC.UPDATE (R107). -/
def updateBody (s : State) : Cmd Half := byteUpdate s.table s.crcAcc s.crcData

/-- CRC.UPDATE (R107). -/
def execCrcUpdate (s : State) : Host.Outcome State Fault Refusal :=
  .next (perform .crcUpdate (updateBody s) (fun a u => { u with crcAcc := a }) s)

/-- The loop of R108 with `todo` bytes left, the next at the exact address `addr`. -/
def checkLoop (p : Platform) (t : Table) : (todo addr : Nat) → (a : Half) → Cmd Half
  | 0, _, a => pure a
  | todo + 1, addr, a => do
    let x ← checkAddr addr
    let b ← memRead p x
    let a ← byteUpdate t a b
    checkLoop p t todo (addr + 1) a

/-- The body of CRC.CHECK (R108). -/
def checkBody (s : State) : Cmd Half :=
  checkLoop s.platform s.table s.crcLen.toNat s.crcBase.toNat s.crcInit

/-- CRC.CHECK (R108). -/
def execCrcCheck (s : State) : Host.Outcome State Fault Refusal :=
  .next (perform .crcCheck (checkBody s) (fun a u => { u with crcAcc := a }) s)

end Sys2Proof.Machine
end

