-- ==== Sys2Proof/Machine/Mfm.lean ====
section
/-! DEFINITION. The MFM transcoder: MFM.DECODE and MFM.ENCODE (R90 to R95). -/

namespace Sys2Proof.Machine

/-- `PairDecode(clock, data)`: 1 exactly for (0, 1) (R92). -/
def pairDecode (clock data : Bool) : Bool := !clock && data

/-- `PairEncode(b, prev)` = (clock, data, prev') (R94). -/
def pairEncode (b prev : Bool) : Bool × Bool × Bool :=
  if b then (false, true, true)
  else if prev then (false, false, false)
  else (true, false, false)

/-- The preamble of both commands: RING_ZERO for N = 0, else the working cursor `C mod N` (R90). -/
def mfmPreamble (o : MfmOperands) : Cmd Nat :=
  if o.n = 0 then raiseFault .ringZero 0 else pure o.start

/-- The loop of R93 with `todo` bits left, output index `i` and working cursor `c`. It gives the final cursor. -/
def decodeLoop (p : Platform) (o : MfmOperands) : (todo i c : Nat) → Cmd Nat
  | 0, _, c => pure c
  | todo + 1, i, c => do
    let clk ← getBit p o.src c
    let dat ← getBit p o.src (advance o.n c)
    setBit p o.dst i (pairDecode clk dat)
    decodeLoop p o todo (i + 1) (advance o.n (advance o.n c))

/-- The body of MFM.DECODE (R93). -/
def decodeBody (p : Platform) (o : MfmOperands) : Cmd Nat := do
  let c ← mfmPreamble o
  decodeLoop p o o.m 0 c

/-- The ring position of prev: the one before the working cursor (R96). -/
def prevPosition (n c : Nat) : Nat := (c + n - 1) % n

/-- The loop of R95 with `todo` bits left, input index `i`, working cursor `c` and `prev`. It gives the final cursor. -/
def encodeLoop (p : Platform) (o : MfmOperands) : (todo i c : Nat) → (prev : Bool) → Cmd Nat
  | 0, _, c, _ => pure c
  | todo + 1, i, c, prev => do
    let b ← getBit p o.src i
    let pair := pairEncode b prev
    setBit p o.dst c pair.1
    setBit p o.dst (advance o.n c) pair.2.1
    encodeLoop p o todo (i + 1) (advance o.n (advance o.n c)) pair.2.2

/-- The body of MFM.ENCODE: prev is read from the ring even when M = 0 (R95, R96). -/
def encodeBody (p : Platform) (o : MfmOperands) : Cmd Nat := do
  let c ← mfmPreamble o
  let prev ← getBit p o.dst (prevPosition o.n c)
  encodeLoop p o o.m 0 c prev

/-- The updated cursor is written back only when M ≥ 1 (R91). -/
def writeCursor (o : MfmOperands) (c : Nat) (t : State) : State :=
  if 1 ≤ o.m then { t with mfmCursor := BitVec.ofNat 32 c } else t

/-- MFM.DECODE (R93). -/
def execMfmDecode (s : State) : Host.Outcome State Fault Refusal :=
  .next (perform .mfmDecode (decodeBody s.platform s.mfm) (writeCursor s.mfm) s)

/-- MFM.ENCODE (R95). -/
def execMfmEncode (s : State) : Host.Outcome State Fault Refusal :=
  .next (perform .mfmEncode (encodeBody s.platform s.mfm) (writeCursor s.mfm) s)

end Sys2Proof.Machine
end

