-- ==== Sys2Proof/Machine/Dispatch.lean ====
section
/-! DEFINITION. The codec's perform step of each command (R81): one arm per command. -/

namespace Sys2Proof.Machine

def exec (i : Instr) (s : State) : Host.Outcome State Fault Refusal :=
  match i with
  | .nop => Sys2Proof.Machine.execNop s
  | .getbit => Sys2Proof.Machine.execGetbit s
  | .setbit => Sys2Proof.Machine.execSetbit s
  | .mfmDecode => Sys2Proof.Machine.execMfmDecode s
  | .mfmEncode => Sys2Proof.Machine.execMfmEncode s
  | .crcBuild => Sys2Proof.Machine.execCrcBuild s
  | .crcReset => Sys2Proof.Machine.execCrcReset s
  | .crcUpdate => Sys2Proof.Machine.execCrcUpdate s
  | .crcCheck => Sys2Proof.Machine.execCrcCheck s

end Sys2Proof.Machine
end

