-- ==== Sys2Proof/Machine/Footprint.lean ====
section
/-! DEFINITION. A command as a sequence of buffer accesses (R60), its footprint (R59), and what reset during it leaves in
buffer memory (R132). -/

namespace Sys2Proof.Machine

/-- How a command performed in a state ends: the fault it raises, if any, and what it worked on. -/
def commandRun : Instr → State → Option Raise × Work
  | .nop, s => runBody nopBody s.mem
  | .getbit, s => runBody (getbitBody s) s.mem
  | .setbit, s => runBody (setbitBody s) s.mem
  | .mfmDecode, s => runBody (decodeBody s.platform s.mfm) s.mem
  | .mfmEncode, s => runBody (encodeBody s.platform s.mfm) s.mem
  | .crcBuild, s => runBody (buildBody s.platform s.crcPoly s.crcWidth) s.mem
  | .crcReset, s => runBody (resetAccBody s) s.mem
  | .crcUpdate, s => runBody (updateBody s) s.mem
  | .crcCheck, s => runBody (checkBody s) s.mem

/-- The fault a command raises, or none where it completes (R82, R117). -/
def commandFault (i : Instr) (s : State) : Option Raise := (commandRun i s).1

/-- The accesses a command makes, in the order it makes them (R60). -/
def commandAccesses (i : Instr) (s : State) : List Access := (commandRun i s).2.accesses.reverse

/-- The MemWrites among some accesses, in order (R132). -/
def writesOf (accesses : List Access) : List Host.Cell :=
  accesses.filterMap fun x => if x.kind = .write then some (x.addr, x.byte) else none

/-- The byte addresses of `count` bits of a linear buffer, from bit 0 (R56, R59). -/
def linearBytes (base count : Nat) : List Nat := (List.range count).map (byteAddr base)

/-- The byte addresses of the 2M ring positions from the working cursor: the set P of R59. -/
def ringBytes (o : MfmOperands) (base : Nat) : List Nat :=
  (List.range (2 * o.m)).map fun k => byteAddr base ((o.start + k) % o.n)

/-- The bytes a command may read and does not write: column R of R59. -/
def readFootprint (i : Instr) (s : State) : List Nat :=
  match i with
  | .nop => []
  | .getbit => [byteAddr s.bitBase.toNat s.bitIndex.toNat]
  | .setbit => []
  | .mfmDecode => if s.mfm.n = 0 then [] else ringBytes s.mfm s.mfm.src
  | .mfmEncode =>
    if s.mfm.n = 0 then []
    else byteAddr s.mfm.dst (prevPosition s.mfm.n s.mfm.start) :: linearBytes s.mfm.src s.mfm.m
  | .crcBuild => []
  | .crcReset => []
  | .crcUpdate => []
  | .crcCheck => (List.range s.crcLen.toNat).map fun j => s.crcBase.toNat + j

/-- The bytes a command may read and write: column RW of R59. -/
def writeFootprint (i : Instr) (s : State) : List Nat :=
  match i with
  | .nop => []
  | .getbit => []
  | .setbit => [byteAddr s.bitBase.toNat s.bitIndex.toNat]
  | .mfmDecode => if s.mfm.n = 0 then [] else linearBytes s.mfm.dst s.mfm.m
  | .mfmEncode => if s.mfm.n = 0 then [] else ringBytes s.mfm s.mfm.dst
  | .crcBuild => []
  | .crcReset => []
  | .crcUpdate => []
  | .crcCheck => []

/-- Whether a byte address is in a command's footprint (R59). -/
def inFootprint (i : Instr) (s : State) (a : Nat) : Bool :=
  (readFootprint i s).contains a || (writeFootprint i s).contains a

/-- Buffer memory after the first `k` MemWrites of a command, or after all of them where it makes fewer (R132, U6). -/
def memAfterWrites (i : Instr) (s : State) (k : Nat) : Memory :=
  Memory.writeAll s.mem ((writesOf (commandAccesses i s)).take k)

end Sys2Proof.Machine
end

