-- ==== Sys2Proof/Machine/Registers.lean ====
section
/-! DEFINITION. The one read and the one write of a register by the host (R17, R20 to R40). -/

namespace Sys2Proof.Machine

/-- CRC_TABLE[i]: the pair (HI[i], LO[i]) below 2^TW, and 0 at or above it (R40). -/
def State.tableWord (s : State) (i : Nat) : Word :=
  if i < 2 ^ s.table.tw.toNat then 0#16 ++ (s.table.hi i ++ s.table.lo i) else 0#32

/-- The value of a register, unimplemented bits 0 (R20, R77). CMD reads 0 (R21). -/
def State.readReg (s : State) : Reg → Word
  | .cmd => 0#32
  | .status => s.statusWord
  | .faultInfo => s.faultInfo
  | .bitBase => s.bitBase
  | .bitIndex => s.bitIndex
  | .bitData => s.bitData.setWidth 32
  | .mfmSrc => s.mfmSrc
  | .mfmDst => s.mfmDst
  | .mfmN => s.mfmN
  | .mfmM => s.mfmM
  | .mfmCursor => s.mfmCursor
  | .crcAcc => s.crcAcc.setWidth 32
  | .crcPoly => s.crcPoly.setWidth 32
  | .crcInit => s.crcInit.setWidth 32
  | .crcWidth => s.crcWidth.setWidth 32
  | .crcData => s.crcData.setWidth 32
  | .crcBase => s.crcBase
  | .crcLen => s.crcLen
  | .crcTinfo => s.tinfoWord
  | .crcTable i => s.tableWord i

/-- A host write to a read-write register: its implemented bits take the value's (R20). A register that is not read-write is
not written here: CMD issues a command (R21) and a read-only register faults (R19). -/
def State.writeReg (s : State) (r : Reg) (v : Word) : State :=
  match r with
  | .cmd => s
  | .status => s
  | .faultInfo => s
  | .bitBase => { s with bitBase := v }
  | .bitIndex => { s with bitIndex := v }
  | .bitData => { s with bitData := v.setWidth 1 }
  | .mfmSrc => { s with mfmSrc := v }
  | .mfmDst => { s with mfmDst := v }
  | .mfmN => { s with mfmN := v }
  | .mfmM => { s with mfmM := v }
  | .mfmCursor => { s with mfmCursor := v }
  | .crcAcc => { s with crcAcc := v.setWidth 16 }
  | .crcPoly => { s with crcPoly := v.setWidth 16 }
  | .crcInit => { s with crcInit := v.setWidth 16 }
  | .crcWidth => { s with crcWidth := v.setWidth 5 }
  | .crcData => { s with crcData := v.setWidth 8 }
  | .crcBase => { s with crcBase := v }
  | .crcLen => { s with crcLen := v }
  | .crcTinfo => s
  | .crcTable _ => s

end Sys2Proof.Machine
end

