-- ==== Sys2Proof/Machine/HostAgent.lean ====
section
/-! DEFINITION. The host's steps: register reads and writes (R77 to R80), buffer accesses (R85), and reset (R131, R132). -/

namespace Sys2Proof.Machine

/-- FAULT_OP of a register-level fault (R115). -/
def registerLevelOp : Byte := 0xFF#8

/-- Record a register-level fault about an offset, truncated to 32 bits (R115, R116). -/
def recordOffsetFault (code : FaultCode) (off : Nat) (s : State) : State :=
  recordFault ⟨code, registerLevelOp, trunc32 off⟩ s

/-- The register an access reaches, or none where the access is of another width, misaligned or unmapped (R18). -/
def accessedRow (p : Platform) (off width : Nat) : Option RegRow :=
  if width ≠ 32 ∨ off % 4 ≠ 0 then none else regRowAt p off

/-- `RD off` (R77). Legal while BUSY = 1 and while FAULTED = 1. -/
def hostRegRead (off width : Nat) (s : State) : State :=
  match accessedRow s.platform off width with
  | none => { recordOffsetFault .regAccess off s with readData := 0#32 }
  | some row => { s with readData := s.readReg row.reg }

/-- Issue of a command word (R80): PENDING takes the command, or ILLEGAL_COMMAND is recorded (R72). -/
def issue (w : Word) (s : State) : State :=
  match decode w with
  | .error _ => recordFault ⟨.illegalCommand, opField w, w⟩ s
  | .ok i => { s with pending := some i }

/-- `WR off, v`: the first case of R78 that applies decides (R118). -/
def hostRegWrite (off width : Nat) (v : Word) (s : State) : State :=
  if s.faulted then s
  else match accessedRow s.platform off width with
    | none => recordOffsetFault .regAccess off s
    | some row =>
      match row.mode with
      | .readOnly => recordOffsetFault .regAccess off s
      | .writeOnly => if s.busy then recordOffsetFault .busyViolation off s else issue v s
      | .readWrite => if s.busy then recordOffsetFault .busyViolation off s else s.writeReg row.reg v

/-- `RD STATUS`, as a loop makes it: the register read at STATUS's offset (R75, R77). -/
def readStatus (s : State) : State := hostRegRead (Reg.offset .status) 32 s

/-- One turn of WAIT's loop (R76): a read of STATUS, and, while bit 0 of the value read is 1, the loop stands at the head of
the script again. After `polls` reads its next one lands behind the perform step, so that WAIT ends (U4, R143). -/
def hostWait (polls : Nat) (s : State) : State :=
  let t := readStatus s
  if t.readData.getLsbD 0 then { t with script := ⟨.wait (polls - 1), decide (1 < polls)⟩ :: t.script } else t

/-- Whether a host buffer access would break the duty of R61(c): a command is pending and the byte is in its footprint. -/
def breachesDuty (a : Word) (s : State) : Bool :=
  match s.pending with
  | none => false
  | some i => inFootprint i s a.toNat

/-- The reset input (R131): every register and every hidden field takes its reset value. Buffer memory is not reset (R133);
a command pending at that moment is abandoned after `drawn` of its MemWrites (R132, U6). -/
def applyReset (drawn : Nat) (s : State) : State :=
  let m := match s.pending with
    | none => s.mem
    | some i => memAfterWrites i s drawn
  State.resetOn s.platform m s.script s.readData

/-- One step of the host agent. A buffer access that breaks the duty is refused (U1): the model has no such step. -/
def hostStep (op : HostOp) (s : State) : Host.Outcome State Fault Refusal :=
  match op with
  | .regRead off width => .next (hostRegRead off width s)
  | .regWrite off width v => .next (hostRegWrite off width v s)
  | .wait polls => .next (hostWait polls s)
  | .memRead a =>
    if breachesDuty a s then .refused (.footprintBreach a)
    else .next { s with readData := (Memory.read s.mem a.toNat).setWidth 32 }
  | .memWrite a v =>
    if breachesDuty a s then .refused (.footprintBreach a)
    else .next (s.setMem (Memory.write s.mem a.toNat v))
  | .reset drawn => .next (applyReset drawn s)

end Sys2Proof.Machine
end

