-- ==== Sys2Proof/Machine/Schedule.lean ====
section
/-! DEFINITION. Which agent moves next (R6, R81, R143, U7). -/

namespace Sys2Proof.Machine

/-- The next move of the machine. -/
inductive Turn where
  /-- No command is pending and the host has nothing to do: nothing happens (R129). -/
  | idle
  /-- The codec performs its pending command (R81). -/
  | codec (i : Instr)
  /-- The host takes its next action and has the others left. -/
  | host (op : HostOp) (rest : List HostEvent)
  deriving DecidableEq, Repr

/-- Who moves next. With a command pending, the codec does, unless the host's next action is marked to land before the
perform step (U7). The script is finite, so a pending command is performed (R143). -/
def nextTurn (s : State) : Turn :=
  match s.pending, s.script with
  | none, [] => .idle
  | none, e :: rest => .host e.op rest
  | some i, [] => .codec i
  | some i, e :: rest => if e.early then .host e.op rest else .codec i

/-- The same host actions, none of them before the next perform step. -/
def codecFirst : List HostEvent → List HostEvent
  | [] => []
  | e :: rest => { e with early := false } :: rest

end Sys2Proof.Machine
end

