-- ==== Sys2Proof/Machine/Step.lean ====
section
/-! DEFINITION. One step of the machine: one move of one agent (R6), and the placing of a command where the next step finds
it. -/

namespace Sys2Proof.Machine

/-- One step: the host's next action, or the codec's perform step of the pending command (R6, R81). Steps of the two agents
interleave and never coincide (R119). -/
def step (s : State) : Host.Outcome State Fault Refusal :=
  match nextTurn s with
  | .idle => .next s
  | .codec i => exec i s
  | .host op rest => hostStep op { s with script := rest }

/-- The state in which the command of a table word has just been accepted (PENDING, R80) and the codec moves next. This block
fetches nothing (R41): a command comes from a CMD write, which this stands for (log entry 7). With an illegal word no
command is pending. -/
def State.withFetchWord (s : State) (nbits w : Nat) : State :=
  { s with pending := decodeTableWord nbits w, script := codecFirst s.script }

end Sys2Proof.Machine
end

