-- ==== Sys2Proof/Machine/HostProgram.lean ====
section
/-! DEFINITION. Host programs: assembler lines and pseudo-instructions as transactions (R74 to R76), and the platform's
address decoding (R17, R66). -/

namespace Sys2Proof.Machine

/-- `W <offset of r> <v>` (R75). -/
def writeOp (r : Reg) (v : Word) : HostOp := .regWrite r.offset 32 v

/-- `R <offset of r>` (R75). -/
def readOp (r : Reg) : HostOp := .regRead r.offset 32

/-- `WAIT`: its loop, at the first turn (R76). With a command pending, `polls` of its STATUS reads land before the perform
step and see BUSY = 1, and one more lands after it and ends the loop (U4); with none pending, its first read ends it. -/
def waitEvents (polls : Nat) : List HostEvent := [⟨.wait polls, decide (0 < polls)⟩]

/-- The host events of an assembler line (R75, R76). `early` places the line's transaction before a pending perform step. -/
def expandAsm (early : Bool) : AsmOp → List HostEvent
  | .wr r v => [⟨writeOp r v, early⟩]
  | .rd r => [⟨readOp r, early⟩]
  | .cmd i => [⟨writeOp .cmd (encode i), early⟩]
  | .wait polls => waitEvents polls
  | .run i polls => ⟨writeOp .cmd (encode i), early⟩ :: waitEvents polls
  | .setreg r v => [⟨writeOp r v, early⟩]
  | .memPut a v => [⟨.memWrite a v, early⟩]
  | .memGet a => [⟨.memRead a, early⟩]
  | .resetLine drawn => [⟨.reset drawn, early⟩]

/-- A host program as a script, every line after a pending perform step. -/
def scriptOf (lines : List AsmOp) : List HostEvent := lines.flatMap (expandAsm false)

/-- The read transaction a bus read at a host address becomes: its offset is relative to REG_BASE (R17, U5). An address below
REG_BASE does not reach the block. -/
def busRead (p : Platform) (addr width : Nat) : Option HostOp :=
  if p.regBase ≤ addr then some (.regRead (addr - p.regBase) width) else none

/-- The write transaction a bus write at a host address becomes (R17, U5). -/
def busWrite (p : Platform) (addr width : Nat) (v : Word) : Option HostOp :=
  if p.regBase ≤ addr then some (.regWrite (addr - p.regBase) width v) else none

end Sys2Proof.Machine
end

