-- ==== Sys2Proof/Safety.lean ====
section
/-! DEFINITION. What claims speak of: ends of runs (R86), the accesses a command is allowed (R54, R135), the invariant that
steps keep, and the bit-serial CRC register that the table-driven engine stands for (R110). -/

namespace Sys2Proof.Machine

/-- The host has done its last transaction and no command is pending (R86). -/
def State.endOfRun (s : State) : Bool := s.script.isEmpty && !s.busy

/-- An end of a run that is not faulted: "a faulted run is never a good end" (R86). -/
def State.goodEnd (s : State) : Bool := s.endOfRun && !s.faulted

/-- The block may read this byte: its address does not overflow and is admitted for read (R50, R54). -/
def readAllowed (p : Platform) (a : Nat) : Bool := decide (a < addrSpace) && p.admits a .read

/-- The block may read this byte and write it (R50, R53, R54). -/
def updateAllowed (p : Platform) (a : Nat) : Bool := readAllowed p a && p.admits a .write

/-- The whole footprint of a command is admitted (R59, R135: "Make sure MemAdmit admits the footprint"). -/
def footprintAllowed (i : Instr) (s : State) : Bool :=
  (readFootprint i s).all (readAllowed s.platform) && (writeFootprint i s).all (updateAllowed s.platform)

/-- Two lists of byte addresses share none (R98: "the ring's bytes are disjoint from the input's and from the output's"). -/
def disjointBytes (xs ys : List Nat) : Bool := xs.all fun a => !ys.contains a

/-- The table memory holds what CRC.BUILD or reset loads: a legal width, and the entries of BuildTable (R45, R105, D39). -/
structure TableLoaded (p : Platform) (t : Table) : Prop where
  width_pos : 1 ≤ t.tw.toNat
  width_le : t.tw.toNat ≤ p.tableMaxWidth
  entries : t.entries = buildTable t.tpoly t.tw.toNat

/-- The commands that access buffer memory (R115, rows ADDR_OVERFLOW and BUS_ERROR). -/
def accessingOps : List Byte := [0x01#8, 0x02#8, 0x10#8, 0x11#8, 0x23#8]

/-- What R115 allows a fault record to hold: FAULT_OP and FAULT_INFO for each code. -/
def FaultRecord.legal (p : Platform) (f : FaultRecord) : Bool :=
  match f.code with
  | .illegalCommand => f.op == opField f.info && (match decode f.info with | .error _ => true | .ok _ => false)
  | .regAccess => f.op == 0xFF#8
  | .busyViolation => f.op == 0xFF#8 && (accessedRow p f.info.toNat 32).isSome
  | .ringZero => (f.op == 0x10#8 || f.op == 0x11#8) && f.info == 0#32
  | .addrOverflow => accessingOps.contains f.op
  | .busError => accessingOps.contains f.op && (!p.admits f.info.toNat .read || !p.admits f.info.toNat .write)
  | .tableWidth => f.op == 0x20#8 && (f.info == 0#32 || decide (p.tableMaxWidth < f.info.toNat)) && decide (f.info.toNat < 32)
  | .tableIndex => (f.op == 0x22#8 || f.op == 0x23#8) && decide (2 ≤ f.info.toNat) && decide (f.info.toNat < 16)

/-- What every step keeps: a legal platform (R7), buffer memory in canonical form, a loaded table (R45), and a fault record
as R115 says. -/
structure StateInv (s : State) : Prop where
  platform : s.platform.wf = true
  memory : Memory.wf s.mem = true
  table : TableLoaded s.platform s.table
  fault : ∀ f, s.faultRec = some f → f.legal s.platform = true

/-- One step of the bitwise CRC register: `a <- trunc_16(a << 1) ^ (poly if a[15] ^ bit = 1)` (R110). -/
def crcBitStep (poly : Half) (a : Half) (bit : Bool) : Half :=
  if a.getLsbD 15 ^^ bit then (a <<< 1) ^^^ poly else a <<< 1

/-- The bitwise CRC register after a sequence of bits, the first bit first (R110). -/
def crcBits (poly : Half) (a : Half) (bits : List Bool) : Half := bits.foldl (crcBitStep poly) a

/-- An offset the register map gives a register to, below the table window or in it (R17, R40). -/
abbrev MappedOffset (p : Platform) (off : Nat) : Prop :=
  off % 4 = 0 ∧ (off ≤ 0x048 ∨ (0x10000 ≤ off ∧ off < 0x10000 + 4 * 2 ^ p.tableMaxWidth))

/-- The offsets of the read-only registers: STATUS, FAULT_INFO, CRC_TINFO and the table window (R17). -/
abbrev ReadOnlyOffset (off : Nat) : Prop := off = 0x004 ∨ off = 0x008 ∨ off = 0x048 ∨ 0x10000 ≤ off

/-- A nibble step against a table that holds its index: `trunc_16(a << 4) ^ T[(a >> 12) ^ n]` (R103). -/
def tableNibble (t : Table) (a : Half) (n : Nat) : Half := (a <<< 4) ^^^ t.entry ((a.toNat >>> 12) ^^^ n)

/-- A byte update: high nibble first (R104). -/
def tableByte (t : Table) (a : Half) (b : Byte) : Half :=
  tableNibble t (tableNibble t a (b.toNat / 16)) (b.toNat % 16)

/-- The index of a nibble step is one the table holds (R103, R113). -/
abbrev IndexHeld (t : Table) (a : Half) (n : Nat) : Prop := (a.toNat >>> 12) ^^^ n < 2 ^ t.tw.toNat

/-- Both nibble indices of a byte update are ones the table holds (R104, R113). -/
abbrev ByteHeld (t : Table) (a : Half) (b : Byte) : Prop :=
  IndexHeld t a (b.toNat / 16) ∧ IndexHeld t (tableNibble t a (b.toNat / 16)) (b.toNat % 16)

/-- The accumulator after a run of bytes, the first byte first (R108). -/
def tableBytes (t : Table) (a : Half) (bs : List Byte) : Half := bs.foldl (tableByte t) a

/-- The bytes of a buffer at a byte address, by rising address (R58, R108). -/
def bytesAt (m : Memory) (base count : Nat) : List Byte :=
  (List.range count).map fun j => Memory.read m (base + j)

/-- The bits of a buffer at a byte address, MSB first (R51, R56). -/
def bitsAt (m : Memory) (base count : Nat) : List Bool :=
  (List.range count).map fun j => Memory.bit m (8 * base + j)

/-- Kind and address of each access, in order (R60). -/
def accessOrder (i : Instr) (s : State) : List (AccessKind × Nat) :=
  (commandAccesses i s).map fun x => (x.kind, x.addr)

/-- A buffer access that raises no fault (R50, R54). -/
def accessAllowed (p : Platform) (x : AccessKind × Nat) : Bool := decide (x.2 < addrSpace) && p.admits x.2 x.1

/-- The fault of an access that is not allowed (R50, R54). -/
def accessFault (x : AccessKind × Nat) : Raise :=
  ⟨if addrSpace ≤ x.2 then .addrOverflow else .busError, BitVec.ofNat 32 x.2⟩

/-- The accesses of MFM.DECODE in the order of its pseudocode when none is refused, for N ≥ 1 (R53, R60, R93). -/
def decodePlan (s : State) : List (AccessKind × Nat) :=
  (List.range s.mfmM.toNat).flatMap fun i =>
    [(.read, s.mfmSrc.toNat + (s.mfmCursor.toNat + 2 * i) % s.mfmN.toNat / 8),
     (.read, s.mfmSrc.toNat + (s.mfmCursor.toNat + 2 * i + 1) % s.mfmN.toNat / 8),
     (.read, s.mfmDst.toNat + i / 8), (.write, s.mfmDst.toNat + i / 8)]

/-- The accesses of MFM.ENCODE in the order of its pseudocode when none is refused, for N ≥ 1 (R53, R60, R95, R96). -/
def encodePlan (s : State) : List (AccessKind × Nat) :=
  (.read, s.mfmDst.toNat + (s.mfmCursor.toNat % s.mfmN.toNat + s.mfmN.toNat - 1) % s.mfmN.toNat / 8) ::
  (List.range s.mfmM.toNat).flatMap fun i =>
    [(.read, s.mfmSrc.toNat + i / 8),
     (.read, s.mfmDst.toNat + (s.mfmCursor.toNat + 2 * i) % s.mfmN.toNat / 8),
     (.write, s.mfmDst.toNat + (s.mfmCursor.toNat + 2 * i) % s.mfmN.toNat / 8),
     (.read, s.mfmDst.toNat + (s.mfmCursor.toNat + 2 * i + 1) % s.mfmN.toNat / 8),
     (.write, s.mfmDst.toNat + (s.mfmCursor.toNat + 2 * i + 1) % s.mfmN.toNat / 8)]

/-- Buffer bits with one of them replaced (R53). -/
def setBitAt (bits : Nat → Bool) (j : Nat) (v : Bool) : Nat → Bool := fun k => if k = j then v else bits k

/-- The buffer bits after the first turns of MFM.DECODE's loop when no access is refused, for N ≥ 1: turn `i` reads its pair
from the bits as they stand, writes of earlier turns included, and then writes output bit `i` (R60, R93, R138). -/
def decodedBits (s : State) : (turns : Nat) → Nat → Bool
  | 0 => Memory.bit s.mem
  | i + 1 =>
    let bits := decodedBits s i
    let clock := bits (8 * s.mfmSrc.toNat + (s.mfmCursor.toNat + 2 * i) % s.mfmN.toNat)
    let data := bits (8 * s.mfmSrc.toNat + (s.mfmCursor.toNat + 2 * i + 1) % s.mfmN.toNat)
    setBitAt bits (8 * s.mfmDst.toNat + i) (!clock && data)

/-- The buffer bits, and prev, after the first turns of MFM.ENCODE's loop when no access is refused, for N ≥ 1: prev starts as
the ring bit before the cursor; turn `i` reads input bit `i` from the bits as they stand, writes of earlier turns included,
writes the clock bit, then the data bit, and the data bit is the next prev (R60, R94, R95, R96, R138). -/
def encodedBits (s : State) : (turns : Nat) → (Nat → Bool) × Bool
  | 0 => (Memory.bit s.mem, Memory.bit s.mem (8 * s.mfmDst.toNat +
      (s.mfmCursor.toNat % s.mfmN.toNat + s.mfmN.toNat - 1) % s.mfmN.toNat))
  | i + 1 =>
    let (bits, prev) := encodedBits s i
    let b := bits (8 * s.mfmSrc.toNat + i)
    let clocked := setBitAt bits (8 * s.mfmDst.toNat + (s.mfmCursor.toNat + 2 * i) % s.mfmN.toNat) (!b && !prev)
    (setBitAt clocked (8 * s.mfmDst.toNat + (s.mfmCursor.toNat + 2 * i + 1) % s.mfmN.toNat) b, b)

end Sys2Proof.Machine
end

