-- ==== Sys2Proof/Certificates/Slice0/Obligations.lean ====
section
/-! DEFINITION. The statements about the model, for the provers. Each docstring names the rule it formalises. -/

open Sys2Proof Sys2Proof.Machine

/-! ## Encoding -/

/-- R73 with R69 and R72: a word decodes to a command exactly when it is that command's word, and every other word is refused by
name, for a non-zero RSV field first. -/
def Obligations.DecodeAcceptsExactlyTheCommandWords : Prop :=
  (∀ (w : Word) (i : Instr), decode w = .ok i ↔ w = encode i) ∧
  (∀ w : Word, (∀ i : Instr, w ≠ encode i) →
    decode w = .error (if w.extractLsb' 8 24 ≠ 0#24 then DecodeError.reservedNotZero else DecodeError.unknownOpcode))

/-- R69: the nine words, written out from the opcode map. -/
def Obligations.NineWordsDecodeToTheirCommands : Prop :=
  decode 0x00000000#32 = .ok .nop ∧ decode 0x00000001#32 = .ok .getbit ∧ decode 0x00000002#32 = .ok .setbit ∧
  decode 0x00000010#32 = .ok .mfmDecode ∧ decode 0x00000011#32 = .ok .mfmEncode ∧ decode 0x00000020#32 = .ok .crcBuild ∧
  decode 0x00000021#32 = .ok .crcReset ∧ decode 0x00000022#32 = .ok .crcUpdate ∧ decode 0x00000023#32 = .ok .crcCheck

/-- R75 with R17: the offset the assembler writes for a register name reaches that register, on every legal platform. -/
def Obligations.AssembledOffsetReachesItsRegister : Prop :=
  ∀ (p : Platform) (r : Reg), p.wf = true → r.wf p = true →
    ∃ row, accessedRow p r.offset 32 = some row ∧ row.reg = r ∧ row.off = r.offset

/-- R18: an access reaches no register exactly when its width is not 32, its offset is not a multiple of 4, or its offset is
unmapped. -/
def Obligations.AccessReachesARegisterExactlyWhenMapped : Prop :=
  ∀ (p : Platform) (off width : Nat),
    (accessedRow p off width = none ↔ (width ≠ 32 ∨ ¬ MappedOffset p off)) ∧
    (∀ row, accessedRow p off width = some row → (row.mode = .readOnly ↔ ReadOnlyOffset off) ∧
      (row.mode = .writeOnly ↔ off = 0))

/-- R17 with R40: the register map, written out row by row: the name, the access mode and the implemented bits at each offset,
and the offset the assembler writes for each name (R75). -/
def Obligations.RegisterMapHasTheRowsOfTheSpec : Prop :=
  ∀ p : Platform,
    (regRowAt p 0x000 = some ⟨0x000, .cmd, .writeOnly, 0xFFFFFFFF#32⟩ ∧ Reg.offset .cmd = 0x000) ∧
    (regRowAt p 0x004 = some ⟨0x004, .status, .readOnly, 0x00FFFF03#32⟩ ∧ Reg.offset .status = 0x004) ∧
    (regRowAt p 0x008 = some ⟨0x008, .faultInfo, .readOnly, 0xFFFFFFFF#32⟩ ∧ Reg.offset .faultInfo = 0x008) ∧
    (regRowAt p 0x00C = some ⟨0x00C, .bitBase, .readWrite, 0xFFFFFFFF#32⟩ ∧ Reg.offset .bitBase = 0x00C) ∧
    (regRowAt p 0x010 = some ⟨0x010, .bitIndex, .readWrite, 0xFFFFFFFF#32⟩ ∧ Reg.offset .bitIndex = 0x010) ∧
    (regRowAt p 0x014 = some ⟨0x014, .bitData, .readWrite, 0x00000001#32⟩ ∧ Reg.offset .bitData = 0x014) ∧
    (regRowAt p 0x018 = some ⟨0x018, .mfmSrc, .readWrite, 0xFFFFFFFF#32⟩ ∧ Reg.offset .mfmSrc = 0x018) ∧
    (regRowAt p 0x01C = some ⟨0x01C, .mfmDst, .readWrite, 0xFFFFFFFF#32⟩ ∧ Reg.offset .mfmDst = 0x01C) ∧
    (regRowAt p 0x020 = some ⟨0x020, .mfmN, .readWrite, 0xFFFFFFFF#32⟩ ∧ Reg.offset .mfmN = 0x020) ∧
    (regRowAt p 0x024 = some ⟨0x024, .mfmM, .readWrite, 0xFFFFFFFF#32⟩ ∧ Reg.offset .mfmM = 0x024) ∧
    (regRowAt p 0x028 = some ⟨0x028, .mfmCursor, .readWrite, 0xFFFFFFFF#32⟩ ∧ Reg.offset .mfmCursor = 0x028) ∧
    (regRowAt p 0x02C = some ⟨0x02C, .crcAcc, .readWrite, 0x0000FFFF#32⟩ ∧ Reg.offset .crcAcc = 0x02C) ∧
    (regRowAt p 0x030 = some ⟨0x030, .crcPoly, .readWrite, 0x0000FFFF#32⟩ ∧ Reg.offset .crcPoly = 0x030) ∧
    (regRowAt p 0x034 = some ⟨0x034, .crcInit, .readWrite, 0x0000FFFF#32⟩ ∧ Reg.offset .crcInit = 0x034) ∧
    (regRowAt p 0x038 = some ⟨0x038, .crcWidth, .readWrite, 0x0000001F#32⟩ ∧ Reg.offset .crcWidth = 0x038) ∧
    (regRowAt p 0x03C = some ⟨0x03C, .crcData, .readWrite, 0x000000FF#32⟩ ∧ Reg.offset .crcData = 0x03C) ∧
    (regRowAt p 0x040 = some ⟨0x040, .crcBase, .readWrite, 0xFFFFFFFF#32⟩ ∧ Reg.offset .crcBase = 0x040) ∧
    (regRowAt p 0x044 = some ⟨0x044, .crcLen, .readWrite, 0xFFFFFFFF#32⟩ ∧ Reg.offset .crcLen = 0x044) ∧
    (regRowAt p 0x048 = some ⟨0x048, .crcTinfo, .readOnly, 0xFFFF001F#32⟩ ∧ Reg.offset .crcTinfo = 0x048) ∧
    (∀ i, i < 2 ^ p.tableMaxWidth →
      regRowAt p (0x10000 + 4 * i) = some ⟨0x10000 + 4 * i, .crcTable i, .readOnly, 0x0000FFFF#32⟩ ∧
      Reg.offset (.crcTable i) = 0x10000 + 4 * i) ∧
    (∀ off, ¬ MappedOffset p off → off % 4 = 0 → regRowAt p off = none)

/-! ## Steps and commands -/

/-- R80, R81: a legal word written to CMD while the block is idle and not faulted becomes the pending command, and, unless the
host's next action is placed before it, the next step is exec of the decoded command. A word placed by withFetchWord is
run by the very next step. The script and its order are the model's (log entries 6 and 7). -/
def Obligations.IssuedCommandIsDecodedAndPerformed : Prop :=
  (∀ (s : State) (w : Word) (i : Instr) (early : Bool) (rest : List HostEvent),
    s.pending = none → s.faultRec = none → s.script = ⟨.regWrite 0x000 32 w, early⟩ :: rest → decode w = .ok i →
    (∀ e ∈ rest.head?, e.early = false) →
    step s = .next { s with pending := some i, script := rest } ∧
    step { s with pending := some i, script := rest } = exec i { s with pending := some i, script := rest }) ∧
  (∀ (s : State) (w : Word) (i : Instr), decode w = .ok i →
    (s.withFetchWord 32 w.toNat).pending = some i ∧
    step (s.withFetchWord 32 w.toNat) = exec i (s.withFetchWord 32 w.toNat))

/-- R81, R129 and U7: the codec performs the pending command unless the host's next action is placed before it. That a step with
nothing pending and no host action left answers the same state is the model's choice (log entry 16: the spec has no step
there), and so is the script with its order (log entry 6). -/
def Obligations.TurnsFollowThePendingCommandAndTheScript : Prop :=
  ∀ s : State,
    (s.pending = none → s.script = [] → step s = .next s) ∧
    (∀ i, s.pending = some i → (∀ e ∈ s.script.head?, e.early = false) → step s = exec i s) ∧
    (∀ e rest, s.script = e :: rest → s.pending = none ∨ e.early = true → step s = hostStep e.op { s with script := rest })

/-- R81: a perform step always gives a next state, with PENDING none, whether the command completed or faulted. -/
def Obligations.PerformStepAlwaysEndsWithNothingPending : Prop :=
  ∀ (i : Instr) (s : State), ∃ t, exec i s = .next t ∧ t.pending = none

/-- R72: a word whose RSV field is not 0, or whose OP is not in the opcode map, makes no command when it is written to CMD of an
idle block that is not faulted: the fault record, with the whole word and its OP, is all that changes. -/
def Obligations.IllegalWordFaultsAtTheCmdWrite : Prop :=
  ∀ (s : State) (w : Word), s.pending = none → s.faultRec = none →
    (w.extractLsb' 8 24 ≠ 0#24 ∨
      w.extractLsb' 0 8 ∉ [0x00#8, 0x01#8, 0x02#8, 0x10#8, 0x11#8, 0x20#8, 0x21#8, 0x22#8, 0x23#8]) →
    hostStep (.regWrite 0x000 32 w) s =
      .next { s with faultRec := some ⟨.illegalCommand, w.extractLsb' 0 8, w⟩ }

/-- R83: NOP changes nothing but PENDING. -/
def Obligations.NopChangesNothingButPending : Prop :=
  ∀ s : State, exec .nop s = .next { s with pending := none }

/-- R42: each register is written only by the commands of the table; no command writes an operand register, the platform, the
script or the latest read value. -/
def Obligations.CommandsWriteOnlyTheirOutputRegisters : Prop :=
  ∀ (i : Instr) (s t : State), exec i s = .next t →
    (t.bitBase = s.bitBase ∧ t.bitIndex = s.bitIndex ∧ t.mfmSrc = s.mfmSrc ∧ t.mfmDst = s.mfmDst ∧ t.mfmN = s.mfmN ∧
      t.mfmM = s.mfmM ∧ t.crcPoly = s.crcPoly ∧ t.crcInit = s.crcInit ∧ t.crcWidth = s.crcWidth ∧ t.crcData = s.crcData ∧
      t.crcBase = s.crcBase ∧ t.crcLen = s.crcLen ∧ t.platform = s.platform ∧ t.script = s.script ∧
      t.readData = s.readData) ∧
    (i ≠ .getbit → t.bitData = s.bitData) ∧
    (i ≠ .mfmDecode → i ≠ .mfmEncode → t.mfmCursor = s.mfmCursor) ∧
    (i ≠ .crcReset → i ≠ .crcUpdate → i ≠ .crcCheck → t.crcAcc = s.crcAcc) ∧
    (i ≠ .crcBuild → t.table = s.table) ∧
    (i ≠ .setbit → i ≠ .mfmDecode → i ≠ .mfmEncode → t.mem = s.mem) ∧
    (∀ a, a ∉ writeFootprint i s → Memory.read t.mem a = Memory.read s.mem a)

/-- R82, R117, R120: a command that raises a fault writes no output register; buffer memory holds exactly the writes it made
before the faulting access, in order; the fault is recorded with the command's opcode; PENDING is cleared. -/
def Obligations.FaultingCommandKeepsOnlyItsEarlierWrites : Prop :=
  ∀ (i : Instr) (s : State) (r : Raise), commandFault i s = some r →
    exec i s = .next (recordFault ⟨r.code, i.opcode, r.info⟩
      { s with mem := Memory.writeAll s.mem (writesOf (commandAccesses i s)), pending := none })

/-- R59: every access of a command, completed or faulted, is inside its footprint, and every write in the written part of it. -/
def Obligations.AccessesStayInTheFootprint : Prop :=
  ∀ (i : Instr) (s : State) (x : Access), x ∈ commandAccesses i s →
    x.addr < 2 ^ 32 ∧ (x.addr ∈ readFootprint i s ∨ x.addr ∈ writeFootprint i s) ∧
    (x.kind = .write → x.addr ∈ writeFootprint i s)

/-- R60, R93, R95, R117: with N ≥ 1 an MFM command makes its accesses in the order of its pseudocode. MFM.DECODE: clock read,
data read, then a read and a write of the output byte, for each bit. MFM.ENCODE: the prev read, then, for each bit, the
input read and a read and a write of the clock's byte and of the data's byte. It ends at the first access that is not
allowed, with that access's fault, and completes when there is none. -/
def Obligations.MfmMakesItsAccessesInOrderUpToTheFirstRefused : Prop :=
  ∀ s : State, s.mfmN ≠ 0#32 →
    (accessOrder .mfmDecode s = (decodePlan s).takeWhile (accessAllowed s.platform) ∧
      commandFault .mfmDecode s =
        ((decodePlan s).find? fun x => !accessAllowed s.platform x).map accessFault) ∧
    (accessOrder .mfmEncode s = (encodePlan s).takeWhile (accessAllowed s.platform) ∧
      commandFault .mfmEncode s =
        ((encodePlan s).find? fun x => !accessAllowed s.platform x).map accessFault)

/-- R54: a bit access command or an MFM command completes exactly when its ring length is not 0 (MFM) and every byte of its
footprint is inside the address space and admitted for what the command does there. -/
def Obligations.BufferCommandsCompleteExactlyWhenAdmitted : Prop :=
  ∀ s : State,
    (∀ i : Instr, i = .getbit ∨ i = .setbit → (commandFault i s = none ↔ footprintAllowed i s = true)) ∧
    (∀ i : Instr, i = .mfmDecode ∨ i = .mfmEncode →
      (commandFault i s = none ↔ (s.mfmN ≠ 0#32 ∧ footprintAllowed i s = true)))

/-! ## Bit access -/

/-- R87: GETBIT reads the addressed bit, MSB first, into BIT_DATA and changes nothing else; an address at or above 2^32 faults
ADDR_OVERFLOW, a byte not admitted for read faults BUS_ERROR, and BIT_DATA then keeps its value. -/
def Obligations.GetbitReadsTheAddressedBitOrFaults : Prop :=
  ∀ (s : State) (a : Nat), a = s.bitBase.toNat + s.bitIndex.toNat / 8 →
    (a < 2 ^ 32 → s.platform.admits a .read = true →
      exec .getbit s = .next { s with
        bitData := BitVec.ofBool ((Memory.read s.mem a).getLsbD (7 - s.bitIndex.toNat % 8)), pending := none }) ∧
    (2 ^ 32 ≤ a → exec .getbit s =
      .next (recordFault ⟨.addrOverflow, 0x01#8, BitVec.ofNat 32 a⟩ { s with pending := none })) ∧
    (a < 2 ^ 32 → s.platform.admits a .read = false → exec .getbit s =
      .next (recordFault ⟨.busError, 0x01#8, BitVec.ofNat 32 a⟩ { s with pending := none }))

/-- R88: SETBIT writes the byte back with the addressed bit equal to BIT_DATA[0] and changes nothing else; the address check
comes first, then admission for read, then admission for write, and a fault leaves memory as it was. -/
def Obligations.SetbitWritesTheAddressedBitOrFaults : Prop :=
  ∀ (s : State) (a : Nat) (b m : Byte), a = s.bitBase.toNat + s.bitIndex.toNat / 8 → b = Memory.read s.mem a →
    m = 1#8 <<< (7 - s.bitIndex.toNat % 8) →
    (a < 2 ^ 32 → s.platform.admits a .read = true → s.platform.admits a .write = true →
      exec .setbit s = .next { s with
        mem := Memory.write s.mem a (if s.bitData = 1#1 then b ||| m else b &&& (0xFF#8 ^^^ m)), pending := none }) ∧
    (2 ^ 32 ≤ a → exec .setbit s =
      .next (recordFault ⟨.addrOverflow, 0x02#8, BitVec.ofNat 32 a⟩ { s with pending := none })) ∧
    (a < 2 ^ 32 → s.platform.admits a .read = false ∨ s.platform.admits a .write = false → exec .setbit s =
      .next (recordFault ⟨.busError, 0x02#8, BitVec.ofNat 32 a⟩ { s with pending := none }))

/-- R53: a SETBIT that completes changes the addressed bit to BIT_DATA[0] and no other bit of buffer memory. -/
def Obligations.SetbitChangesOneBit : Prop :=
  ∀ s : State, Memory.wf s.mem = true → footprintAllowed .setbit s = true →
    ∃ m, exec .setbit s = .next { s with mem := m, pending := none } ∧
      ∀ j, Memory.bit m j =
        if j = 8 * s.bitBase.toNat + s.bitIndex.toNat then s.bitData.getLsbD 0 else Memory.bit s.mem j

/-- R89: SETBIT, then GETBIT of the same bit with no write to that byte in between, gives the value set, and every other
buffer bit is as before the SETBIT. -/
def Obligations.SetThenGetReturnsTheBit : Prop :=
  ∀ s t u : State, Memory.wf s.mem = true → commandFault .setbit s = none → exec .setbit s = .next t →
    u.bitBase = s.bitBase → u.bitIndex = s.bitIndex →
    Memory.read u.mem (s.bitBase.toNat + s.bitIndex.toNat / 8) = Memory.read t.mem (s.bitBase.toNat + s.bitIndex.toNat / 8) →
    commandFault .getbit u = none →
    (∃ v, exec .getbit u = .next v ∧ v.bitData = s.bitData ∧ v.mem = u.mem) ∧
    (∀ j, j ≠ 8 * s.bitBase.toNat + s.bitIndex.toNat → Memory.bit t.mem j = Memory.bit s.mem j)

/-! ## MFM transcoder -/

/-- R90: an MFM command with MFM_N = 0 faults RING_ZERO with FAULT_INFO 0, and nothing else happens. -/
def Obligations.MfmWithRingLengthZeroFaults : Prop :=
  ∀ s : State, s.mfmN = 0#32 →
    exec .mfmDecode s = .next (recordFault ⟨.ringZero, 0x10#8, 0#32⟩ { s with pending := none }) ∧
    exec .mfmEncode s = .next (recordFault ⟨.ringZero, 0x11#8, 0#32⟩ { s with pending := none })

/-- R93, R91: with N ≥ 1 and its footprint admitted, MFM.DECODE completes: MFM_CURSOR becomes (C + 2M) mod N when M ≥ 1 and
keeps its value when M = 0, only output bytes change in memory, and nothing else changes. -/
def Obligations.MfmDecodeCompletesAndAdvancesTheCursor : Prop :=
  ∀ s : State, s.mfmN ≠ 0#32 → footprintAllowed .mfmDecode s = true →
    ∃ m, exec .mfmDecode s = .next { s with
        mem := m
        mfmCursor := if s.mfmM = 0#32 then s.mfmCursor
          else BitVec.ofNat 32 ((s.mfmCursor.toNat + 2 * s.mfmM.toNat) % s.mfmN.toNat)
        pending := none } ∧
      ∀ a, (∀ i, i < s.mfmM.toNat → a ≠ s.mfmDst.toNat + i / 8) → Memory.read m a = Memory.read s.mem a

/-- R95, R91: with N ≥ 1 and its footprint admitted, MFM.ENCODE completes: MFM_CURSOR becomes (C + 2M) mod N when M ≥ 1 and
keeps its value when M = 0, only bytes of the written ring positions change, and nothing else changes. -/
def Obligations.MfmEncodeCompletesAndAdvancesTheCursor : Prop :=
  ∀ s : State, s.mfmN ≠ 0#32 → footprintAllowed .mfmEncode s = true →
    ∃ m, exec .mfmEncode s = .next { s with
        mem := m
        mfmCursor := if s.mfmM = 0#32 then s.mfmCursor
          else BitVec.ofNat 32 ((s.mfmCursor.toNat + 2 * s.mfmM.toNat) % s.mfmN.toNat)
        pending := none } ∧
      ∀ a, (∀ k, k < 2 * s.mfmM.toNat → a ≠ s.mfmDst.toNat + (s.mfmCursor.toNat + k) % s.mfmN.toNat / 8) →
        Memory.read m a = Memory.read s.mem a

/-- R92, R93: when the output shares no byte with the ring positions read, output bit i is 1 exactly for a pair with clock 0 and
data 1 at ring positions (C + 2i) mod N and (C + 2i + 1) mod N, and every buffer bit that is no output bit keeps its
value. -/
def Obligations.MfmDecodeEmitsOneBitPerPair : Prop :=
  ∀ s : State, Memory.wf s.mem = true → s.mfmN ≠ 0#32 → footprintAllowed .mfmDecode s = true →
    disjointBytes (readFootprint .mfmDecode s) (writeFootprint .mfmDecode s) = true →
    ∃ t, exec .mfmDecode s = .next t ∧
      (∀ i, i < s.mfmM.toNat → Memory.bit t.mem (8 * s.mfmDst.toNat + i) =
        (!Memory.bit s.mem (8 * s.mfmSrc.toNat + (s.mfmCursor.toNat + 2 * i) % s.mfmN.toNat) &&
          Memory.bit s.mem (8 * s.mfmSrc.toNat + (s.mfmCursor.toNat + 2 * i + 1) % s.mfmN.toNat))) ∧
      (∀ j, (∀ i, i < s.mfmM.toNat → j ≠ 8 * s.mfmDst.toNat + i) → Memory.bit t.mem j = Memory.bit s.mem j)

/-- R94, R95, R96, R99: when the input shares no byte with the ring positions written, the last write to a ring position wins:
the data bit of pair i is input bit i, its clock bit is 1 exactly when input bit i and the bit before it are 0 (before
the first, the ring bit before the cursor), and every ring bit at no written position, and every other buffer bit, keeps
its value. -/
def Obligations.MfmEncodeWritesClockAndDataBits : Prop :=
  ∀ s : State, Memory.wf s.mem = true → s.mfmN ≠ 0#32 → footprintAllowed .mfmEncode s = true →
    disjointBytes (linearBytes s.mfmSrc.toNat s.mfmM.toNat) (writeFootprint .mfmEncode s) = true →
    ∃ t, exec .mfmEncode s = .next t ∧
      (∀ i, i < s.mfmM.toNat → 2 * s.mfmM.toNat ≤ 2 * i + s.mfmN.toNat →
        Memory.bit t.mem (8 * s.mfmDst.toNat + (s.mfmCursor.toNat + 2 * i) % s.mfmN.toNat) =
          (!Memory.bit s.mem (8 * s.mfmSrc.toNat + i) &&
            !(if i = 0 then Memory.bit s.mem (8 * s.mfmDst.toNat +
                (s.mfmCursor.toNat % s.mfmN.toNat + s.mfmN.toNat - 1) % s.mfmN.toNat)
              else Memory.bit s.mem (8 * s.mfmSrc.toNat + (i - 1))))) ∧
      (∀ i, i < s.mfmM.toNat → 2 * s.mfmM.toNat ≤ 2 * i + 1 + s.mfmN.toNat →
        Memory.bit t.mem (8 * s.mfmDst.toNat + (s.mfmCursor.toNat + 2 * i + 1) % s.mfmN.toNat) =
          Memory.bit s.mem (8 * s.mfmSrc.toNat + i)) ∧
      (∀ j, (∀ k, k < 2 * s.mfmM.toNat → j ≠ 8 * s.mfmDst.toNat + (s.mfmCursor.toNat + k) % s.mfmN.toNat) →
        Memory.bit t.mem j = Memory.bit s.mem j)

/-- R60, R93, R138: a completed MFM.DECODE leaves every buffer bit as its turns leave it one after another, each reading the bits
as the turns before it left them. Output and ring may share bytes. -/
def Obligations.MfmDecodeOfOverlappingBuffersFollowsTheAccessOrder : Prop :=
  ∀ s : State, Memory.wf s.mem = true → s.mfmN ≠ 0#32 → footprintAllowed .mfmDecode s = true →
    ∃ t, exec .mfmDecode s = .next t ∧ ∀ j, Memory.bit t.mem j = decodedBits s s.mfmM.toNat j

/-- R60, R95, R99, R138: a completed MFM.ENCODE leaves every buffer bit as its turns leave it one after another, each reading its
input bit as the turns before it left it and writing the clock bit before the data bit. Input and ring may share bytes,
and 2M may be above N. -/
def Obligations.MfmEncodeOfOverlappingBuffersFollowsTheAccessOrder : Prop :=
  ∀ s : State, Memory.wf s.mem = true → s.mfmN ≠ 0#32 → footprintAllowed .mfmEncode s = true →
    ∃ t, exec .mfmEncode s = .next t ∧ ∀ j, Memory.bit t.mem j = (encodedBits s s.mfmM.toNat).1 j

/-- R97: an MFM command that completes leaves MFM_CURSOR = (C + 2M) mod N for M ≥ 1, and C for M = 0. -/
def Obligations.CompletedMfmCommandLeavesTheCursorOfTheLaw : Prop :=
  ∀ (i : Instr) (s t : State), i = .mfmDecode ∨ i = .mfmEncode → commandFault i s = none → exec i s = .next t →
    (1 ≤ s.mfmM.toNat → t.mfmCursor.toNat = (s.mfmCursor.toNat + 2 * s.mfmM.toNat) % s.mfmN.toNat) ∧
    (s.mfmM.toNat = 0 → t.mfmCursor = s.mfmCursor)

/-- R93, R95 (M = 0) and D20: with M = 0 and N ≥ 1, MFM.DECODE makes no access and changes nothing; MFM.ENCODE makes the prev
read, which can fault, and otherwise changes nothing. -/
def Obligations.MfmWithNoBitsOnlyReadsPrev : Prop :=
  ∀ (s : State) (a : Nat), s.mfmM = 0#32 → s.mfmN ≠ 0#32 →
    a = s.mfmDst.toNat + (s.mfmCursor.toNat % s.mfmN.toNat + s.mfmN.toNat - 1) % s.mfmN.toNat / 8 →
    (exec .mfmDecode s = .next { s with pending := none } ∧ commandAccesses .mfmDecode s = []) ∧
    (a < 2 ^ 32 → s.platform.admits a .read = true →
      exec .mfmEncode s = .next { s with pending := none } ∧
      commandAccesses .mfmEncode s = [⟨.read, a, Memory.read s.mem a⟩]) ∧
    (2 ^ 32 ≤ a → exec .mfmEncode s =
      .next (recordFault ⟨.addrOverflow, 0x11#8, BitVec.ofNat 32 a⟩ { s with pending := none })) ∧
    (a < 2 ^ 32 → s.platform.admits a .read = false → exec .mfmEncode s =
      .next (recordFault ⟨.busError, 0x11#8, BitVec.ofNat 32 a⟩ { s with pending := none }))

/-- R98, R97: the round trip. MFM.ENCODE of M bits with 2M ≤ N, then MFM.DECODE of the same span, gives the M bits back,
across the wrap point too, and both leave the cursor of R97. -/
def Obligations.EncodeThenDecodeReturnsTheBits : Prop :=
  ∀ s t u v : State, Memory.wf s.mem = true → 2 * s.mfmM.toNat ≤ s.mfmN.toNat →
    disjointBytes (linearBytes s.mfmSrc.toNat s.mfmM.toNat) (writeFootprint .mfmEncode s) = true →
    commandFault .mfmEncode s = none → exec .mfmEncode s = .next t →
    u.mem = t.mem → u.mfmSrc = s.mfmDst → u.mfmN = s.mfmN → u.mfmM = s.mfmM → u.mfmCursor = s.mfmCursor →
    disjointBytes (readFootprint .mfmDecode u) (writeFootprint .mfmDecode u) = true →
    commandFault .mfmDecode u = none → exec .mfmDecode u = .next v →
    (∀ i, i < s.mfmM.toNat →
      Memory.bit v.mem (8 * u.mfmDst.toNat + i) = Memory.bit s.mem (8 * s.mfmSrc.toNat + i)) ∧
    t.mfmCursor = v.mfmCursor ∧
    (1 ≤ s.mfmM.toNat → t.mfmCursor.toNat = (s.mfmCursor.toNat + 2 * s.mfmM.toNat) % s.mfmN.toNat)

/-- R100: resumable encoding. MFM.ENCODE of S1 (M1 ≥ 1 bits) and then of S2 from the cursor it leaves writes the same buffer
bits, and leaves the same cursor, as one MFM.ENCODE of S1 followed by S2, when 2(M1 + M2) ≤ N, no command faults, and no
input shares a byte with the ring positions written. -/
def Obligations.EncodingResumesSeamlessly : Prop :=
  ∀ s s1 t1 s2 t2 t : State, Memory.wf s.mem = true →
    s1.mem = s.mem → s1.mfmDst = s.mfmDst → s1.mfmN = s.mfmN → s1.mfmCursor = s.mfmCursor →
    s2.mem = t1.mem → s2.mfmDst = s.mfmDst → s2.mfmN = s.mfmN → s2.mfmCursor = t1.mfmCursor →
    1 ≤ s1.mfmM.toNat → s.mfmM.toNat = s1.mfmM.toNat + s2.mfmM.toNat → 2 * s.mfmM.toNat ≤ s.mfmN.toNat →
    (∀ i, i < s1.mfmM.toNat →
      Memory.bit s.mem (8 * s1.mfmSrc.toNat + i) = Memory.bit s.mem (8 * s.mfmSrc.toNat + i)) →
    (∀ i, i < s2.mfmM.toNat →
      Memory.bit s.mem (8 * s2.mfmSrc.toNat + i) = Memory.bit s.mem (8 * s.mfmSrc.toNat + (s1.mfmM.toNat + i))) →
    disjointBytes (linearBytes s.mfmSrc.toNat s.mfmM.toNat) (writeFootprint .mfmEncode s) = true →
    disjointBytes (linearBytes s1.mfmSrc.toNat s1.mfmM.toNat) (writeFootprint .mfmEncode s) = true →
    disjointBytes (linearBytes s2.mfmSrc.toNat s2.mfmM.toNat) (writeFootprint .mfmEncode s) = true →
    commandFault .mfmEncode s = none → commandFault .mfmEncode s1 = none → commandFault .mfmEncode s2 = none →
    exec .mfmEncode s = .next t → exec .mfmEncode s1 = .next t1 → exec .mfmEncode s2 = .next t2 →
    (∀ j, Memory.bit t2.mem j = Memory.bit t.mem j) ∧ t2.mfmCursor = t.mfmCursor

/-! ## CRC-16 engine -/

/-- R105: CRC.BUILD loads (w, p, BuildTable(p, w)) for a width from 1 to TABLE_MAX_WIDTH and changes nothing else; any other
width faults TABLE_WIDTH with FAULT_INFO = w and leaves the table. -/
def Obligations.CrcBuildLoadsTheTableOrFaults : Prop :=
  ∀ s : State,
    (1 ≤ s.crcWidth.toNat → s.crcWidth.toNat ≤ s.platform.tableMaxWidth →
      exec .crcBuild s = .next { s with
        table := ⟨s.crcWidth, s.crcPoly, buildTable s.crcPoly s.crcWidth.toNat⟩, pending := none }) ∧
    (s.crcWidth.toNat = 0 ∨ s.platform.tableMaxWidth < s.crcWidth.toNat →
      exec .crcBuild s = .next (recordFault ⟨.tableWidth, 0x20#8, s.crcWidth.setWidth 32⟩ { s with pending := none }))

/-- R106: CRC.RESET copies CRC_INIT to CRC_ACC and changes nothing else. -/
def Obligations.CrcResetCopiesTheInitialValue : Prop :=
  ∀ s : State, exec .crcReset s = .next { s with crcAcc := s.crcInit, pending := none }

/-- R103, R104, R107, R113: CRC.UPDATE feeds the high nibble, then the low one. The first index at or above 2^TW faults TABLE_INDEX
with FAULT_INFO = the index and leaves CRC_ACC; otherwise CRC_ACC takes the result of both steps. -/
def Obligations.CrcUpdateStepsTwoNibblesOrFaults : Prop :=
  ∀ (s : State) (i1 i2 : Nat) (a1 : Half),
    i1 = (s.crcAcc.toNat / 2 ^ 12) ^^^ (s.crcData.toNat / 16) → a1 = (s.crcAcc <<< 4) ^^^ s.table.entry i1 →
    i2 = (a1.toNat / 2 ^ 12) ^^^ (s.crcData.toNat % 16) →
    exec .crcUpdate s = .next (
      if 2 ^ s.table.tw.toNat ≤ i1 then
        recordFault ⟨.tableIndex, 0x22#8, BitVec.ofNat 32 i1⟩ { s with pending := none }
      else if 2 ^ s.table.tw.toNat ≤ i2 then
        recordFault ⟨.tableIndex, 0x22#8, BitVec.ofNat 32 i2⟩ { s with pending := none }
      else { s with crcAcc := (a1 <<< 4) ^^^ s.table.entry i2, pending := none })

/-- R107: with TW ≥ 4 CRC.UPDATE completes with the byte update of CRC_ACC and CRC_DATA and changes nothing else. -/
def Obligations.CrcUpdateCompletesWithAWideTable : Prop :=
  ∀ s : State, 4 ≤ s.table.tw.toNat →
    exec .crcUpdate s = .next { s with crcAcc := tableByte s.table s.crcAcc s.crcData, pending := none }

/-- R108: with every byte of the buffer admitted and every nibble index one the table holds, CRC.CHECK completes: CRC_ACC becomes
the accumulator that starts at CRC_INIT and takes every byte in increasing address order, and nothing else changes. With
TW ≥ 4 the table holds every nibble index. With CRC_LEN = 0 the accumulator is CRC_INIT. -/
def Obligations.CrcCheckRunsOverEveryByte : Prop :=
  (∀ s : State, footprintAllowed .crcCheck s = true →
    (∀ j, j < s.crcLen.toNat → ByteHeld s.table (tableBytes s.table s.crcInit (bytesAt s.mem s.crcBase.toNat j))
      (Memory.read s.mem (s.crcBase.toNat + j))) →
    exec .crcCheck s = .next { s with
      crcAcc := tableBytes s.table s.crcInit (bytesAt s.mem s.crcBase.toNat s.crcLen.toNat), pending := none }) ∧
  (∀ (t : Table) (a : Half) (b : Byte), 4 ≤ t.tw.toNat → ByteHeld t a b) ∧
  (∀ s : State, s.crcLen = 0#32 → exec .crcCheck s = .next { s with crcAcc := s.crcInit, pending := none })

/-- R108, R113, R117, R119: CRC.CHECK faults at the first byte whose address is at or above 2^32 (ADDR_OVERFLOW), or is not admitted
for read (BUS_ERROR), or whose high nibble, and else whose low nibble, has an index at or above 2^TW (TABLE_INDEX), with the
address or the index as FAULT_INFO; CRC_ACC and memory are unchanged. -/
def Obligations.CrcCheckFaultsAtTheFirstRefusedByte : Prop :=
  ∀ (s : State) (j : Nat) (a : Half) (b : Byte), j < s.crcLen.toNat →
    (∀ k, k < j → readAllowed s.platform (s.crcBase.toNat + k) = true ∧
      ByteHeld s.table (tableBytes s.table s.crcInit (bytesAt s.mem s.crcBase.toNat k))
        (Memory.read s.mem (s.crcBase.toNat + k))) →
    a = tableBytes s.table s.crcInit (bytesAt s.mem s.crcBase.toNat j) → b = Memory.read s.mem (s.crcBase.toNat + j) →
    (2 ^ 32 ≤ s.crcBase.toNat + j → exec .crcCheck s = .next (recordFault
      ⟨.addrOverflow, 0x23#8, BitVec.ofNat 32 (s.crcBase.toNat + j)⟩ { s with pending := none })) ∧
    (s.crcBase.toNat + j < 2 ^ 32 → s.platform.admits (s.crcBase.toNat + j) .read = false →
      exec .crcCheck s = .next (recordFault
        ⟨.busError, 0x23#8, BitVec.ofNat 32 (s.crcBase.toNat + j)⟩ { s with pending := none })) ∧
    (readAllowed s.platform (s.crcBase.toNat + j) = true → ¬ IndexHeld s.table a (b.toNat / 16) →
      exec .crcCheck s = .next (recordFault
        ⟨.tableIndex, 0x23#8, BitVec.ofNat 32 ((a.toNat >>> 12) ^^^ (b.toNat / 16))⟩ { s with pending := none })) ∧
    (readAllowed s.platform (s.crcBase.toNat + j) = true → IndexHeld s.table a (b.toNat / 16) →
      ¬ IndexHeld s.table (tableNibble s.table a (b.toNat / 16)) (b.toNat % 16) →
      exec .crcCheck s = .next (recordFault
        ⟨.tableIndex, 0x23#8, BitVec.ofNat 32 (((tableNibble s.table a (b.toNat / 16)).toNat >>> 12) ^^^ (b.toNat % 16))⟩
        { s with pending := none }))

/-- R111: for 4 ≤ w ≤ 16 and i < 16 entry i of BuildTable(p, w) is entry i of BuildTable(p, 4), so a byte update gives the same
result with either table. -/
def Obligations.TableEntriesBelowSixteenDoNotDependOnTheWidth : Prop :=
  ∀ (p : Half) (w : Nat), 4 ≤ w → w ≤ 16 →
    (∀ i, i < 16 → (buildTable p w).getD i 0#16 = (buildTable p 4).getD i 0#16) ∧
    (∀ (a : Half) (b : Byte), tableByte (loadTable p (BitVec.ofNat 5 w)) a b = tableByte (loadTable p 4#5) a b)

/-- R110: the append law. After CRC.CHECK of a buffer left r, CRC.CHECK of the same bytes followed by r's high byte and r's low
byte, with the same initial value and table (TW ≥ 4), leaves CRC_ACC = 0. -/
def Obligations.AppendedChecksumChecksToZero : Prop :=
  ∀ s t u v : State, TableLoaded s.platform s.table → 4 ≤ s.table.tw.toNat →
    commandFault .crcCheck s = none → exec .crcCheck s = .next t →
    u.table = s.table → u.crcInit = s.crcInit → u.crcLen.toNat = s.crcLen.toNat + 2 →
    bytesAt u.mem u.crcBase.toNat u.crcLen.toNat =
      bytesAt s.mem s.crcBase.toNat s.crcLen.toNat ++ [t.crcAcc.extractLsb' 8 8, t.crcAcc.extractLsb' 0 8] →
    commandFault .crcCheck u = none → exec .crcCheck u = .next v →
    v.crcAcc = 0#16

/-- R110's reason, R102 to R108: on a legal machine with TW ≥ 4, the table-driven CRC.CHECK is the bitwise CRC register with
polynomial TPOLY, started at CRC_INIT and fed every bit of the buffer, most-significant bit of each byte first. -/
def Obligations.CrcCheckIsTheBitwiseRegister : Prop :=
  ∀ s : State, StateInv s → 4 ≤ s.table.tw.toNat → footprintAllowed .crcCheck s = true →
    ∃ t, exec .crcCheck s = .next t ∧
      t.crcAcc = crcBits s.table.tpoly s.crcInit (bitsAt s.mem s.crcBase.toNat (8 * s.crcLen.toNat))

/-- R40, R45, D39: on a legal machine CRC_TABLE[i] reads as entry i of BuildTable(TPOLY, TW) below 2^TW, and 0 from there to the end
of the window; a read has no other effect than the value returned. -/
def Obligations.TablePortReadsTheBuiltTable : Prop :=
  ∀ (s : State) (i : Nat), TableLoaded s.platform s.table → i < 2 ^ s.platform.tableMaxWidth →
    hostStep (.regRead (0x10000 + 4 * i) 32) s = .next { s with
      readData := if i < 2 ^ s.table.tw.toNat
        then ((buildTable s.table.tpoly s.table.tw.toNat).getD i 0#16).setWidth 32 else 0#32 }

/-! ## Faults and the host interface -/

/-- R116: recording a fault sets the whole fault record when there is none, and does nothing when there is one. -/
def Obligations.FirstFaultIsRecordedAndKept : Prop :=
  ∀ (f : FaultRecord) (s : State),
    (s.faultRec = none → recordFault f s = { s with faultRec := some f }) ∧
    (s.faultRec ≠ none → recordFault f s = s)

/-- R44, R122: no step but a reset changes or clears a fault record. -/
def Obligations.FaultRecordStaysUntilReset : Prop :=
  ∀ (s t : State) (f : FaultRecord), s.faultRec = some f → step s = .next t →
    t.faultRec = some f ∨ ∃ drawn rest, nextTurn s = .host (.reset drawn) rest

/-- R84: FAULTED with no command pending is quiescent. A step that is no reset changes no register, fault record, table or pending
command, and buffer memory only by the host's own write of a byte; a register write changes nothing. The script, from which
the action taken is removed, is the model's (log entry 6). -/
def Obligations.FaultedBlockIsQuiescent : Prop :=
  ∀ s t : State, s.faultRec ≠ none → s.pending = none → step s = .next t →
    (∀ drawn rest, nextTurn s ≠ .host (.reset drawn) rest) →
    t = { s with
      script := s.script.tail
      readData := t.readData
      mem := match nextTurn s with
        | .host (.memWrite a v) _ => Memory.write s.mem a.toNat v
        | _ => s.mem } ∧
    (∀ off width v rest, nextTurn s = .host (.regWrite off width v) rest → t.readData = s.readData)

/-- R79: the fault record has no effect on a command. A command performed while FAULTED = 1 does all it would have done, and the
record stays. -/
def Obligations.CommandRunsTheSameUnderARecordedFault : Prop :=
  ∀ (i : Instr) (s : State) (f : FaultRecord), ∃ t, exec i s = .next t ∧
    exec i { s with faultRec := some f } = .next { t with faultRec := some f }

/-- R70, R78: while a command is pending a host action that is no reset changes no register, table or pending command, buffer memory
only by the host's own write of a byte, and no byte of the command's footprint, so the operands are those of the issue. A
turn of WAIT, which sees BUSY = 1, stands in the script again (R76); the script is the model's (log entry 6). -/
def Obligations.OperandsAreStableWhileBusy : Prop :=
  ∀ (s t : State) (i : Instr) (op : HostOp) (rest : List HostEvent), s.pending = some i → nextTurn s = .host op rest →
    (∀ drawn, op ≠ .reset drawn) → step s = .next t →
    t = { s with
      script := match op with
        | .wait polls => ⟨.wait (polls - 1), decide (1 < polls)⟩ :: rest
        | _ => rest
      mem := match op with
        | .memWrite a v => Memory.write s.mem a.toNat v
        | _ => s.mem
      readData := t.readData
      faultRec := t.faultRec } ∧
    (∀ a, inFootprint i s a = true → Memory.read t.mem a = Memory.read s.mem a)

/-- R77: a register read of the wrong width, misaligned or unmapped returns 0 and records REG_ACCESS if nothing is recorded; any
other read returns the register and changes nothing else, also while BUSY and while FAULTED; CMD reads 0. -/
def Obligations.HostReadReturnsTheRegisterOrFaults : Prop :=
  ∀ (s : State) (off width : Nat),
    (width ≠ 32 ∨ ¬ MappedOffset s.platform off → hostStep (.regRead off width) s =
      .next { s with
        readData := 0#32
        faultRec := some (s.faultRec.getD ⟨.regAccess, 0xFF#8, BitVec.ofNat 32 off⟩) }) ∧
    (MappedOffset s.platform off → ∃ row, regRowAt s.platform off = some row ∧ row.off = off ∧
      hostStep (.regRead off 32) s = .next { s with readData := s.readReg row.reg }) ∧
    hostStep (.regRead 0x000 32) s = .next { s with readData := 0#32 }

/-- R78, R118: a register write. Ignored while FAULTED; else REG_ACCESS for a wrong width, a misaligned, unmapped or read-only
offset, also while BUSY; else BUSY_VIOLATION while BUSY; else CMD issues the command; else the register is written. -/
def Obligations.HostWriteFollowsThePriorityOfItsCases : Prop :=
  ∀ (s : State) (off width : Nat) (v : Word),
    hostStep (.regWrite off width v) s = .next (
      if s.faultRec ≠ none then s
      else if width ≠ 32 ∨ ¬ MappedOffset s.platform off ∨ ReadOnlyOffset off then
        { s with faultRec := some ⟨.regAccess, 0xFF#8, BitVec.ofNat 32 off⟩ }
      else if s.pending ≠ none then { s with faultRec := some ⟨.busyViolation, 0xFF#8, BitVec.ofNat 32 off⟩ }
      else if off = 0x000 then issue v s
      else match regMap.find? (fun row => row.off == off) with
        | some row => s.writeReg row.reg v
        | none => s)

/-- R21 to R40, R67, R77: what a 32-bit read at each offset of the register map returns, the table window included, in any state; it
has no other effect. -/
def Obligations.HostReadAtEachOffsetReturnsThatRegister : Prop :=
  ∀ s : State,
    let reads := fun (off : Nat) (v : Word) => hostStep (.regRead off 32) s = .next { s with readData := v }
    reads 0x000 0#32 ∧ reads 0x004 s.statusWord ∧ reads 0x008 s.faultInfo ∧
    reads 0x00C s.bitBase ∧ reads 0x010 s.bitIndex ∧ reads 0x014 (0#31 ++ s.bitData) ∧
    reads 0x018 s.mfmSrc ∧ reads 0x01C s.mfmDst ∧ reads 0x020 s.mfmN ∧ reads 0x024 s.mfmM ∧ reads 0x028 s.mfmCursor ∧
    reads 0x02C (0#16 ++ s.crcAcc) ∧ reads 0x030 (0#16 ++ s.crcPoly) ∧ reads 0x034 (0#16 ++ s.crcInit) ∧
    reads 0x038 (0#27 ++ s.crcWidth) ∧ reads 0x03C (0#24 ++ s.crcData) ∧ reads 0x040 s.crcBase ∧ reads 0x044 s.crcLen ∧
    reads 0x048 (s.table.tpoly ++ (0#11 ++ s.table.tw)) ∧
    (∀ i, i < 2 ^ s.platform.tableMaxWidth →
      reads (0x10000 + 4 * i) (if i < 2 ^ s.table.tw.toNat then 0#16 ++ s.table.entry i else 0#32))

/-- R20, R24 to R38, R67, R78: what a 32-bit write at each read-write offset changes in an idle block that is not faulted: that one
register, to the implemented bits of the value, and nothing else, neither buffer memory nor any other part of the state. -/
def Obligations.HostWriteAtEachOffsetChangesThatRegisterOnly : Prop :=
  ∀ (s : State) (v : Word), s.pending = none → s.faultRec = none →
    let writes := fun (off : Nat) (t : State) => hostStep (.regWrite off 32 v) s = .next t
    writes 0x00C { s with bitBase := v } ∧ writes 0x010 { s with bitIndex := v } ∧
    writes 0x014 { s with bitData := v.extractLsb' 0 1 } ∧ writes 0x018 { s with mfmSrc := v } ∧
    writes 0x01C { s with mfmDst := v } ∧ writes 0x020 { s with mfmN := v } ∧ writes 0x024 { s with mfmM := v } ∧
    writes 0x028 { s with mfmCursor := v } ∧ writes 0x02C { s with crcAcc := v.extractLsb' 0 16 } ∧
    writes 0x030 { s with crcPoly := v.extractLsb' 0 16 } ∧ writes 0x034 { s with crcInit := v.extractLsb' 0 16 } ∧
    writes 0x038 { s with crcWidth := v.extractLsb' 0 5 } ∧ writes 0x03C { s with crcData := v.extractLsb' 0 8 } ∧
    writes 0x040 { s with crcBase := v } ∧ writes 0x044 { s with crcLen := v }

/-- R20, R67: a write to a read-write register stores `value & MASK` and changes no other register, and neither the fault record, the
table, the pending command, buffer memory, the platform, the script nor the latest read value; every register reads 0 at
its unimplemented bits. -/
def Obligations.RegistersKeepOnlyTheirImplementedBits : Prop :=
  ∀ (s : State) (row : RegRow) (v : Word), row ∈ regMap →
    (s.readReg row.reg &&& row.mask = s.readReg row.reg) ∧
    (row.mode = .readWrite → (s.writeReg row.reg v).readReg row.reg = v &&& row.mask ∧
      (∀ r : Reg, r ≠ row.reg → (s.writeReg row.reg v).readReg r = s.readReg r) ∧
      (s.writeReg row.reg v).faultRec = s.faultRec ∧ (s.writeReg row.reg v).table = s.table ∧
      (s.writeReg row.reg v).pending = s.pending ∧ (s.writeReg row.reg v).mem = s.mem ∧
      (s.writeReg row.reg v).platform = s.platform ∧ (s.writeReg row.reg v).script = s.script ∧
      (s.writeReg row.reg v).readData = s.readData)

/-- R22, R23, R115: the fields of STATUS, with the value FAULT_CODE shows for each fault, its reserved bits, FAULT_INFO, and that a
read of STATUS has no side effect. -/
def Obligations.StatusShowsBusyAndTheFaultRecord : Prop :=
  ∀ (s : State) (w : Word), w = s.readReg .status →
    w.getLsbD 0 = s.pending.isSome ∧ w.getLsbD 1 = s.faultRec.isSome ∧
    w.extractLsb' 2 6 = 0#6 ∧ w.extractLsb' 24 8 = 0#8 ∧
    (s.faultRec = none → w.extractLsb' 8 8 = 0#8 ∧ w.extractLsb' 16 8 = 0#8 ∧ s.readReg .faultInfo = 0#32) ∧
    (∀ f, s.faultRec = some f → w.extractLsb' 16 8 = f.op ∧ s.readReg .faultInfo = f.info ∧
      w.extractLsb' 8 8 = match f.code with
        | .illegalCommand => 0x01#8
        | .regAccess => 0x02#8
        | .busyViolation => 0x03#8
        | .ringZero => 0x04#8
        | .addrOverflow => 0x05#8
        | .busError => 0x06#8
        | .tableWidth => 0x07#8
        | .tableIndex => 0x08#8) ∧
    hostStep (.regRead 0x004 32) s = .next { s with readData := w }

/-- R61(c), R85, U1: with no command pending, or outside the footprint of the pending one, the host reads and writes a buffer byte;
inside the footprint the model has no such step and refuses by name. That the host reaches all 2^32 addresses, whatever
MemAdmit says of the block's accesses, is the model's choice (log entry 14), and so is the form of the refusal (log entry
9). -/
def Obligations.HostBufferAccessKeepsOutOfTheFootprint : Prop :=
  ∀ (s : State) (a : Word) (v : Byte),
    ((∀ i, s.pending = some i → inFootprint i s a.toNat = false) →
      hostStep (.memRead a) s = .next { s with readData := (Memory.read s.mem a.toNat).setWidth 32 } ∧
      hostStep (.memWrite a v) s = .next { s with mem := Memory.write s.mem a.toNat v }) ∧
    (∀ i, s.pending = some i → inFootprint i s a.toNat = true →
      hostStep (.memRead a) s = .refused (.footprintBreach a) ∧
      hostStep (.memWrite a v) s = .refused (.footprintBreach a))

/-- R75, R76: the transactions of the assembler lines and pseudo-instructions. CMD writes the word of its command to offset 0x000,
RUN is CMD followed by WAIT, and SETREG is WR. The loop of WAIT is one host action, which WaitReachesThePerformStep
describes; the place of a line before or after a pending perform step is the model's (log entries 6 and 19). -/
def Obligations.AssemblerLinesExpandToTheirTransactions : Prop :=
  ∀ (early : Bool) (r : Reg) (v : Word) (i : Instr) (polls : Nat),
    expandAsm early (.wr r v) = [⟨.regWrite r.offset 32 v, early⟩] ∧
    expandAsm early (.rd r) = [⟨.regRead r.offset 32, early⟩] ∧
    expandAsm early (.cmd i) = [⟨.regWrite 0x000 32 (encode i), early⟩] ∧
    expandAsm early (.wait polls) = [⟨.wait polls, decide (0 < polls)⟩] ∧
    expandAsm early (.run i polls) = expandAsm early (.cmd i) ++ expandAsm early (.wait polls) ∧
    expandAsm early (.setreg r v) = expandAsm early (.wr r v)

/-- R76, R143: WAIT reads STATUS until bit 0 of the value read is 0, and ends. With a command pending, each read placed before the
perform step sees BUSY = 1 and the loop goes on; then the command is performed, and one more read sees BUSY = 0 and ends
the loop. With no command pending the first read sees BUSY = 0 and ends it. The number of reads before the perform step is
any (U4); that the loop stands in a script is the model's choice (log entries 6 and 19). -/
def Obligations.WaitReachesThePerformStep : Prop :=
  ∀ (polls : Nat) (s : State) (rest : List HostEvent), s.script = waitEvents polls ++ rest →
    (∀ i, s.pending = some i →
      (s.readReg .status).getLsbD 0 = true ∧
      (∀ k, 1 ≤ k → k ≤ polls → Host.Core.run Sys2Proof.core k s =
        .next { s with script := waitEvents (polls - k) ++ rest, readData := s.readReg .status }) ∧
      ∃ t, exec i { s with
          script := waitEvents 0 ++ rest
          readData := if polls = 0 then s.readData else s.readReg .status } = .next t ∧
        Host.Core.run Sys2Proof.core (polls + 1) s = .next t ∧
        Host.Core.run Sys2Proof.core (polls + 2) s = .next { t with script := rest, readData := t.readReg .status } ∧
        (t.readReg .status).getLsbD 0 = false) ∧
    (s.pending = none →
      (s.readReg .status).getLsbD 0 = false ∧
      step s = .next { s with script := rest, readData := s.readReg .status })

/-! ## Reset and the invariant -/

/-- R131, R133, R45, R48: what reset leaves in every register and in the table memory: CRC_POLY, CRC_INIT and the table's
polynomial take the launch's literals (U9), and with the default literals the values R131 writes out; buffer memory is
unchanged when no command was pending. That the literals stand in the platform is the model's choice (log entry 4), and so
is that reset leaves the platform, the script and the latest read value as they were (log entry 21). -/
def Obligations.ResetLeavesTheResetValues : Prop :=
  ∀ (s : State) (drawn : Nat),
    ∃ t, hostStep (.reset drawn) s = .next t ∧
      t.readReg .cmd = 0#32 ∧ t.readReg .status = 0#32 ∧ t.readReg .faultInfo = 0#32 ∧
      t.readReg .bitBase = 0#32 ∧ t.readReg .bitIndex = 0#32 ∧ t.readReg .bitData = 0#32 ∧
      t.readReg .mfmSrc = 0#32 ∧ t.readReg .mfmDst = 0#32 ∧ t.readReg .mfmN = 0#32 ∧ t.readReg .mfmM = 0#32 ∧
      t.readReg .mfmCursor = 0#32 ∧ t.readReg .crcAcc = 0#32 ∧
      t.readReg .crcPoly = 0#16 ++ s.platform.polyReset ∧ t.readReg .crcInit = 0#16 ++ s.platform.initReset ∧
      t.readReg .crcWidth = 4#32 ∧ t.readReg .crcData = 0#32 ∧ t.readReg .crcBase = 0#32 ∧ t.readReg .crcLen = 0#32 ∧
      t.readReg .crcTinfo = s.platform.polyReset ++ 4#16 ∧ t.pending = none ∧ t.faultRec = none ∧
      t.table = ⟨4#5, s.platform.polyReset, buildTable s.platform.polyReset 4⟩ ∧
      (s.platform.polyReset = 0x8005#16 →
        t.readReg .crcPoly = 0x00008005#32 ∧ t.readReg .crcTinfo = 0x80050004#32 ∧
        t.table.entries = [0x0000#16, 0x8005#16, 0x800F#16, 0x000A#16, 0x801B#16, 0x001E#16, 0x0014#16, 0x8011#16,
          0x8033#16, 0x0036#16, 0x003C#16, 0x8039#16, 0x0028#16, 0x802D#16, 0x8027#16, 0x0022#16]) ∧
      (s.platform.initReset = 0x0000#16 → t.readReg .crcInit = 0#32) ∧
      t.platform = s.platform ∧ t.script = s.script ∧ t.readData = s.readData ∧
      (s.pending = none → t.mem = s.mem)

/-- R132, U6: reset while a command is pending leaves buffer memory as after some prefix of the command's writes: none of them for a
draw of 0, all of them for a draw that reaches their number, and no byte outside its written footprint changes. -/
def Obligations.ResetDuringACommandLeavesAPrefixOfItsWrites : Prop :=
  ∀ (s : State) (i : Instr) (drawn : Nat), s.pending = some i →
    ∃ t, hostStep (.reset drawn) s = .next t ∧ t.pending = none ∧
      t.mem = Memory.writeAll s.mem ((writesOf (commandAccesses i s)).take drawn) ∧
      (drawn = 0 → t.mem = s.mem) ∧
      (∀ u, (writesOf (commandAccesses i s)).length ≤ drawn → exec i s = .next u → t.mem = u.mem) ∧
      (∀ a, a ∉ writeFootprint i s → Memory.read t.mem a = Memory.read s.mem a)

/-- The reset state meets the invariant. It rests on the model's choice of the platform (log entries 2 and 3) and on R131. -/
def Obligations.ResetMeetsTheInvariant : Prop := StateInv State.reset

/-- From every state that meets the invariant, a step that gives a next state gives one that meets it: the platform stays legal
(R7), buffer memory stays canonical, the table memory is always BuildTable(TPOLY, TW) with 1 ≤ TW ≤ TABLE_MAX_WIDTH (R45,
R105), and the fault record is always one that R115 allows. -/
def Obligations.EveryStepKeepsTheInvariant : Prop :=
  ∀ s t : State, StateInv s → step s = .next t → StateInv t
end

