-- ==== Sys2Proof/Laws/Memory.lean ====
section
/-! SUPPORT. The laws of buffer memory: what a write leaves at each address, and that it keeps the canonical form. -/

namespace Sys2Proof.Machine

@[simp] theorem Memory.read_nil (a : Nat) : Memory.read [] a = unlistedByte := rfl

/-- An address below every listed one reads as unlisted. -/
theorem Memory.read_of_lt {lo : Nat} {m : Memory} (h : Memory.wfFrom lo m = true) {a : Nat} (ha : a < lo) :
    Memory.read m a = unlistedByte := by
  induction m generalizing lo with
  | nil => rfl
  | cons c m ih =>
    obtain ⟨b, x⟩ := c
    simp only [Memory.wfFrom, Bool.and_eq_true, decide_eq_true_eq] at h
    rw [Memory.read, if_neg (by omega)]
    exact ih h.2 (by omega)

/-- A larger canonical bound is a stronger one. -/
theorem Memory.wfFrom_mono {lo lo' : Nat} {m : Memory} (h : Memory.wfFrom lo m = true) (hle : lo' ≤ lo) :
    Memory.wfFrom lo' m = true := by
  cases m with
  | nil => rfl
  | cons c m =>
    obtain ⟨b, x⟩ := c
    simp only [Memory.wfFrom, Bool.and_eq_true, decide_eq_true_eq] at h ⊢
    exact ⟨⟨⟨by omega, h.1.1.2⟩, h.1.2⟩, h.2⟩

/-- A write leaves every other address alone, whatever the memory's form. -/
theorem Memory.read_write_other (m : Memory) {a b : Nat} (v : Byte) (h : b ≠ a) :
    Memory.read (Memory.write m a v) b = Memory.read m b := by
  induction m with
  | nil => unfold Memory.write; split <;> simp [Memory.read, h]
  | cons c m ih =>
    obtain ⟨d, x⟩ := c
    unfold Memory.write
    split
    · split <;> simp [Memory.read, h]
    · split
      · subst d
        split <;> simp [Memory.read, h]
      · simp only [Memory.read, ih]

theorem Memory.read_write_same_from {lo : Nat} {m : Memory} (hm : Memory.wfFrom lo m = true) (a : Nat) (v : Byte) :
    Memory.read (Memory.write m a v) a = v := by
  induction m generalizing lo with
  | nil => unfold Memory.write; split <;> simp_all [Memory.read]
  | cons c m ih =>
    obtain ⟨d, x⟩ := c
    have hm' := hm
    simp only [Memory.wfFrom, Bool.and_eq_true, decide_eq_true_eq] at hm'
    unfold Memory.write
    split
    · split
      · rename_i hlt hv
        rw [Memory.read, if_neg (by omega), hv]
        exact Memory.read_of_lt hm'.2 (by omega)
      · simp [Memory.read]
    · split
      · split
        · rename_i _ heq hv
          rw [hv, heq]
          exact Memory.read_of_lt hm'.2 (by omega)
        · simp [Memory.read]
      · rename_i hne
        rw [Memory.read, if_neg hne]
        exact ih hm'.2

/-- A read after a write to the same address gives the value written (R61). -/
theorem Memory.read_write_same {m : Memory} (hm : Memory.wf m = true) (a : Nat) (v : Byte) :
    Memory.read (Memory.write m a v) a = v :=
  Memory.read_write_same_from hm a v

/-- Everything a read can answer after one write. -/
theorem Memory.read_write {m : Memory} (hm : Memory.wf m = true) (a b : Nat) (v : Byte) :
    Memory.read (Memory.write m a v) b = if b = a then v else Memory.read m b := by
  split
  · subst b; exact Memory.read_write_same hm a v
  · exact Memory.read_write_other m v ‹_›

theorem Memory.write_wfFrom {lo : Nat} {m : Memory} (hm : Memory.wfFrom lo m = true) {a : Nat} (hlo : lo ≤ a)
    (ha : a < addrSpace) (v : Byte) : Memory.wfFrom lo (Memory.write m a v) = true := by
  induction m generalizing lo with
  | nil => unfold Memory.write; split <;> simp_all [Memory.wfFrom]
  | cons c m ih =>
    obtain ⟨d, x⟩ := c
    have hm' := hm
    simp only [Memory.wfFrom, Bool.and_eq_true, decide_eq_true_eq] at hm'
    unfold Memory.write
    split
    · split
      · exact hm
      · rename_i hlt hv
        simp only [Memory.wfFrom, Bool.and_eq_true, decide_eq_true_eq]
        exact ⟨⟨⟨hlo, ha⟩, hv⟩, ⟨⟨by omega, hm'.1.1.2⟩, hm'.1.2⟩, hm'.2⟩
    · split
      · split
        · exact Memory.wfFrom_mono hm'.2 (by omega)
        · rename_i _ heq hv
          simp only [Memory.wfFrom, Bool.and_eq_true, decide_eq_true_eq]
          exact ⟨⟨⟨hlo, ha⟩, hv⟩, heq ▸ hm'.2⟩
      · simp only [Memory.wfFrom, Bool.and_eq_true, decide_eq_true_eq]
        exact ⟨hm'.1, ih hm'.2 (by omega)⟩

/-- A write inside the address space keeps the canonical form. -/
theorem Memory.write_wf {m : Memory} (hm : Memory.wf m = true) {a : Nat} (ha : a < addrSpace) (v : Byte) :
    Memory.wf (Memory.write m a v) = true :=
  Memory.write_wfFrom hm (Nat.zero_le a) ha v

@[simp] theorem Memory.writeAll_nil (m : Memory) : Memory.writeAll m [] = m := rfl

@[simp] theorem Memory.writeAll_cons (m : Memory) (c : Host.Cell) (ws : List Host.Cell) :
    Memory.writeAll m (c :: ws) = Memory.writeAll (Memory.write m c.1 c.2) ws := rfl

@[simp] theorem Memory.writeAll_append (m : Memory) (ws vs : List Host.Cell) :
    Memory.writeAll m (ws ++ vs) = Memory.writeAll (Memory.writeAll m ws) vs := by
  simp [Memory.writeAll]

/-- A run of writes inside the address space keeps the canonical form. -/
theorem Memory.writeAll_wf {ws : List Host.Cell} (hw : ∀ c ∈ ws, c.1 < addrSpace) {m : Memory}
    (hm : Memory.wf m = true) : Memory.wf (Memory.writeAll m ws) = true := by
  induction ws generalizing m with
  | nil => exact hm
  | cons c ws ih =>
    exact ih (fun d hd => hw d (List.mem_cons_of_mem _ hd)) (Memory.write_wf hm (hw c List.mem_cons_self) c.2)

/-- A run of writes leaves alone every address it does not write. -/
theorem Memory.read_writeAll_other {ws : List Host.Cell} {a : Nat} (h : ∀ c ∈ ws, c.1 ≠ a) (m : Memory) :
    Memory.read (Memory.writeAll m ws) a = Memory.read m a := by
  induction ws generalizing m with
  | nil => rfl
  | cons c ws ih =>
    rw [Memory.writeAll_cons, ih (fun d hd => h d (List.mem_cons_of_mem _ hd)),
      Memory.read_write_other m c.2 (Ne.symm (h c List.mem_cons_self))]

/-- Equal bytes give equal buffer bits (R51). -/
theorem Memory.bit_congr {m m' : Memory} {j : Nat} (h : Memory.read m (j / 8) = Memory.read m' (j / 8)) :
    Memory.bit m j = Memory.bit m' j := by
  simp [Memory.bit, h]

end Sys2Proof.Machine
end

