-- ==== Sys2Proof/Laws/State.lean ====
section
/-! SUPPORT. What each named update of State leaves in each field: one lemma per field, so that no later proof unfolds a
record update. -/

namespace Sys2Proof.Machine

section SetMem
variable (s : State) (m : Memory)
@[simp] theorem setMem_faultRec : (s.setMem m).faultRec = s.faultRec := rfl
@[simp] theorem setMem_bitBase : (s.setMem m).bitBase = s.bitBase := rfl
@[simp] theorem setMem_bitIndex : (s.setMem m).bitIndex = s.bitIndex := rfl
@[simp] theorem setMem_bitData : (s.setMem m).bitData = s.bitData := rfl
@[simp] theorem setMem_mfmSrc : (s.setMem m).mfmSrc = s.mfmSrc := rfl
@[simp] theorem setMem_mfmDst : (s.setMem m).mfmDst = s.mfmDst := rfl
@[simp] theorem setMem_mfmN : (s.setMem m).mfmN = s.mfmN := rfl
@[simp] theorem setMem_mfmM : (s.setMem m).mfmM = s.mfmM := rfl
@[simp] theorem setMem_mfmCursor : (s.setMem m).mfmCursor = s.mfmCursor := rfl
@[simp] theorem setMem_crcAcc : (s.setMem m).crcAcc = s.crcAcc := rfl
@[simp] theorem setMem_crcPoly : (s.setMem m).crcPoly = s.crcPoly := rfl
@[simp] theorem setMem_crcInit : (s.setMem m).crcInit = s.crcInit := rfl
@[simp] theorem setMem_crcWidth : (s.setMem m).crcWidth = s.crcWidth := rfl
@[simp] theorem setMem_crcData : (s.setMem m).crcData = s.crcData := rfl
@[simp] theorem setMem_crcBase : (s.setMem m).crcBase = s.crcBase := rfl
@[simp] theorem setMem_crcLen : (s.setMem m).crcLen = s.crcLen := rfl
@[simp] theorem setMem_table : (s.setMem m).table = s.table := rfl
@[simp] theorem setMem_pending : (s.setMem m).pending = s.pending := rfl
@[simp] theorem setMem_mem : (s.setMem m).mem = m := rfl
@[simp] theorem setMem_platform : (s.setMem m).platform = s.platform := rfl
@[simp] theorem setMem_script : (s.setMem m).script = s.script := rfl
@[simp] theorem setMem_readData : (s.setMem m).readData = s.readData := rfl
end SetMem

section ClearPending
variable (s : State)
@[simp] theorem clearPending_faultRec : s.clearPending.faultRec = s.faultRec := rfl
@[simp] theorem clearPending_bitBase : s.clearPending.bitBase = s.bitBase := rfl
@[simp] theorem clearPending_bitIndex : s.clearPending.bitIndex = s.bitIndex := rfl
@[simp] theorem clearPending_bitData : s.clearPending.bitData = s.bitData := rfl
@[simp] theorem clearPending_mfmSrc : s.clearPending.mfmSrc = s.mfmSrc := rfl
@[simp] theorem clearPending_mfmDst : s.clearPending.mfmDst = s.mfmDst := rfl
@[simp] theorem clearPending_mfmN : s.clearPending.mfmN = s.mfmN := rfl
@[simp] theorem clearPending_mfmM : s.clearPending.mfmM = s.mfmM := rfl
@[simp] theorem clearPending_mfmCursor : s.clearPending.mfmCursor = s.mfmCursor := rfl
@[simp] theorem clearPending_crcAcc : s.clearPending.crcAcc = s.crcAcc := rfl
@[simp] theorem clearPending_crcPoly : s.clearPending.crcPoly = s.crcPoly := rfl
@[simp] theorem clearPending_crcInit : s.clearPending.crcInit = s.crcInit := rfl
@[simp] theorem clearPending_crcWidth : s.clearPending.crcWidth = s.crcWidth := rfl
@[simp] theorem clearPending_crcData : s.clearPending.crcData = s.crcData := rfl
@[simp] theorem clearPending_crcBase : s.clearPending.crcBase = s.crcBase := rfl
@[simp] theorem clearPending_crcLen : s.clearPending.crcLen = s.crcLen := rfl
@[simp] theorem clearPending_table : s.clearPending.table = s.table := rfl
@[simp] theorem clearPending_pending : s.clearPending.pending = none := rfl
@[simp] theorem clearPending_mem : s.clearPending.mem = s.mem := rfl
@[simp] theorem clearPending_platform : s.clearPending.platform = s.platform := rfl
@[simp] theorem clearPending_script : s.clearPending.script = s.script := rfl
@[simp] theorem clearPending_readData : s.clearPending.readData = s.readData := rfl
end ClearPending

section RecordFault
variable (f : FaultRecord) (s : State)

/-- Everything recording a fault does: the first is kept, and nothing else changes (R116, R121). -/
theorem recordFault_eq : recordFault f s = { s with faultRec := some (s.faultRec.getD f) } := by
  unfold recordFault
  split <;> rename_i h
  · simp [h]
  · cases s; simp_all

@[simp] theorem recordFault_faultRec : (recordFault f s).faultRec = some (s.faultRec.getD f) := by rw [recordFault_eq]
@[simp] theorem recordFault_bitBase : (recordFault f s).bitBase = s.bitBase := by rw [recordFault_eq]
@[simp] theorem recordFault_bitIndex : (recordFault f s).bitIndex = s.bitIndex := by rw [recordFault_eq]
@[simp] theorem recordFault_bitData : (recordFault f s).bitData = s.bitData := by rw [recordFault_eq]
@[simp] theorem recordFault_mfmSrc : (recordFault f s).mfmSrc = s.mfmSrc := by rw [recordFault_eq]
@[simp] theorem recordFault_mfmDst : (recordFault f s).mfmDst = s.mfmDst := by rw [recordFault_eq]
@[simp] theorem recordFault_mfmN : (recordFault f s).mfmN = s.mfmN := by rw [recordFault_eq]
@[simp] theorem recordFault_mfmM : (recordFault f s).mfmM = s.mfmM := by rw [recordFault_eq]
@[simp] theorem recordFault_mfmCursor : (recordFault f s).mfmCursor = s.mfmCursor := by rw [recordFault_eq]
@[simp] theorem recordFault_crcAcc : (recordFault f s).crcAcc = s.crcAcc := by rw [recordFault_eq]
@[simp] theorem recordFault_crcPoly : (recordFault f s).crcPoly = s.crcPoly := by rw [recordFault_eq]
@[simp] theorem recordFault_crcInit : (recordFault f s).crcInit = s.crcInit := by rw [recordFault_eq]
@[simp] theorem recordFault_crcWidth : (recordFault f s).crcWidth = s.crcWidth := by rw [recordFault_eq]
@[simp] theorem recordFault_crcData : (recordFault f s).crcData = s.crcData := by rw [recordFault_eq]
@[simp] theorem recordFault_crcBase : (recordFault f s).crcBase = s.crcBase := by rw [recordFault_eq]
@[simp] theorem recordFault_crcLen : (recordFault f s).crcLen = s.crcLen := by rw [recordFault_eq]
@[simp] theorem recordFault_table : (recordFault f s).table = s.table := by rw [recordFault_eq]
@[simp] theorem recordFault_pending : (recordFault f s).pending = s.pending := by rw [recordFault_eq]
@[simp] theorem recordFault_mem : (recordFault f s).mem = s.mem := by rw [recordFault_eq]
@[simp] theorem recordFault_platform : (recordFault f s).platform = s.platform := by rw [recordFault_eq]
@[simp] theorem recordFault_script : (recordFault f s).script = s.script := by rw [recordFault_eq]
@[simp] theorem recordFault_readData : (recordFault f s).readData = s.readData := by rw [recordFault_eq]
end RecordFault

section WriteCursor
variable (o : MfmOperands) (c : Nat) (s : State)

/-- Everything writing the cursor back does (R91). -/
theorem writeCursor_eq :
    writeCursor o c s = { s with mfmCursor := if 1 ≤ o.m then BitVec.ofNat 32 c else s.mfmCursor } := by
  unfold writeCursor
  split <;> rfl

@[simp] theorem writeCursor_mfmCursor :
    (writeCursor o c s).mfmCursor = if 1 ≤ o.m then BitVec.ofNat 32 c else s.mfmCursor := by rw [writeCursor_eq]
@[simp] theorem writeCursor_faultRec : (writeCursor o c s).faultRec = s.faultRec := by rw [writeCursor_eq]
@[simp] theorem writeCursor_mem : (writeCursor o c s).mem = s.mem := by rw [writeCursor_eq]
@[simp] theorem writeCursor_table : (writeCursor o c s).table = s.table := by rw [writeCursor_eq]
@[simp] theorem writeCursor_platform : (writeCursor o c s).platform = s.platform := by rw [writeCursor_eq]
@[simp] theorem writeCursor_pending : (writeCursor o c s).pending = s.pending := by rw [writeCursor_eq]
@[simp] theorem writeCursor_script : (writeCursor o c s).script = s.script := by rw [writeCursor_eq]
end WriteCursor

section WriteReg
variable (s : State) (r : Reg) (v : Word)
@[simp] theorem writeReg_faultRec : (s.writeReg r v).faultRec = s.faultRec := by cases r <;> rfl
@[simp] theorem writeReg_table : (s.writeReg r v).table = s.table := by cases r <;> rfl
@[simp] theorem writeReg_pending : (s.writeReg r v).pending = s.pending := by cases r <;> rfl
@[simp] theorem writeReg_mem : (s.writeReg r v).mem = s.mem := by cases r <;> rfl
@[simp] theorem writeReg_platform : (s.writeReg r v).platform = s.platform := by cases r <;> rfl
@[simp] theorem writeReg_script : (s.writeReg r v).script = s.script := by cases r <;> rfl
@[simp] theorem writeReg_readData : (s.writeReg r v).readData = s.readData := by cases r <;> rfl
end WriteReg

section ResetOn
variable (p : Platform) (m : Memory) (script : List HostEvent) (d : Word)
@[simp] theorem resetOn_faultRec : (State.resetOn p m script d).faultRec = none := rfl
@[simp] theorem resetOn_pending : (State.resetOn p m script d).pending = none := rfl
@[simp] theorem resetOn_mem : (State.resetOn p m script d).mem = m := rfl
@[simp] theorem resetOn_platform : (State.resetOn p m script d).platform = p := rfl
@[simp] theorem resetOn_script : (State.resetOn p m script d).script = script := rfl
@[simp] theorem resetOn_readData : (State.resetOn p m script d).readData = d := rfl
@[simp] theorem resetOn_table : (State.resetOn p m script d).table = loadTable p.polyReset 4#5 := rfl
end ResetOn

end Sys2Proof.Machine
end

