-- ==== Sys2Proof/Laws/Ops.lean ====
section
/-! SUPPORT. What each shared operation can do: sequencing of a command's body, checked addresses, MemRead and MemWrite,
GetBit and SetBit, and performing a command. -/

namespace Sys2Proof.Machine

/-! Sequencing -/

@[simp] theorem cmd_pure {α : Type} (x : α) (w : Work) : (pure x : Cmd α) w = .ok x w := rfl

@[simp] theorem cmd_raise {α : Type} (code : FaultCode) (info : Nat) (w : Work) :
    (raiseFault code info : Cmd α) w = .error ⟨code, trunc32 info⟩ w := rfl

/-- One body after another: the second runs only if the first completes (R10, R117). -/
theorem cmd_bind {α β : Type} (x : Cmd α) (f : α → Cmd β) (w : Work) :
    (x >>= f) w = match x w with
      | .ok a w' => f a w'
      | .error e w' => .error e w' := by
  change EStateM.bind x f w = _
  unfold EStateM.bind
  cases x w <;> rfl

theorem cmd_bind_ok {α β : Type} {x : Cmd α} {w w' : Work} {a : α} (h : x w = .ok a w') (f : α → Cmd β) :
    (x >>= f) w = f a w' := by rw [cmd_bind, h]

theorem cmd_bind_error {α β : Type} {x : Cmd α} {w w' : Work} {e : Raise} (h : x w = .error e w') (f : α → Cmd β) :
    (x >>= f) w = .error e w' := by rw [cmd_bind, h]

/-- A sequence completes exactly when both parts do. -/
theorem cmd_bind_eq_ok {α β : Type} {x : Cmd α} {f : α → Cmd β} {w w'' : Work} {b : β} :
    (x >>= f) w = .ok b w'' ↔ ∃ a w', x w = .ok a w' ∧ f a w' = .ok b w'' := by
  rw [cmd_bind]
  cases h : x w <;> simp

/-- A sequence faults in its first part or in its second. -/
theorem cmd_bind_eq_error {α β : Type} {x : Cmd α} {f : α → Cmd β} {w w'' : Work} {e : Raise} :
    (x >>= f) w = .error e w'' ↔ x w = .error e w'' ∨ ∃ a w', x w = .ok a w' ∧ f a w' = .error e w'' := by
  rw [cmd_bind]
  cases h : x w <;> simp

/-! Single accesses -/

/-- Everything an address check can do (R50). -/
theorem checkAddr_cases (a : Nat) (w : Work) :
    (a < addrSpace ∧ checkAddr a w = .ok a w) ∨
    (addrSpace ≤ a ∧ checkAddr a w = .error ⟨.addrOverflow, trunc32 a⟩ w) := by
  unfold checkAddr
  split
  · exact .inr ⟨‹_›, rfl⟩
  · exact .inl ⟨by omega, rfl⟩

/-- Everything a MemRead can do (R54). -/
theorem memRead_cases (p : Platform) (a : Nat) (w : Work) :
    (p.admits a .read = true ∧
      memRead p a w = .ok (Memory.read w.mem a) ⟨w.mem, ⟨.read, a, Memory.read w.mem a⟩ :: w.accesses⟩) ∨
    (p.admits a .read = false ∧ memRead p a w = .error ⟨.busError, trunc32 a⟩ w) := by
  unfold memRead
  split
  · exact .inl ⟨‹_›, rfl⟩
  · exact .inr ⟨Bool.eq_false_iff.2 ‹_›, rfl⟩

/-- Everything a MemWrite can do (R54). -/
theorem memWrite_cases (p : Platform) (a : Nat) (v : Byte) (w : Work) :
    (p.admits a .write = true ∧
      memWrite p a v w = .ok () ⟨Memory.write w.mem a v, ⟨.write, a, v⟩ :: w.accesses⟩) ∨
    (p.admits a .write = false ∧ memWrite p a v w = .error ⟨.busError, trunc32 a⟩ w) := by
  unfold memWrite
  split
  · exact .inl ⟨‹_›, rfl⟩
  · exact .inr ⟨Bool.eq_false_iff.2 ‹_›, rfl⟩

theorem readAllowed_iff (p : Platform) (a : Nat) :
    readAllowed p a = true ↔ a < addrSpace ∧ p.admits a .read = true := by
  simp [readAllowed]

theorem updateAllowed_iff (p : Platform) (a : Nat) :
    updateAllowed p a = true ↔ a < addrSpace ∧ p.admits a .read = true ∧ p.admits a .write = true := by
  simp [updateAllowed, readAllowed, and_assoc]

/-! GetBit and SetBit -/

/-- Buffer bit `i` of the buffer at `base` is bit `8 * base + i` of the memory (R50, R51). -/
theorem bitOfByte_read (m : Memory) (base i : Nat) :
    bitOfByte (Memory.read m (byteAddr base i)) i = Memory.bit m (8 * base + i) := by
  have h1 : (8 * base + i) / 8 = base + i / 8 := by omega
  have h2 : (8 * base + i) % 8 = i % 8 := by omega
  simp [bitOfByte, bitPlace, Memory.bit, byteAddr, h1, h2]

/-- Everything GetBit can do (R52): the bit, with one read made, or the fault of R50 or R54 with no access made. -/
theorem getBit_cases (p : Platform) (base i : Nat) (w : Work) :
    (readAllowed p (byteAddr base i) = true ∧
      getBit p base i w = .ok (Memory.bit w.mem (8 * base + i))
        ⟨w.mem, ⟨.read, byteAddr base i, Memory.read w.mem (byteAddr base i)⟩ :: w.accesses⟩) ∨
    (addrSpace ≤ byteAddr base i ∧
      getBit p base i w = .error ⟨.addrOverflow, trunc32 (byteAddr base i)⟩ w) ∨
    (byteAddr base i < addrSpace ∧ p.admits (byteAddr base i) .read = false ∧
      getBit p base i w = .error ⟨.busError, trunc32 (byteAddr base i)⟩ w) := by
  unfold getBit
  rcases checkAddr_cases (byteAddr base i) w with ⟨ha, hc⟩ | ⟨ha, hc⟩
  · rw [cmd_bind_ok hc]
    rcases memRead_cases p (byteAddr base i) w with ⟨hr, hm⟩ | ⟨hr, hm⟩
    · refine .inl ⟨(readAllowed_iff ..).2 ⟨ha, hr⟩, ?_⟩
      rw [cmd_bind_ok hm, cmd_pure, bitOfByte_read]
    · exact .inr (.inr ⟨ha, hr, cmd_bind_error hm _⟩)
  · exact .inr (.inl ⟨ha, cmd_bind_error hc _⟩)

/-- GetBit completes exactly when its byte may be read, and leaves memory alone. -/
theorem getBit_eq_ok {p : Platform} {base i : Nat} {w w' : Work} {b : Bool} :
    getBit p base i w = .ok b w' ↔
      readAllowed p (byteAddr base i) = true ∧ b = Memory.bit w.mem (8 * base + i) ∧
      w' = ⟨w.mem, ⟨.read, byteAddr base i, Memory.read w.mem (byteAddr base i)⟩ :: w.accesses⟩ := by
  rcases getBit_cases p base i w with ⟨ha, h⟩ | ⟨ha, h⟩ | ⟨ha, hr, h⟩
  · rw [h]
    constructor
    · intro e; cases e; exact ⟨ha, rfl, rfl⟩
    · rintro ⟨-, rfl, rfl⟩; rfl
  · rw [h]
    simp [readAllowed_iff]
    omega
  · rw [h]
    simp [readAllowed_iff, hr]

/-- The byte SetBit writes (R53). -/
def setBitByte (m : Memory) (base i : Nat) (v : Bool) : Byte :=
  setBitOfByte (Memory.read m (byteAddr base i)) i v

/-- Everything SetBit can do (R53): one read and one write of the byte, or a fault with the accesses before it made. -/
theorem setBit_cases (p : Platform) (base i : Nat) (v : Bool) (w : Work) :
    (updateAllowed p (byteAddr base i) = true ∧
      setBit p base i v w = .ok () ⟨Memory.write w.mem (byteAddr base i) (setBitByte w.mem base i v),
        ⟨.write, byteAddr base i, setBitByte w.mem base i v⟩ ::
        ⟨.read, byteAddr base i, Memory.read w.mem (byteAddr base i)⟩ :: w.accesses⟩) ∨
    (addrSpace ≤ byteAddr base i ∧
      setBit p base i v w = .error ⟨.addrOverflow, trunc32 (byteAddr base i)⟩ w) ∨
    (byteAddr base i < addrSpace ∧ p.admits (byteAddr base i) .read = false ∧
      setBit p base i v w = .error ⟨.busError, trunc32 (byteAddr base i)⟩ w) ∨
    (byteAddr base i < addrSpace ∧ p.admits (byteAddr base i) .read = true ∧ p.admits (byteAddr base i) .write = false ∧
      setBit p base i v w = .error ⟨.busError, trunc32 (byteAddr base i)⟩
        ⟨w.mem, ⟨.read, byteAddr base i, Memory.read w.mem (byteAddr base i)⟩ :: w.accesses⟩) := by
  unfold setBit
  rcases checkAddr_cases (byteAddr base i) w with ⟨ha, hc⟩ | ⟨ha, hc⟩
  · rw [cmd_bind_ok hc]
    rcases memRead_cases p (byteAddr base i) w with ⟨hr, hm⟩ | ⟨hr, hm⟩
    · rw [cmd_bind_ok hm]
      rcases memWrite_cases p (byteAddr base i) (setBitByte w.mem base i v)
        ⟨w.mem, ⟨.read, byteAddr base i, Memory.read w.mem (byteAddr base i)⟩ :: w.accesses⟩ with ⟨hw, hs⟩ | ⟨hw, hs⟩
      · exact .inl ⟨(updateAllowed_iff ..).2 ⟨ha, hr, hw⟩, hs⟩
      · exact .inr (.inr (.inr ⟨ha, hr, hw, hs⟩))
    · exact .inr (.inr (.inl ⟨ha, hr, cmd_bind_error hm _⟩))
  · exact .inr (.inl ⟨ha, cmd_bind_error hc _⟩)

/-- SetBit completes exactly when its byte may be read and written. -/
theorem setBit_eq_ok {p : Platform} {base i : Nat} {v : Bool} {w w' : Work} {u : Unit} :
    setBit p base i v w = .ok u w' ↔
      updateAllowed p (byteAddr base i) = true ∧
      w' = ⟨Memory.write w.mem (byteAddr base i) (setBitByte w.mem base i v),
        ⟨.write, byteAddr base i, setBitByte w.mem base i v⟩ ::
        ⟨.read, byteAddr base i, Memory.read w.mem (byteAddr base i)⟩ :: w.accesses⟩ := by
  rcases setBit_cases p base i v w with ⟨ha, h⟩ | ⟨ha, h⟩ | ⟨ha, hr, h⟩ | ⟨ha, hr, hw, h⟩
  · rw [h]
    constructor
    · intro e; cases e; exact ⟨ha, rfl⟩
    · rintro ⟨-, rfl⟩; rfl
  · rw [h]; simp [updateAllowed_iff]; omega
  · rw [h]; simp [updateAllowed_iff, hr]
  · rw [h]; simp [updateAllowed_iff, hr, hw]

/-- SetBit changes the one buffer bit it addresses (R53: "Only the addressed bit changes"). -/
theorem bitOfByte_setBitOfByte (b : Byte) (i j : Nat) (v : Bool) :
    bitOfByte (setBitOfByte b i v) j = if j % 8 = i % 8 then v else bitOfByte b j := by
  have hi : i % 8 < 8 := Nat.mod_lt _ (by omega)
  have hj : j % 8 < 8 := Nat.mod_lt _ (by omega)
  unfold bitOfByte setBitOfByte bitPlace
  generalize i % 8 = x at hi
  generalize j % 8 = y at hj
  revert b v
  interval_cases x <;> interval_cases y <;> decide

/-- The memory after SetBit, bit by bit. -/
theorem bit_after_setBit {m : Memory} (hm : Memory.wf m = true) (base i j : Nat) (v : Bool) :
    Memory.bit (Memory.write m (byteAddr base i) (setBitByte m base i v)) j =
      if j = 8 * base + i then v else Memory.bit m j := by
  by_cases hb : j / 8 = byteAddr base i
  · have hread := Memory.read_write_same hm (byteAddr base i) (setBitByte m base i v)
    have key := bitOfByte_setBitOfByte (Memory.read m (byteAddr base i)) i j v
    unfold bitOfByte bitPlace at key
    have hiff : (j % 8 = i % 8) ↔ j = 8 * base + i := by unfold byteAddr at hb; omega
    rw [Memory.bit, hb, hread, setBitByte, key, Memory.bit, hb]
    simp only [hiff]
  · have hne : j ≠ 8 * base + i := by unfold byteAddr at hb; omega
    rw [if_neg hne]
    exact Memory.bit_congr (Memory.read_write_other m _ hb)

/-! Performing a command -/

/-- Everything performing a command can do: it completes and writes its outputs, or faults and writes none (R82, R117). -/
theorem perform_cases {α : Type} (i : Instr) (body : Cmd α) (out : α → State → State) (s : State) :
    (∃ a w, body ⟨s.mem, []⟩ = .ok a w ∧ perform i body out s = (out a (s.setMem w.mem)).clearPending) ∨
    (∃ r w, body ⟨s.mem, []⟩ = .error r w ∧
      perform i body out s = (recordFault ⟨r.code, i.opcode, r.info⟩ (s.setMem w.mem)).clearPending) := by
  unfold perform
  cases h : body ⟨s.mem, []⟩ with
  | ok a w => exact .inl ⟨a, w, rfl, rfl⟩
  | error r w => exact .inr ⟨r, w, rfl, rfl⟩

theorem perform_ok {α : Type} {i : Instr} {body : Cmd α} {out : α → State → State} {s : State} {a : α} {w : Work}
    (h : body ⟨s.mem, []⟩ = .ok a w) : perform i body out s = (out a (s.setMem w.mem)).clearPending := by
  simp [perform, h]

theorem perform_error {α : Type} {i : Instr} {body : Cmd α} {out : α → State → State} {s : State} {r : Raise} {w : Work}
    (h : body ⟨s.mem, []⟩ = .error r w) :
    perform i body out s = (recordFault ⟨r.code, i.opcode, r.info⟩ (s.setMem w.mem)).clearPending := by
  simp [perform, h]

/-- A performed command leaves PENDING none (R81). -/
theorem perform_pending {α : Type} (i : Instr) (body : Cmd α) (out : α → State → State) (s : State) :
    (perform i body out s).pending = none := by
  rcases perform_cases i body out s with ⟨a, w, -, h⟩ | ⟨r, w, -, h⟩ <;> rw [h] <;> rfl

/-- How a body ends, from its run. -/
theorem runBody_fault_none {α : Type} {body : Cmd α} {m : Memory} :
    (runBody body m).1 = none ↔ ∃ a w, body ⟨m, []⟩ = .ok a w := by
  unfold runBody
  cases body ⟨m, []⟩ <;> simp

theorem runBody_ok {α : Type} {body : Cmd α} {m : Memory} {a : α} {w : Work} (h : body ⟨m, []⟩ = .ok a w) :
    runBody body m = (none, w) := by
  simp [runBody, h]

theorem runBody_error {α : Type} {body : Cmd α} {m : Memory} {r : Raise} {w : Work} (h : body ⟨m, []⟩ = .error r w) :
    runBody body m = (some r, w) := by
  simp [runBody, h]

end Sys2Proof.Machine
end

