-- ==== Sys2Proof/Laws/Accesses.lean ====
section
/-! SUPPORT. A command's body as a sequence of accesses (R60): what accesses it adds, and that memory afterwards is memory
before with its writes made in order. -/

namespace Sys2Proof.Machine

/-- What a body worked on, however it ended. -/
def workOf {α : Type} : EStateM.Result Raise Work α → Work
  | .ok _ w => w
  | .error _ w => w

@[simp] theorem workOf_ok {α : Type} (a : α) (w : Work) : workOf (.ok a w : EStateM.Result Raise Work α) = w := rfl

@[simp] theorem workOf_error {α : Type} (e : Raise) (w : Work) :
    workOf (.error e w : EStateM.Result Raise Work α) = w := rfl

theorem runBody_work {α : Type} (body : Cmd α) (m : Memory) : (runBody body m).2 = workOf (body ⟨m, []⟩) := by
  unfold runBody
  cases body ⟨m, []⟩ <;> rfl

@[simp] theorem writesOf_nil : writesOf [] = [] := rfl

@[simp] theorem writesOf_append (xs ys : List Access) : writesOf (xs ++ ys) = writesOf xs ++ writesOf ys := by
  simp [writesOf]

@[simp] theorem writesOf_read (a : Nat) (b : Byte) : writesOf [⟨.read, a, b⟩] = [] := rfl

@[simp] theorem writesOf_write (a : Nat) (b : Byte) : writesOf [⟨.write, a, b⟩] = [(a, b)] := rfl

theorem mem_writesOf {xs : List Access} {c : Host.Cell} : c ∈ writesOf xs ↔ ⟨.write, c.1, c.2⟩ ∈ xs := by
  simp only [writesOf, List.mem_filterMap]
  constructor
  · rintro ⟨⟨k, a, b⟩, hx, h⟩
    split at h
    · rename_i hk
      simp only [Option.some.injEq] at h
      simp only at hk
      subst hk h
      exact hx
    · cases h
  · intro h
    exact ⟨_, h, by simp⟩

/-- The accesses `l` (the latest first) lead from one working state to another: they are the ones added, and memory is what
their writes make of it. -/
structure Leads (l : List Access) (w w' : Work) : Prop where
  accesses : w'.accesses = l ++ w.accesses
  mem : w'.mem = Memory.writeAll w.mem (writesOf l.reverse)

theorem Leads.refl (w : Work) : Leads [] w w := ⟨rfl, rfl⟩

theorem Leads.trans {l l' : List Access} {w w' w'' : Work} (h : Leads l w w') (h' : Leads l' w' w'') :
    Leads (l' ++ l) w w'' :=
  ⟨by rw [h'.accesses, h.accesses, List.append_assoc], by rw [h'.mem, h.mem]; simp⟩

/-- However the body ends, the accesses it adds satisfy `P` and stay inside the address space. -/
def Within {α : Type} (P : Access → Prop) (body : Cmd α) : Prop :=
  ∀ w, ∃ l, Leads l w (workOf (body w)) ∧ ∀ x ∈ l, P x ∧ x.addr < addrSpace

variable {α β : Type} {P : Access → Prop}

theorem within_pure (x : α) : Within P (pure x : Cmd α) := fun w => ⟨[], Leads.refl w, by simp⟩

theorem within_raise (code : FaultCode) (info : Nat) : Within P (raiseFault code info : Cmd α) :=
  fun w => ⟨[], Leads.refl w, by simp⟩

theorem within_bind {x : Cmd α} {f : α → Cmd β} (hx : Within P x) (hf : ∀ a, Within P (f a)) : Within P (x >>= f) := by
  intro w
  obtain ⟨l, hl, hP⟩ := hx w
  rw [cmd_bind]
  cases h : x w with
  | error e w' =>
    rw [h] at hl
    exact ⟨l, hl, hP⟩
  | ok a w' =>
    rw [h] at hl
    obtain ⟨l', hl', hP'⟩ := hf a w'
    refine ⟨l' ++ l, hl.trans hl', fun y hy => ?_⟩
    rcases List.mem_append.1 hy with h | h
    · exact hP' y h
    · exact hP y h

theorem leads_read (a : Nat) (w : Work) (b : Byte) : Leads [⟨.read, a, b⟩] w ⟨w.mem, ⟨.read, a, b⟩ :: w.accesses⟩ :=
  ⟨rfl, rfl⟩

/-- GetBit adds at most one read, of its byte. -/
theorem within_getBit (p : Platform) (base i : Nat) (h : ∀ b, P ⟨.read, byteAddr base i, b⟩) :
    Within P (getBit p base i) := by
  intro w
  rcases getBit_cases p base i w with ⟨ha, e⟩ | ⟨ha, e⟩ | ⟨ha, hr, e⟩
  · rw [e]
    refine ⟨_, leads_read _ w _, fun x hx => ?_⟩
    simp only [List.mem_singleton] at hx
    subst hx
    exact ⟨h _, ((readAllowed_iff ..).1 ha).1⟩
  · rw [e]; exact ⟨[], Leads.refl w, by simp⟩
  · rw [e]; exact ⟨[], Leads.refl w, by simp⟩

/-- SetBit adds at most a read and a write of its byte. -/
theorem within_setBit (p : Platform) (base i : Nat) (v : Bool) (h : ∀ k b, P ⟨k, byteAddr base i, b⟩) :
    Within P (setBit p base i v) := by
  intro w
  rcases setBit_cases p base i v w with ⟨ha, e⟩ | ⟨ha, e⟩ | ⟨ha, hr, e⟩ | ⟨ha, hr, hw, e⟩
  · rw [e]
    refine ⟨[_, _], ⟨rfl, rfl⟩, fun x hx => ?_⟩
    simp only [List.mem_cons, List.not_mem_nil, or_false] at hx
    rcases hx with rfl | rfl
    · exact ⟨h _ _, ((updateAllowed_iff ..).1 ha).1⟩
    · exact ⟨h _ _, ((updateAllowed_iff ..).1 ha).1⟩
  · rw [e]; exact ⟨[], Leads.refl w, by simp⟩
  · rw [e]; exact ⟨[], Leads.refl w, by simp⟩
  · rw [e]
    refine ⟨_, leads_read _ w _, fun x hx => ?_⟩
    simp only [List.mem_singleton] at hx
    subst hx
    exact ⟨h _ _, ha⟩

/-- A checked address, then a read of it: at most one read. -/
theorem within_checkedRead {f : Byte → Cmd β} (p : Platform) (a : Nat) (h : ∀ b, P ⟨.read, a, b⟩)
    (hf : ∀ b, Within P (f b)) : Within P (checkAddr a >>= fun x => memRead p x >>= f) := by
  intro w
  rcases checkAddr_cases a w with ⟨ha, e⟩ | ⟨ha, e⟩
  · rw [cmd_bind_ok e]
    rcases memRead_cases p a w with ⟨hr, e'⟩ | ⟨hr, e'⟩
    · rw [cmd_bind_ok e']
      obtain ⟨l, hl, hP⟩ := hf (Memory.read w.mem a) ⟨w.mem, ⟨.read, a, Memory.read w.mem a⟩ :: w.accesses⟩
      refine ⟨l ++ [⟨.read, a, Memory.read w.mem a⟩], (leads_read a w _).trans hl, fun x hx => ?_⟩
      rcases List.mem_append.1 hx with hx | hx
      · exact hP x hx
      · simp only [List.mem_singleton] at hx
        subst hx
        exact ⟨h _, ha⟩
    · rw [cmd_bind_error e']; exact ⟨[], Leads.refl w, by simp⟩
  · rw [cmd_bind_error e]; exact ⟨[], Leads.refl w, by simp⟩

/-- A body that reads and writes only where `P` allows keeps the canonical form of memory. -/
theorem Within.wf {body : Cmd α} (h : Within P body) {w : Work} (hm : Memory.wf w.mem = true) :
    Memory.wf (workOf (body w)).mem = true := by
  obtain ⟨l, hl, hP⟩ := h w
  rw [hl.mem]
  refine Memory.writeAll_wf (fun c hc => ?_) hm
  have := mem_writesOf.1 hc
  exact (hP _ (List.mem_reverse.1 this)).2

/-- A body leaves alone every byte it may not write. -/
theorem Within.read {body : Cmd α} (h : Within P body) {a : Nat} (ha : ∀ b, ¬ P ⟨.write, a, b⟩) (w : Work) :
    Memory.read (workOf (body w)).mem a = Memory.read w.mem a := by
  obtain ⟨l, hl, hP⟩ := h w
  rw [hl.mem]
  refine Memory.read_writeAll_other (fun c hc e => ?_) _
  have := (hP _ (List.mem_reverse.1 (mem_writesOf.1 hc))).1
  rw [e] at this
  exact ha _ this

end Sys2Proof.Machine
end

