-- ==== Sys2Proof/Laws/Crc.lean ====
section
/-! SUPPORT. What the CRC engine's shared operations can do (R102 to R108): table entries, the nibble step and the byte
update as pure functions, and when they fault. -/

namespace Sys2Proof.Machine

/-! The table -/

@[simp] theorem buildTable_length (poly : Half) (w : Nat) : (buildTable poly w).length = 2 ^ w := by
  simp [buildTable]

/-- Entry i of BuildTable (R102). -/
theorem buildTable_getD (poly : Half) {w i : Nat} (h : i < 2 ^ w) : (buildTable poly w).getD i 0 = tableEntry poly w i := by
  simp [buildTable, List.getD, h]

/-- Entry i of a loaded table, for i < 2^TW (R45). -/
theorem TableLoaded.entry {p : Platform} {t : Table} (h : TableLoaded p t) {i : Nat} (hi : i < 2 ^ t.tw.toNat) :
    t.entry i = tableEntry t.tpoly t.tw.toNat i := by
  rw [Table.entry, h.entries, buildTable_getD _ hi]

theorem loadTable_loaded {p : Platform} {poly : Half} {w : BitVec 5} (h1 : 1 ≤ w.toNat) (h2 : w.toNat ≤ p.tableMaxWidth) :
    TableLoaded p (loadTable poly w) := ⟨h1, h2, rfl⟩

/-- HI[i] and LO[i] put together are T[i] (R45). -/
@[simp] theorem hi_append_lo (t : Table) (i : Nat) : t.hi i ++ t.lo i = t.entry i := by
  ext j hj
  simp only [Table.hi, Table.lo, BitVec.getElem_append]
  split
  · simp [BitVec.getLsbD_eq_getElem hj]
  · have h : 8 + (j - 8) = j := by omega
    simp [h, BitVec.getLsbD_eq_getElem hj]

/-- Index 0 stays 0 in the shift register, so T[0] = 0 (R102). -/
theorem tableShifts_zero (poly : Half) (k : Nat) : tableShifts poly k 0#16 = 0#16 := by
  induction k with
  | zero => rfl
  | succ k ih =>
    have : tableShift poly 0#16 = 0#16 := by simp [tableShift]
    rw [tableShifts, this, ih]

@[simp] theorem tableEntry_zero (poly : Half) (w : Nat) : tableEntry poly w 0 = 0#16 := by
  simp [tableEntry, tableShifts_zero]

/-- One iteration is linear over XOR (R110: "by the GF(2) linearity of rule R102"). -/
theorem tableShift_xor (poly a b : Half) : tableShift poly (a ^^^ b) = tableShift poly a ^^^ tableShift poly b := by
  unfold tableShift
  simp only [BitVec.getLsbD_xor]
  cases a.getLsbD 15 <;> cases b.getLsbD 15 <;> simp [BitVec.shiftLeft_xor_distrib] <;> ext j <;> simp <;>
    generalize poly[j] = x <;> cases x <;> simp

theorem tableShifts_xor (poly : Half) (k : Nat) (a b : Half) :
    tableShifts poly k (a ^^^ b) = tableShifts poly k a ^^^ tableShifts poly k b := by
  induction k generalizing a b with
  | zero => rfl
  | succ k ih => rw [tableShifts, tableShift_xor, ih]; rfl

/-- Iterations one after another. -/
theorem tableShifts_add (poly : Half) (k l : Nat) (r : Half) :
    tableShifts poly (k + l) r = tableShifts poly l (tableShifts poly k r) := by
  induction k generalizing r with
  | zero => rw [Nat.zero_add]; rfl
  | succ k ih => rw [Nat.add_right_comm]; exact ih _

/-- While the register's set bits stay below the top, an iteration only shifts (R111). -/
theorem tableShift_of_msb_false (poly r : Half) (h : r.getLsbD 15 = false) : tableShift poly r = r <<< 1 := by
  unfold tableShift
  simp only [h, Bool.false_eq_true, if_false]

/-! The nibble step and the byte update -/

/-- The value of a nibble step whose index the table holds (R103): the shifted accumulator XOR T[idx]. -/
def nibbleValue (t : Table) (a : Half) (n : Nibble) : Half := (a <<< 4) ^^^ t.entry (nibbleIndex a n)

theorem nibbleIndex_lt (a : Half) (n : Nibble) : nibbleIndex a n < 16 := (a.extractLsb' 12 4 ^^^ n).isLt

/-- XOR with the two planes is XOR with the entry ("= s ^ T[idx]", R103). -/
theorem planes_xor (t : Table) (s : Half) (i : Nat) :
    (s.extractLsb' 8 8 ^^^ t.hi i) ++ (s.extractLsb' 0 8 ^^^ t.lo i) = s ^^^ t.entry i := by
  ext j hj
  simp only [Table.hi, Table.lo, BitVec.getElem_append]
  split
  · simp [BitVec.getLsbD_eq_getElem hj]
  · have h : 8 + (j - 8) = j := by omega
    simp [h, BitVec.getLsbD_eq_getElem hj]

/-- Everything a nibble step can do (R103, R113). -/
theorem nibbleStep_cases (t : Table) (a : Half) (n : Nibble) (w : Work) :
    (nibbleIndex a n < 2 ^ t.tw.toNat ∧ nibbleStep t a n w = .ok (nibbleValue t a n) w) ∨
    (2 ^ t.tw.toNat ≤ nibbleIndex a n ∧
      nibbleStep t a n w = .error ⟨.tableIndex, trunc32 (nibbleIndex a n)⟩ w) := by
  unfold nibbleStep
  by_cases h : 2 ^ t.tw.toNat ≤ nibbleIndex a n
  · exact .inr ⟨h, by simp [h]⟩
  · exact .inl ⟨by omega, by simp only [if_neg h]; rw [cmd_pure, planes_xor]; rfl⟩

/-- The value of a byte update against a table that holds every nibble index (R104). -/
def byteValue (t : Table) (a : Half) (b : Byte) : Half := nibbleValue t (nibbleValue t a (highNibble b)) (lowNibble b)

/-- The nibble index as a number: `(a >> 12) ^ n` (R103). -/
theorem nibbleIndex_eq (a : Half) (n : Nibble) : nibbleIndex a n = (a.toNat >>> 12) ^^^ n.toNat := by
  simp only [nibbleIndex, BitVec.toNat_xor, BitVec.extractLsb'_toNat, Nat.shiftRight_eq_div_pow]
  rw [Nat.mod_eq_of_lt (by have := a.isLt; omega)]

theorem nibbleValue_eq (t : Table) (a : Half) (n : Nibble) : nibbleValue t a n = tableNibble t a n.toNat := by
  rw [nibbleValue, tableNibble, nibbleIndex_eq]

theorem highNibble_toNat (b : Byte) : (highNibble b).toNat = b.toNat / 16 := by
  simp only [highNibble, BitVec.extractLsb'_toNat, Nat.shiftRight_eq_div_pow]
  have := b.isLt
  omega

theorem lowNibble_toNat (b : Byte) : (lowNibble b).toNat = b.toNat % 16 := by
  simp only [lowNibble, BitVec.extractLsb'_toNat, Nat.shiftRight_eq_div_pow]
  have := b.isLt
  omega

theorem byteValue_eq (t : Table) (a : Half) (b : Byte) : byteValue t a b = tableByte t a b := by
  rw [byteValue, tableByte, nibbleValue_eq, nibbleValue_eq, highNibble_toNat, lowNibble_toNat]

/-- A byte update whose two indices the table holds completes with the value of R104. -/
theorem byteUpdate_held {t : Table} {a : Half} {b : Byte} (h : ByteHeld t a b) (w : Work) :
    byteUpdate t a b w = .ok (tableByte t a b) w := by
  obtain ⟨h1, h2⟩ := h
  unfold IndexHeld at h1 h2
  rw [← highNibble_toNat, ← nibbleIndex_eq] at h1
  rw [← highNibble_toNat, ← lowNibble_toNat, ← nibbleValue_eq, ← nibbleIndex_eq] at h2
  rw [← byteValue_eq]
  unfold byteUpdate byteValue
  rcases nibbleStep_cases t a (highNibble b) w with ⟨-, e⟩ | ⟨h, -⟩
  · rw [cmd_bind_ok e]
    rcases nibbleStep_cases t (nibbleValue t a (highNibble b)) (lowNibble b) w with ⟨-, e⟩ | ⟨h, -⟩
    · exact e
    · omega
  · omega

theorem sixteen_le_two_pow {k : Nat} (h : 4 ≤ k) : 16 ≤ 2 ^ k := Nat.pow_le_pow_right (n := 2) (by omega) h

/-- With TW ≥ 4 a byte update completes (R107: TABLE_INDEX "only when TW < 4"). -/
theorem byteUpdate_wide {t : Table} (h : 4 ≤ t.tw.toNat) (a : Half) (b : Byte) (w : Work) :
    byteUpdate t a b w = .ok (byteValue t a b) w := by
  have h16 := sixteen_le_two_pow h
  have step : ∀ (x : Half) (n : Nibble), nibbleStep t x n w = .ok (nibbleValue t x n) w := fun x n => by
    rcases nibbleStep_cases t x n w with ⟨-, e⟩ | ⟨hge, -⟩
    · exact e
    · have := nibbleIndex_lt x n; omega
  unfold byteUpdate
  rw [cmd_bind_ok (step a _), step]
  rfl

/-- A nibble step makes no access. -/
theorem within_nibbleStep {P : Access → Prop} (t : Table) (a : Half) (n : Nibble) : Within P (nibbleStep t a n) := by
  unfold nibbleStep
  simp only
  split
  · exact within_raise _ _
  · exact within_pure _

theorem within_byteUpdate {P : Access → Prop} (t : Table) (a : Half) (b : Byte) : Within P (byteUpdate t a b) :=
  within_bind (within_nibbleStep t a _) fun _ => within_nibbleStep t _ _

/-! CRC.CHECK -/

/-- The accumulator after the bytes at `addr`, `addr + 1`, … (R108). -/
def checkValue (t : Table) (m : Memory) : (todo addr : Nat) → Half → Half
  | 0, _, a => a
  | todo + 1, addr, a => checkValue t m todo (addr + 1) (byteValue t a (Memory.read m addr))

/-- With TW ≥ 4 and every byte allowed, the check loop completes and leaves memory alone (R108). -/
theorem checkLoop_wide {p : Platform} {t : Table} (h : 4 ≤ t.tw.toNat) {todo addr : Nat}
    (hr : ∀ k, k < todo → readAllowed p (addr + k) = true) (a : Half) (w : Work) :
    ∃ w', checkLoop p t todo addr a w = .ok (checkValue t w.mem todo addr a) w' ∧ w'.mem = w.mem := by
  induction todo generalizing addr a w with
  | zero => exact ⟨w, rfl, rfl⟩
  | succ todo ih =>
    have h0 := (readAllowed_iff ..).1 (hr 0 (by omega))
    rw [Nat.add_zero] at h0
    rw [checkLoop]
    rcases checkAddr_cases addr w with ⟨-, e⟩ | ⟨hge, -⟩
    · rw [cmd_bind_ok e]
      rcases memRead_cases p addr w with ⟨-, e'⟩ | ⟨hf, -⟩
      · rw [cmd_bind_ok e', cmd_bind_ok (byteUpdate_wide h _ _ _)]
        obtain ⟨w', hw, hm⟩ := ih (addr := addr + 1)
          (fun k hk => by have := hr (k + 1) (by omega); rwa [show addr + 1 + k = addr + (k + 1) by omega])
          (byteValue t a (Memory.read w.mem addr)) ⟨w.mem, ⟨.read, addr, Memory.read w.mem addr⟩ :: w.accesses⟩
        exact ⟨w', hw, hm⟩
      · rw [h0.2] at hf; cases hf
    · omega

/-- The check loop only reads, the bytes of its buffer (R59). -/
theorem checkLoop_within {P : Access → Prop} (p : Platform) (t : Table) {todo addr : Nat}
    (h : ∀ k, k < todo → ∀ b, P ⟨.read, addr + k, b⟩) (a : Half) : Within P (checkLoop p t todo addr a) := by
  induction todo generalizing addr a with
  | zero => exact within_pure a
  | succ todo ih =>
    rw [checkLoop]
    refine within_checkedRead p addr (h 0 (by omega)) fun b => within_bind (within_byteUpdate t a b) fun a' => ?_
    exact ih (fun k hk => by rw [show addr + 1 + k = addr + (k + 1) by omega]; exact h (k + 1) (by omega)) a'

/-! CRC.BUILD -/

/-- Everything the body of CRC.BUILD can do (R105). -/
theorem buildBody_cases (p : Platform) (poly : Half) (width : BitVec 5) (w : Work) :
    ((1 ≤ width.toNat ∧ width.toNat ≤ p.tableMaxWidth) ∧ buildBody p poly width w = .ok (loadTable poly width) w) ∨
    ((width.toNat < 1 ∨ p.tableMaxWidth < width.toNat) ∧
      buildBody p poly width w = .error ⟨.tableWidth, trunc32 width.toNat⟩ w) := by
  unfold buildBody
  split
  · exact .inr ⟨‹_›, rfl⟩
  · exact .inl ⟨by omega, rfl⟩

theorem within_buildBody {P : Access → Prop} (p : Platform) (poly : Half) (width : BitVec 5) :
    Within P (buildBody p poly width) := by
  unfold buildBody
  split
  · exact within_raise _ _
  · exact within_pure _

end Sys2Proof.Machine
end

