-- ==== Sys2Proof/Laws/Mfm.lean ====
section
/-! SUPPORT. What the loops of MFM.DECODE and MFM.ENCODE can do (R90 to R96): their final cursor, when they complete, which
bytes they access and which bits they leave. -/

namespace Sys2Proof.Machine

theorem advance_lt {n c : Nat} (hn : 0 < n) : advance n c < n := Nat.mod_lt _ hn

/-- `k` advances from the cursor `c` stand at ring position `(c + k) mod N` (R91). -/
theorem advance_mod (n c k : Nat) : (advance n c + k) % n = (c + (k + 1)) % n := by
  unfold advance
  rw [Nat.mod_add_mod]
  congr 1
  omega

theorem advance_advance_mod (n c k : Nat) : (advance n (advance n c) + k) % n = (c + (k + 2)) % n := by
  rw [advance_mod, advance_mod]

/-- PairDecode inverts PairEncode, whatever prev was (R92, R94). -/
@[simp] theorem pairDecode_pairEncode (b prev : Bool) :
    pairDecode (pairEncode b prev).1 (pairEncode b prev).2.1 = b := by
  cases b <;> cases prev <;> rfl

/-- The data bit written is the input bit (R94). -/
@[simp] theorem pairEncode_data (b prev : Bool) : (pairEncode b prev).2.1 = b := by cases b <;> cases prev <;> rfl

/-- "In every row, prev' equals the data bit written" (R94). -/
@[simp] theorem pairEncode_prev (b prev : Bool) : (pairEncode b prev).2.2 = b := by cases b <;> cases prev <;> rfl

/-- The clock bit is 1 only between two data 0s (R94). -/
@[simp] theorem pairEncode_clock (b prev : Bool) : (pairEncode b prev).1 = (!b && !prev) := by
  cases b <;> cases prev <;> rfl

/-- Everything the preamble can do (R90). -/
theorem mfmPreamble_cases (o : MfmOperands) (w : Work) :
    (o.n = 0 ∧ mfmPreamble o w = .error ⟨.ringZero, 0#32⟩ w) ∨
    (0 < o.n ∧ mfmPreamble o w = .ok o.start w) := by
  unfold mfmPreamble
  split
  · exact .inl ⟨‹_›, rfl⟩
  · exact .inr ⟨by omega, rfl⟩

theorem start_lt {o : MfmOperands} (h : 0 < o.n) : o.start < o.n := Nat.mod_lt _ h

/-- A ring position reached from the working cursor, counted from the register's value (R55). -/
theorem start_add_mod (o : MfmOperands) (k : Nat) : (o.start + k) % o.n = (o.cursor + k) % o.n := by
  unfold MfmOperands.start
  rw [Nat.mod_add_mod]

/-! MFM.DECODE -/

/-- One turn of the decode loop completes exactly when its three bit accesses do. -/
theorem decodeLoop_succ_ok {p : Platform} {o : MfmOperands} {todo i c c' : Nat} {w w' : Work} :
    decodeLoop p o (todo + 1) i c w = .ok c' w' ↔
      ∃ clk w1 dat w2 w3, getBit p o.src c w = .ok clk w1 ∧ getBit p o.src (advance o.n c) w1 = .ok dat w2 ∧
        setBit p o.dst i (pairDecode clk dat) w2 = .ok () w3 ∧
        decodeLoop p o todo (i + 1) (advance o.n (advance o.n c)) w3 = .ok c' w' := by
  rw [decodeLoop]
  simp only [cmd_bind_eq_ok]
  constructor
  · rintro ⟨clk, w1, h1, dat, w2, h2, u, w3, h3, h4⟩
    exact ⟨clk, w1, dat, w2, w3, h1, h2, h3, h4⟩
  · rintro ⟨clk, w1, dat, w2, w3, h1, h2, h3, h4⟩
    exact ⟨clk, w1, h1, dat, w2, h2, (), w3, h3, h4⟩

/-- The final cursor of a completed decode loop (R97). -/
theorem decodeLoop_cursor {p : Platform} {o : MfmOperands} {todo i c c' : Nat} {w w' : Work} (hc : c < o.n)
    (h : decodeLoop p o todo i c w = .ok c' w') : c' = (c + 2 * todo) % o.n := by
  induction todo generalizing i c w with
  | zero =>
    cases h
    rw [Nat.mul_zero, Nat.add_zero, Nat.mod_eq_of_lt hc]
  | succ todo ih =>
    obtain ⟨clk, w1, dat, w2, w3, -, -, -, h4⟩ := decodeLoop_succ_ok.1 h
    rw [ih (advance_lt (by omega)) h4, advance_advance_mod]
    congr 2

/-- The decode loop completes when every ring position it reads and every output bit it writes are allowed. -/
theorem decodeLoop_completes {p : Platform} {o : MfmOperands} {todo i c : Nat} (hn : 0 < o.n) (hc : c < o.n)
    (hr : ∀ k, k < 2 * todo → readAllowed p (byteAddr o.src ((c + k) % o.n)) = true)
    (hw : ∀ k, k < todo → updateAllowed p (byteAddr o.dst (i + k)) = true) (w : Work) :
    ∃ c' w', decodeLoop p o todo i c w = .ok c' w' := by
  induction todo generalizing i c w with
  | zero => exact ⟨c, w, rfl⟩
  | succ todo ih =>
    have h0 := hr 0 (by omega)
    have h1 := hr 1 (by omega)
    rw [Nat.add_zero, Nat.mod_eq_of_lt hc] at h0
    obtain ⟨c', w', h⟩ := ih (i := i + 1) (advance_lt hn)
      (fun k hk => by rw [advance_advance_mod]; exact hr (k + 2) (by omega))
      (fun k hk => by have := hw (k + 1) (by omega); rwa [show i + 1 + k = i + (k + 1) by omega])
      _
    exact ⟨c', w', decodeLoop_succ_ok.2
      ⟨_, _, _, _, _, getBit_eq_ok.2 ⟨h0, rfl, rfl⟩, getBit_eq_ok.2 ⟨h1, rfl, rfl⟩,
        setBit_eq_ok.2 ⟨hw 0 (by omega), rfl⟩, h⟩⟩

/-- Which accesses the decode loop makes: reads of ring bytes, reads and writes of output bytes (R59). -/
theorem decodeLoop_within {P : Access → Prop} (p : Platform) (o : MfmOperands) {todo i c : Nat} (hn : 0 < o.n) (hc : c < o.n)
    (hr : ∀ k, k < 2 * todo → ∀ b, P ⟨.read, byteAddr o.src ((c + k) % o.n), b⟩)
    (hw : ∀ k, k < todo → ∀ x b, P ⟨x, byteAddr o.dst (i + k), b⟩) : Within P (decodeLoop p o todo i c) := by
  induction todo generalizing i c with
  | zero => exact within_pure c
  | succ todo ih =>
    have h0 := hr 0 (by omega)
    rw [Nat.add_zero, Nat.mod_eq_of_lt hc] at h0
    refine within_bind (within_getBit p _ _ h0) fun clk =>
      within_bind (within_getBit p _ _ (hr 1 (by omega))) fun dat =>
      within_bind (within_setBit p _ _ _ (hw 0 (by omega))) fun _ => ?_
    refine ih (advance_lt hn) (fun k hk => ?_) (fun k hk => ?_)
    · rw [advance_advance_mod]; exact hr (k + 2) (by omega)
    · rw [show i + 1 + k = i + (k + 1) by omega]; exact hw (k + 1) (by omega)

/-- Memory after one SetBit still has the bits of every byte outside the one addressed. -/
theorem bit_setBit_other_byte (m : Memory) (base i j : Nat) (v : Bool) (h : j / 8 ≠ byteAddr base i) :
    Memory.bit (Memory.write m (byteAddr base i) (setBitByte m base i v)) j = Memory.bit m j :=
  Memory.bit_congr (Memory.read_write_other m _ h)

/-- The byte of a buffer bit (R50). -/
theorem byte_of_bit (base i : Nat) : (8 * base + i) / 8 = byteAddr base i := by unfold byteAddr; omega

theorem setBit_keeps_wf {m : Memory} (hm : Memory.wf m = true) {p : Platform} {base i : Nat}
    (h : updateAllowed p (byteAddr base i) = true) (v : Bool) :
    Memory.wf (Memory.write m (byteAddr base i) (setBitByte m base i v)) = true :=
  Memory.write_wf hm ((updateAllowed_iff ..).1 h).1 _

/-- Every buffer bit after a completed decode loop whose output shares no byte with the ring positions it reads (R93): an
output bit is PairDecode of its pair, and every other bit is as before. -/
theorem decodeLoop_bits {p : Platform} {o : MfmOperands} {todo i c c' : Nat} {w w' : Work} (hn : 0 < o.n) (hc : c < o.n)
    (hm : Memory.wf w.mem = true)
    (hd : ∀ k, k < 2 * todo → ∀ l, l < todo → byteAddr o.src ((c + k) % o.n) ≠ byteAddr o.dst (i + l))
    (h : decodeLoop p o todo i c w = .ok c' w') :
    Memory.wf w'.mem = true ∧
    (∀ l, l < todo → Memory.bit w'.mem (8 * o.dst + (i + l)) =
      pairDecode (Memory.bit w.mem (8 * o.src + (c + 2 * l) % o.n)) (Memory.bit w.mem (8 * o.src + (c + (2 * l + 1)) % o.n))) ∧
    (∀ j, (∀ l, l < todo → j ≠ 8 * o.dst + (i + l)) → Memory.bit w'.mem j = Memory.bit w.mem j) := by
  induction todo generalizing i c w with
  | zero =>
    cases h
    exact ⟨hm, fun l hl => by omega, fun _ _ => rfl⟩
  | succ todo ih =>
    obtain ⟨clk, w1, dat, w2, w3, h1, h2, h3, h4⟩ := decodeLoop_succ_ok.1 h
    obtain ⟨-, rfl, rfl⟩ := getBit_eq_ok.1 h1
    obtain ⟨-, rfl, rfl⟩ := getBit_eq_ok.1 h2
    obtain ⟨ha, rfl⟩ := setBit_eq_ok.1 h3
    obtain ⟨hwf, hout, hrest⟩ := ih (advance_lt hn) (setBit_keeps_wf hm ha _)
      (fun k hk l hl => by
        rw [advance_advance_mod, show i + 1 + l = i + (l + 1) by omega]
        exact hd (k + 2) (by omega) (l + 1) (by omega)) h4
    have hring : ∀ k, k < 2 * (todo + 1) →
        Memory.bit (Memory.write w.mem (byteAddr o.dst i) (setBitByte w.mem o.dst i
          (pairDecode (Memory.bit w.mem (8 * o.src + c)) (Memory.bit w.mem (8 * o.src + advance o.n c)))))
          (8 * o.src + (c + k) % o.n) = Memory.bit w.mem (8 * o.src + (c + k) % o.n) := fun k hk => by
      apply bit_setBit_other_byte
      rw [byte_of_bit]
      exact hd k hk 0 (by omega)
    refine ⟨hwf, fun l hl => ?_, fun j hj => ?_⟩
    · cases l with
      | zero =>
        rw [hrest _ (fun l hl => by omega), bit_after_setBit hm, if_pos (by omega)]
        rw [Nat.mul_zero, Nat.add_zero, Nat.mod_eq_of_lt hc]
        rfl
      | succ l =>
        have := hout l (by omega)
        rw [show i + 1 + l = i + (l + 1) by omega, advance_advance_mod, advance_advance_mod] at this
        rw [this, show 2 * l + 2 = 2 * (l + 1) by omega, show 2 * l + 1 + 2 = 2 * (l + 1) + 1 by omega]
        exact congrArg₂ pairDecode (hring _ (by omega)) (hring _ (by omega))
    · rw [hrest j (fun l hl => by have := hj (l + 1) (by omega); omega), bit_after_setBit hm,
        if_neg (by have := hj 0 (by omega); omega)]

/-- Every buffer bit after a completed decode loop, whatever bytes output and ring share (R60, R138): the turns of decodedBits,
one after another. -/
theorem decodeLoop_turns {p : Platform} {s : State} {todo i c c' : Nat} {w w' : Work}
    (hc : c = (s.mfm.cursor + 2 * i) % s.mfm.n) (hm : Memory.wf w.mem = true)
    (hb : ∀ j, Memory.bit w.mem j = decodedBits s i j) (h : decodeLoop p s.mfm todo i c w = .ok c' w') :
    ∀ j, Memory.bit w'.mem j = decodedBits s (i + todo) j := by
  induction todo generalizing i c w with
  | zero =>
    cases h
    exact hb
  | succ todo ih =>
    obtain ⟨clk, w1, dat, w2, w3, h1, h2, h3, h4⟩ := decodeLoop_succ_ok.1 h
    obtain ⟨-, rfl, rfl⟩ := getBit_eq_ok.1 h1
    obtain ⟨-, rfl, rfl⟩ := getBit_eq_ok.1 h2
    obtain ⟨ha, rfl⟩ := setBit_eq_ok.1 h3
    have hadv : advance s.mfm.n c = (s.mfm.cursor + 2 * i + 1) % s.mfm.n := by subst hc; simp [advance]
    rw [show i + (todo + 1) = i + 1 + todo by omega]
    refine ih ?_ (setBit_keeps_wf hm ha _) (fun j => ?_) h4
    · rw [hadv, advance, Nat.mod_add_mod]
      rfl
    · rw [bit_after_setBit hm, hb, hb, hb, hadv, hc]
      rfl

/-! MFM.ENCODE -/

/-- One turn of the encode loop completes exactly when its three bit accesses do. -/
theorem encodeLoop_succ_ok {p : Platform} {o : MfmOperands} {todo i c c' : Nat} {prev : Bool} {w w' : Work} :
    encodeLoop p o (todo + 1) i c prev w = .ok c' w' ↔
      ∃ b w1 w2 w3, getBit p o.src i w = .ok b w1 ∧ setBit p o.dst c (!b && !prev) w1 = .ok () w2 ∧
        setBit p o.dst (advance o.n c) b w2 = .ok () w3 ∧
        encodeLoop p o todo (i + 1) (advance o.n (advance o.n c)) b w3 = .ok c' w' := by
  rw [encodeLoop]
  simp only [cmd_bind_eq_ok, pairEncode_clock, pairEncode_data, pairEncode_prev]
  constructor
  · rintro ⟨b, w1, h1, u, w2, h2, v, w3, h3, h4⟩
    exact ⟨b, w1, w2, w3, h1, h2, h3, h4⟩
  · rintro ⟨b, w1, w2, w3, h1, h2, h3, h4⟩
    exact ⟨b, w1, h1, (), w2, h2, (), w3, h3, h4⟩

/-- The final cursor of a completed encode loop (R97). -/
theorem encodeLoop_cursor {p : Platform} {o : MfmOperands} {todo i c c' : Nat} {prev : Bool} {w w' : Work} (hc : c < o.n)
    (h : encodeLoop p o todo i c prev w = .ok c' w') : c' = (c + 2 * todo) % o.n := by
  induction todo generalizing i c prev w with
  | zero =>
    cases h
    rw [Nat.mul_zero, Nat.add_zero, Nat.mod_eq_of_lt hc]
  | succ todo ih =>
    obtain ⟨b, w1, w2, w3, -, -, -, h4⟩ := encodeLoop_succ_ok.1 h
    rw [ih (advance_lt (by omega)) h4, advance_advance_mod]
    congr 2

/-- The encode loop completes when every input bit it reads and every ring position it writes are allowed. -/
theorem encodeLoop_completes {p : Platform} {o : MfmOperands} {todo i c : Nat} (hn : 0 < o.n) (hc : c < o.n)
    (hr : ∀ k, k < todo → readAllowed p (byteAddr o.src (i + k)) = true)
    (hw : ∀ k, k < 2 * todo → updateAllowed p (byteAddr o.dst ((c + k) % o.n)) = true) (prev : Bool) (w : Work) :
    ∃ c' w', encodeLoop p o todo i c prev w = .ok c' w' := by
  induction todo generalizing i c prev w with
  | zero => exact ⟨c, w, rfl⟩
  | succ todo ih =>
    have h0 := hw 0 (by omega)
    have h1 := hw 1 (by omega)
    rw [Nat.add_zero, Nat.mod_eq_of_lt hc] at h0
    obtain ⟨c', w', h⟩ := ih (i := i + 1) (advance_lt hn)
      (fun k hk => by have := hr (k + 1) (by omega); rwa [show i + 1 + k = i + (k + 1) by omega])
      (fun k hk => by rw [advance_advance_mod]; exact hw (k + 2) (by omega))
      _ _
    exact ⟨c', w', encodeLoop_succ_ok.2
      ⟨_, _, _, _, getBit_eq_ok.2 ⟨hr 0 (by omega), rfl, rfl⟩, setBit_eq_ok.2 ⟨h0, rfl⟩,
        setBit_eq_ok.2 ⟨h1, rfl⟩, h⟩⟩

/-- Which accesses the encode loop makes: reads of input bytes, reads and writes of ring bytes (R59). -/
theorem encodeLoop_within {P : Access → Prop} (p : Platform) (o : MfmOperands) {todo i c : Nat} (hn : 0 < o.n) (hc : c < o.n)
    (hr : ∀ k, k < todo → ∀ b, P ⟨.read, byteAddr o.src (i + k), b⟩)
    (hw : ∀ k, k < 2 * todo → ∀ x b, P ⟨x, byteAddr o.dst ((c + k) % o.n), b⟩) (prev : Bool) :
    Within P (encodeLoop p o todo i c prev) := by
  induction todo generalizing i c prev with
  | zero => exact within_pure c
  | succ todo ih =>
    have h0 := hw 0 (by omega)
    rw [Nat.add_zero, Nat.mod_eq_of_lt hc] at h0
    refine within_bind (within_getBit p _ _ (hr 0 (by omega))) fun b =>
      within_bind (within_setBit p _ _ _ h0) fun _ =>
      within_bind (within_setBit p _ _ _ (hw 1 (by omega))) fun _ => ?_
    refine ih (advance_lt hn) (fun k hk => ?_) (fun k hk => ?_) _
    · rw [show i + 1 + k = i + (k + 1) by omega]; exact hr (k + 1) (by omega)
    · rw [advance_advance_mod]; exact hw (k + 2) (by omega)

/-- The prev bit in front of input bit `l` of an encode that starts from `prev` (R94). -/
def prevOf (m : Memory) (base i : Nat) (prev : Bool) : Nat → Bool
  | 0 => prev
  | l + 1 => Memory.bit m (8 * base + (i + l))

/-- Two ring positions less than N apart are different. -/
theorem ring_positions_ne {n c k l : Nat} (hkl : k < l) (hln : l < k + n) : (c + k) % n ≠ (c + l) % n := by
  intro h
  have : (c + l - (c + k)) % n = 0 := Nat.sub_mod_eq_zero_of_mod_eq h.symm
  rw [Nat.mod_eq_of_lt (by omega)] at this
  omega

/-- Every buffer bit after a completed encode loop whose input shares no byte with the ring positions it writes (R95): the last
write to a ring position wins (R99), and every bit at no written position is as before. -/
theorem encodeLoop_bits {p : Platform} {o : MfmOperands} {todo i c c' : Nat} {prev : Bool} {w w' : Work} (hn : 0 < o.n)
    (hc : c < o.n) (hm : Memory.wf w.mem = true)
    (hd : ∀ k, k < 2 * todo → ∀ l, l < todo → byteAddr o.dst ((c + k) % o.n) ≠ byteAddr o.src (i + l))
    (h : encodeLoop p o todo i c prev w = .ok c' w') :
    Memory.wf w'.mem = true ∧
    (∀ l, l < todo → 2 * todo ≤ 2 * l + o.n → Memory.bit w'.mem (8 * o.dst + (c + 2 * l) % o.n) =
      (!Memory.bit w.mem (8 * o.src + (i + l)) && !prevOf w.mem o.src i prev l)) ∧
    (∀ l, l < todo → 2 * todo ≤ 2 * l + 1 + o.n → Memory.bit w'.mem (8 * o.dst + (c + (2 * l + 1)) % o.n) =
      Memory.bit w.mem (8 * o.src + (i + l))) ∧
    (∀ j, (∀ k, k < 2 * todo → j ≠ 8 * o.dst + (c + k) % o.n) → Memory.bit w'.mem j = Memory.bit w.mem j) := by
  induction todo generalizing i c prev w with
  | zero =>
    cases h
    exact ⟨hm, fun l hl => by omega, fun l hl => by omega, fun _ _ => rfl⟩
  | succ todo ih =>
    obtain ⟨b, w1, w2, w3, h1, h2, h3, h4⟩ := encodeLoop_succ_ok.1 h
    obtain ⟨-, rfl, rfl⟩ := getBit_eq_ok.1 h1
    obtain ⟨ha, rfl⟩ := setBit_eq_ok.1 h2
    obtain ⟨hb, rfl⟩ := setBit_eq_ok.1 h3
    have hm2 := setBit_keeps_wf hm ha (!Memory.bit w.mem (8 * o.src + i) && !prev)
    have hm3 := setBit_keeps_wf hm2 hb (Memory.bit w.mem (8 * o.src + i))
    obtain ⟨hwf, hclk, hdat, hrest⟩ := ih (advance_lt hn) hm3
      (fun k hk l hl => by
        rw [advance_advance_mod, show i + 1 + l = i + (l + 1) by omega]
        exact hd (k + 2) (by omega) (l + 1) (by omega)) h4
    -- memory after this turn's two writes, bit by bit
    have hturn : ∀ j, Memory.bit (Memory.write (Memory.write w.mem (byteAddr o.dst c)
          (setBitByte w.mem o.dst c (!Memory.bit w.mem (8 * o.src + i) && !prev))) (byteAddr o.dst (advance o.n c))
          (setBitByte (Memory.write w.mem (byteAddr o.dst c)
            (setBitByte w.mem o.dst c (!Memory.bit w.mem (8 * o.src + i) && !prev))) o.dst (advance o.n c)
            (Memory.bit w.mem (8 * o.src + i)))) j =
        if j = 8 * o.dst + advance o.n c then Memory.bit w.mem (8 * o.src + i)
        else if j = 8 * o.dst + c then (!Memory.bit w.mem (8 * o.src + i) && !prev) else Memory.bit w.mem j := fun j => by
      rw [bit_after_setBit hm2, bit_after_setBit hm]
    have hadv : advance o.n c = (c + 1) % o.n := rfl
    have hc0 : c = (c + 0) % o.n := by rw [Nat.add_zero, Nat.mod_eq_of_lt hc]
    -- the input bits are not touched by this turn
    have hin : ∀ l, l < todo + 1 → ∀ j, j = 8 * o.src + (i + l) →
        j ≠ 8 * o.dst + advance o.n c ∧ j ≠ 8 * o.dst + c := fun l hl j hj => by
      subst hj
      have h1 := hd 1 (by omega) l hl
      have h0 := hd 0 (by omega) l hl
      rw [← hadv] at h1
      rw [← hc0] at h0
      rw [← byte_of_bit, ← byte_of_bit] at h0 h1
      constructor
      · intro e; exact h1 (by rw [e])
      · intro e; exact h0 (by rw [e])
    refine ⟨hwf, fun l hl hlast => ?_, fun l hl hlast => ?_, fun j hj => ?_⟩
    · cases l with
      | zero =>
        rw [Nat.mul_zero, ← hc0]
        rw [hrest _ (fun k hk => by
          rw [advance_advance_mod]
          have := ring_positions_ne (n := o.n) (c := c) (k := 0) (l := k + 2) (by omega) (by omega)
          rw [← hc0] at this
          omega), hturn]
        have hne := ring_positions_ne (n := o.n) (c := c) (k := 0) (l := 1) (by omega) (by omega)
        rw [← hc0, ← hadv] at hne
        rw [if_neg (by omega), if_pos rfl]
        rfl
      | succ l =>
        have := hclk l (by omega) (by omega)
        rw [advance_advance_mod, show 2 * l + 2 = 2 * (l + 1) by omega, show i + 1 + l = i + (l + 1) by omega, hturn,
          if_neg (hin (l + 1) (by omega) _ rfl).1, if_neg (hin (l + 1) (by omega) _ rfl).2] at this
        rw [this]
        congr 2
        cases l with
        | zero => rfl
        | succ l =>
          simp only [prevOf]
          rw [hturn, show i + 1 + l = i + (l + 1) by omega, if_neg (hin (l + 1) (by omega) _ rfl).1,
            if_neg (hin (l + 1) (by omega) _ rfl).2]
    · cases l with
      | zero =>
        rw [Nat.mul_zero, Nat.zero_add, ← hadv]
        rw [hrest _ (fun k hk => by
          rw [advance_advance_mod]
          have := ring_positions_ne (n := o.n) (c := c) (k := 1) (l := k + 2) (by omega) (by omega)
          rw [← hadv] at this
          omega), hturn, if_pos rfl]
        rfl
      | succ l =>
        have := hdat l (by omega) (by omega)
        rw [advance_advance_mod, show 2 * l + 1 + 2 = 2 * (l + 1) + 1 by omega, show i + 1 + l = i + (l + 1) by omega, hturn,
          if_neg (hin (l + 1) (by omega) _ rfl).1, if_neg (hin (l + 1) (by omega) _ rfl).2] at this
        exact this
    · rw [hrest j (fun k hk => by rw [advance_advance_mod]; exact hj (k + 2) (by omega)), hturn,
        if_neg (by have := hj 1 (by omega); rwa [hadv]), if_neg (by have := hj 0 (by omega); rwa [← hc0] at this)]

/-- Every buffer bit after a completed encode loop, whatever bytes input and ring share (R60, R138): the turns of encodedBits,
one after another. -/
theorem encodeLoop_turns {p : Platform} {s : State} {todo i c c' : Nat} {prev : Bool} {w w' : Work}
    (hc : c = (s.mfm.cursor + 2 * i) % s.mfm.n) (hm : Memory.wf w.mem = true)
    (hb : ∀ j, Memory.bit w.mem j = (encodedBits s i).1 j) (hprev : prev = (encodedBits s i).2)
    (h : encodeLoop p s.mfm todo i c prev w = .ok c' w') : ∀ j, Memory.bit w'.mem j = (encodedBits s (i + todo)).1 j := by
  induction todo generalizing i c prev w with
  | zero =>
    cases h
    exact hb
  | succ todo ih =>
    obtain ⟨b, w1, w2, w3, h1, h2, h3, h4⟩ := encodeLoop_succ_ok.1 h
    obtain ⟨-, rfl, rfl⟩ := getBit_eq_ok.1 h1
    obtain ⟨ha, rfl⟩ := setBit_eq_ok.1 h2
    obtain ⟨ha', rfl⟩ := setBit_eq_ok.1 h3
    have hadv : advance s.mfm.n c = (s.mfm.cursor + 2 * i + 1) % s.mfm.n := by subst hc; simp [advance]
    have hm2 := setBit_keeps_wf hm ha (!Memory.bit w.mem (8 * s.mfm.src + i) && !prev)
    rw [show i + (todo + 1) = i + 1 + todo by omega]
    refine ih ?_ (setBit_keeps_wf hm2 ha' _) (fun j => ?_) (hb _) h4
    · rw [hadv, advance, Nat.mod_add_mod]
      rfl
    · rw [bit_after_setBit hm2, bit_after_setBit hm, hb, hb, hadv, hc, hprev]
      rfl

end Sys2Proof.Machine
end

