-- ==== Sys2Proof/Laws/Commands.lean ====
section
/-! SUPPORT. A command as a whole: what is in its footprint, which accesses its body makes, what it leaves in buffer memory and
in the fault record, and when the two MFM bodies complete. -/

namespace Sys2Proof.Machine

/-! Footprints (R59) -/

theorem mem_linearBytes {a base n : Nat} : a ∈ linearBytes base n ↔ ∃ i, i < n ∧ byteAddr base i = a := by
  simp [linearBytes]

theorem mem_ringBytes {a base : Nat} {o : MfmOperands} :
    a ∈ ringBytes o base ↔ ∃ k, k < 2 * o.m ∧ byteAddr base ((o.cursor + k) % o.n) = a := by
  simp only [ringBytes, List.mem_map, List.mem_range, start_add_mod]

theorem footprintAllowed_iff {i : Instr} {s : State} :
    footprintAllowed i s = true ↔ (∀ a ∈ readFootprint i s, readAllowed s.platform a = true) ∧
      (∀ a ∈ writeFootprint i s, updateAllowed s.platform a = true) := by
  simp [footprintAllowed]

theorem disjointBytes_iff {xs ys : List Nat} : disjointBytes xs ys = true ↔ ∀ a ∈ xs, a ∉ ys := by
  simp [disjointBytes]

theorem mfmN_ne_zero {s : State} : s.mfmN ≠ 0#32 ↔ s.mfm.n ≠ 0 := by
  simp [State.mfm, ← BitVec.toNat_inj]

theorem mfmM_eq_zero {s : State} : s.mfmM = 0#32 ↔ s.mfmM.toNat = 0 := by
  simp [← BitVec.toNat_inj]

/-! The bodies of the MFM commands -/

theorem decodeBody_eq_ok {p : Platform} {o : MfmOperands} {w w' : Work} {c : Nat} :
    decodeBody p o w = .ok c w' ↔ 0 < o.n ∧ decodeLoop p o o.m 0 o.start w = .ok c w' := by
  unfold decodeBody
  rcases mfmPreamble_cases o w with ⟨h, e⟩ | ⟨h, e⟩
  · rw [cmd_bind_error e]; simp; omega
  · rw [cmd_bind_ok e]; simp [h]

theorem encodeBody_eq_ok {p : Platform} {o : MfmOperands} {w w' : Work} {c : Nat} :
    encodeBody p o w = .ok c w' ↔ 0 < o.n ∧ ∃ prev w1, getBit p o.dst (prevPosition o.n o.start) w = .ok prev w1 ∧
      encodeLoop p o o.m 0 o.start prev w1 = .ok c w' := by
  unfold encodeBody
  rcases mfmPreamble_cases o w with ⟨h, e⟩ | ⟨h, e⟩
  · rw [cmd_bind_error e]; simp; omega
  · rw [cmd_bind_ok e, cmd_bind_eq_ok]; simp [h]

/-- The body of MFM.DECODE completes when its footprint is allowed (R54, R59). -/
theorem decodeBody_completes {s : State} (hn : s.mfm.n ≠ 0) (ha : footprintAllowed .mfmDecode s = true) :
    ∃ c w, decodeBody s.platform s.mfm ⟨s.mem, []⟩ = .ok c w := by
  rw [footprintAllowed_iff] at ha
  simp only [readFootprint, writeFootprint, if_neg hn] at ha
  have hp : 0 < s.mfm.n := Nat.pos_of_ne_zero hn
  obtain ⟨c, w, h⟩ := decodeLoop_completes (p := s.platform) (todo := s.mfm.m) (i := 0) hp (start_lt hp)
    (fun k hk => by rw [start_add_mod]; exact ha.1 _ (mem_ringBytes.2 ⟨k, hk, rfl⟩))
    (fun k hk => ha.2 _ (mem_linearBytes.2 ⟨k, hk, by simp⟩)) ⟨s.mem, []⟩
  exact ⟨c, w, decodeBody_eq_ok.2 ⟨hp, h⟩⟩

/-- The body of MFM.ENCODE completes when its footprint is allowed (R54, R59). -/
theorem encodeBody_completes {s : State} (hn : s.mfm.n ≠ 0) (ha : footprintAllowed .mfmEncode s = true) :
    ∃ c w, encodeBody s.platform s.mfm ⟨s.mem, []⟩ = .ok c w := by
  rw [footprintAllowed_iff] at ha
  simp only [readFootprint, writeFootprint, if_neg hn] at ha
  have hp : 0 < s.mfm.n := Nat.pos_of_ne_zero hn
  obtain ⟨c, w, h⟩ := encodeLoop_completes (p := s.platform) (todo := s.mfm.m) (i := 0) hp (start_lt hp)
    (fun k hk => ha.1 _ (List.mem_cons_of_mem _ (mem_linearBytes.2 ⟨k, hk, by simp⟩)))
    (fun k hk => by rw [start_add_mod]; exact ha.2 _ (mem_ringBytes.2 ⟨k, hk, rfl⟩)) _ _
  exact ⟨c, w, encodeBody_eq_ok.2 ⟨hp, _, _, getBit_eq_ok.2 ⟨ha.1 _ List.mem_cons_self, rfl, rfl⟩, h⟩⟩

/-! Every command is a body performed -/

/-- What the accesses of a command satisfy (R59). -/
def InFootprint (i : Instr) (s : State) (x : Access) : Prop :=
  (x.addr ∈ readFootprint i s ∨ x.addr ∈ writeFootprint i s) ∧ (x.kind = .write → x.addr ∈ writeFootprint i s)

/-- Every command performs one body, which makes accesses inside the command's footprint only. -/
theorem command_body (i : Instr) (s : State) :
    ∃ (α : Type) (b : Cmd α) (o : α → State → State), exec i s = .next (perform i b o s) ∧
      commandRun i s = runBody b s.mem ∧ Within (InFootprint i s) b := by
  cases i
  case nop => exact ⟨_, _, _, rfl, rfl, within_pure _⟩
  case getbit => exact ⟨_, _, _, rfl, rfl, within_getBit _ _ _ (by simp [InFootprint, readFootprint])⟩
  case setbit => exact ⟨_, _, _, rfl, rfl, within_setBit _ _ _ _ (by simp [InFootprint, writeFootprint])⟩
  case mfmDecode =>
    refine ⟨_, _, _, rfl, rfl, fun w => ?_⟩
    unfold decodeBody
    rcases mfmPreamble_cases s.mfm w with ⟨h, e⟩ | ⟨h, e⟩
    · rw [cmd_bind_error e]; exact ⟨[], Leads.refl w, by simp⟩
    · rw [cmd_bind_ok e]
      have hn : s.mfm.n ≠ 0 := by omega
      refine decodeLoop_within s.platform s.mfm h (start_lt h) (fun k hk b => ?_) (fun k hk x b => ?_) w
      · simp only [InFootprint, readFootprint, writeFootprint, if_neg hn, mem_ringBytes, start_add_mod]
        exact ⟨.inl ⟨k, hk, rfl⟩, by simp⟩
      · simp only [InFootprint, readFootprint, writeFootprint, if_neg hn, mem_linearBytes]
        exact ⟨.inr ⟨k, hk, by simp⟩, fun _ => ⟨k, hk, by simp⟩⟩
  case mfmEncode =>
    refine ⟨_, _, _, rfl, rfl, fun w => ?_⟩
    unfold encodeBody
    rcases mfmPreamble_cases s.mfm w with ⟨h, e⟩ | ⟨h, e⟩
    · rw [cmd_bind_error e]; exact ⟨[], Leads.refl w, by simp⟩
    · rw [cmd_bind_ok e]
      have hn : s.mfm.n ≠ 0 := by omega
      refine within_bind (within_getBit _ _ _ fun b => ?_)
        (fun prev => encodeLoop_within s.platform s.mfm h (start_lt h) (fun k hk b => ?_) (fun k hk x b => ?_) prev) w
      · simp [InFootprint, readFootprint, hn]
      · simp only [InFootprint, readFootprint, writeFootprint, if_neg hn]
        exact ⟨.inl (List.mem_cons_of_mem _ (mem_linearBytes.2 ⟨k, hk, by simp⟩)), by simp⟩
      · simp only [InFootprint, readFootprint, writeFootprint, if_neg hn, start_add_mod]
        exact ⟨.inr (mem_ringBytes.2 ⟨k, hk, rfl⟩), fun _ => mem_ringBytes.2 ⟨k, hk, rfl⟩⟩
  case crcBuild => exact ⟨_, _, _, rfl, rfl, within_buildBody _ _ _⟩
  case crcReset => exact ⟨_, _, _, rfl, rfl, within_pure _⟩
  case crcUpdate => exact ⟨_, _, _, rfl, rfl, within_byteUpdate _ _ _⟩
  case crcCheck =>
    refine ⟨_, _, _, rfl, rfl, checkLoop_within _ _ (fun k hk b => ?_) _⟩
    simp only [InFootprint, readFootprint, List.mem_map, List.mem_range]
    exact ⟨.inl ⟨k, hk, rfl⟩, by simp⟩

/-- Memory after a command's body is memory before it with its MemWrites made in order (R60). -/
theorem commandRun_mem (i : Instr) (s : State) :
    (commandRun i s).2.mem = Memory.writeAll s.mem (writesOf (commandAccesses i s)) := by
  obtain ⟨α, b, o, -, hr, hw⟩ := command_body i s
  obtain ⟨l, hl, -⟩ := hw ⟨s.mem, []⟩
  simp only [commandAccesses, hr, runBody_work, hl.accesses, List.append_nil]
  exact hl.mem

/-- Performing a command leaves the memory its body leaves, whether it completes or faults. -/
theorem perform_mem {α : Type} (i : Instr) (b : Cmd α) (o : α → State → State) (s : State)
    (ho : ∀ a t, (o a t).mem = t.mem) : (perform i b o s).mem = (runBody b s.mem).2.mem := by
  rcases perform_cases i b o s with ⟨a, w, h, e⟩ | ⟨r, w, h, e⟩
  · rw [e, runBody_ok h]; simp [ho]
  · rw [e, runBody_error h]; simp

/-- A command leaves the memory its body leaves. -/
theorem exec_mem {i : Instr} {s t : State} (h : exec i s = .next t) : t.mem = (commandRun i s).2.mem := by
  cases i <;> (cases h; refine perform_mem _ _ _ _ ?_; intro a t) <;> first | rfl | exact writeCursor_mem _ _ _

/-- Performing a command records its fault if it raises one and none is recorded, and else keeps the record. -/
theorem perform_faultRec {α : Type} (i : Instr) (b : Cmd α) (o : α → State → State) (s : State)
    (ho : ∀ a t, (o a t).faultRec = t.faultRec) :
    (perform i b o s).faultRec = match (runBody b s.mem).1 with
      | none => s.faultRec
      | some r => some (s.faultRec.getD ⟨r.code, i.opcode, r.info⟩) := by
  rcases perform_cases i b o s with ⟨a, w, h, e⟩ | ⟨r, w, h, e⟩
  · rw [e, runBody_ok h]; simp [ho]
  · rw [e, runBody_error h]; simp

/-- What a command leaves in the fault record (R82, R116). -/
theorem exec_faultRec {i : Instr} {s t : State} (h : exec i s = .next t) :
    t.faultRec = match commandFault i s with
      | none => s.faultRec
      | some r => some (s.faultRec.getD ⟨r.code, i.opcode, r.info⟩) := by
  cases i <;> (cases h; refine perform_faultRec _ _ _ _ ?_; intro a t) <;> first | rfl | exact writeCursor_faultRec _ _ _

/-! The faults a body can raise -/

/-- Every fault the body raises satisfies `Q`. -/
def Raises {α : Type} (Q : Raise → Prop) (b : Cmd α) : Prop := ∀ w r w', b w = .error r w' → Q r

variable {α β : Type} {Q : Raise → Prop}

theorem raises_pure (a : α) : Raises Q (pure a : Cmd α) := by
  intro w r w' h; cases h

theorem raises_bind {x : Cmd α} {f : α → Cmd β} (h : Raises Q x) (hf : ∀ a, Raises Q (f a)) : Raises Q (x >>= f) := by
  intro w r w' e
  rcases cmd_bind_eq_error.1 e with e | ⟨a, w1, -, e⟩
  · exact h _ _ _ e
  · exact hf _ _ _ _ e

end Sys2Proof.Machine
end

