-- ==== Sys2Proof/Laws/Registers.lean ====
section
/-! SUPPORT. The register map and the words of the status registers, field by field (R17, R20, R22, R39). -/

namespace Sys2Proof.Machine

/-- Below the table window the map has a register exactly at the multiples of 4 up to 0x048 (R17). -/
theorem regMap_find_none {off : Nat} (h4 : off % 4 = 0) :
    regMap.find? (fun row => row.off == off) = none ↔ 0x048 < off := by
  constructor
  · intro h
    by_contra hc
    have : off ≤ 72 := by omega
    interval_cases off <;> simp_all [regMap]
  · intro h
    simp only [regMap, List.find?_eq_none, List.cons_append, List.nil_append, List.mem_cons, List.not_mem_nil, or_false]
    rintro x (rfl | rfl | rfl | rfl | rfl | rfl | rfl | rfl | rfl | rfl | rfl | rfl | rfl | rfl | rfl | rfl | rfl | rfl | rfl) <;>
      simp <;> omega

/-- What an access reaches: nothing, a row of the map, or a word of the table window (R17, R18, R40). -/
theorem accessedRow_cases (p : Platform) (off width : Nat) :
    ((width ≠ 32 ∨ off % 4 ≠ 0) ∧ accessedRow p off width = none) ∨
    (width = 32 ∧ off % 4 = 0 ∧ off < 0x10000 ∧
      accessedRow p off width = regMap.find? (fun row => row.off == off)) ∨
    (width = 32 ∧ off % 4 = 0 ∧ 0x10000 ≤ off ∧ off < 0x10000 + 4 * 2 ^ p.tableMaxWidth ∧
      accessedRow p off width = some ⟨off, .crcTable ((off - 0x10000) / 4), .readOnly, 0x0000FFFF#32⟩) ∨
    (width = 32 ∧ off % 4 = 0 ∧ 0x10000 + 4 * 2 ^ p.tableMaxWidth ≤ off ∧ accessedRow p off width = none) := by
  unfold accessedRow
  split
  · rename_i h; exact .inl ⟨h, rfl⟩
  · rename_i h
    simp only [not_or, ne_eq, Decidable.not_not] at h
    obtain ⟨hw, h4⟩ := h
    unfold regRowAt
    split
    · rename_i ht
      split
      · rename_i hl; exact .inr (.inr (.inl ⟨hw, h4, ht, hl, rfl⟩))
      · rename_i hl; exact .inr (.inr (.inr ⟨hw, h4, Nat.le_of_not_lt hl, rfl⟩))
    · rename_i ht; exact .inr (.inl ⟨hw, h4, Nat.lt_of_not_le ht, rfl⟩)

@[simp] theorem accessedRow_cmd (p : Platform) : accessedRow p 0 32 = some ⟨0x000, .cmd, .writeOnly, 0xFFFFFFFF#32⟩ := by
  rfl

@[simp] theorem accessedRow_status (p : Platform) :
    accessedRow p 4 32 = some ⟨0x004, .status, .readOnly, 0x00FFFF03#32⟩ := by
  rfl

/-- Every bit of the STATUS word (R22). -/
theorem statusWord_bit (s : State) (j : Nat) :
    s.statusWord.getLsbD j =
      if j = 0 then s.busy else if j = 1 then s.faulted else if j < 8 then false
      else if j < 16 then s.faultCode.getLsbD (j - 8) else if j < 24 then s.faultOp.getLsbD (j - 16) else false := by
  by_cases h : j < 32
  · unfold State.statusWord
    interval_cases j <;> simp only [BitVec.getLsbD_append, BitVec.getLsbD_ofBool] <;> simp
  · rw [BitVec.getLsbD_of_ge _ _ (by omega)]
    simp only [show ¬ j = 0 by omega, show ¬ j = 1 by omega, show ¬ j < 8 by omega, show ¬ j < 16 by omega,
      show ¬ j < 24 by omega, if_false]

/-- Every bit of the CRC_TINFO word (R39). -/
theorem tinfoWord_bit (s : State) (j : Nat) :
    s.tinfoWord.getLsbD j =
      if j < 5 then s.table.tw.getLsbD j else if j < 16 then false else s.table.tpoly.getLsbD (j - 16) := by
  by_cases h : j < 32
  · unfold State.tinfoWord
    interval_cases j <;> simp only [BitVec.getLsbD_append] <;> simp
  · rw [BitVec.getLsbD_of_ge _ _ (by omega)]
    simp only [show ¬ j < 5 by omega, show ¬ j < 16 by omega, if_false]
    rw [BitVec.getLsbD_of_ge _ _ (by omega)]

end Sys2Proof.Machine
end

