-- ==== Sys2Proof/Laws/HostAgent.lean ====
section
/-! SUPPORT. What each of the host's operations can do (R77, R78, R80, R131), and which agent moves next (R81). -/

namespace Sys2Proof.Machine

/-- Everything a host register read can do (R77). -/
theorem hostRegRead_cases (off width : Nat) (s : State) :
    (accessedRow s.platform off width = none ∧
      hostRegRead off width s = { recordFault ⟨.regAccess, 0xFF#8, trunc32 off⟩ s with readData := 0#32 }) ∨
    (∃ row, accessedRow s.platform off width = some row ∧
      hostRegRead off width s = { s with readData := s.readReg row.reg }) := by
  unfold hostRegRead
  cases h : accessedRow s.platform off width with
  | none => exact .inl ⟨rfl, rfl⟩
  | some row => exact .inr ⟨row, rfl, rfl⟩

/-- A read of STATUS returns it and changes nothing else (R22, R77). -/
@[simp] theorem readStatus_eq (s : State) : readStatus s = { s with readData := s.statusWord } := rfl

/-- Everything a turn of WAIT can do (R76): while BUSY = 1 the loop repeats, and else it ends. -/
theorem hostWait_eq (polls : Nat) (s : State) :
    hostWait polls s = { s with
      readData := s.statusWord
      script := if s.busy then ⟨.wait (polls - 1), decide (1 < polls)⟩ :: s.script else s.script } := by
  have hb : s.statusWord.getLsbD 0 = s.busy := statusWord_bit s 0
  unfold hostWait
  simp only [readStatus_eq, hb]
  split <;> rfl

/-- Everything issuing a command word can do (R80). -/
theorem issue_cases (w : Word) (s : State) :
    (∃ i, decode w = .ok i ∧ issue w s = { s with pending := some i }) ∨
    (∃ e, decode w = .error e ∧ issue w s = recordFault ⟨.illegalCommand, opField w, w⟩ s) := by
  unfold issue
  cases h : decode w with
  | ok i => exact .inl ⟨i, rfl, rfl⟩
  | error e => exact .inr ⟨e, rfl, rfl⟩

/-- Everything a host register write can do, in the order of R78: ignored while FAULTED, REG_ACCESS, BUSY_VIOLATION, a
command issued, or a register written. -/
theorem hostRegWrite_cases (off width : Nat) (v : Word) (s : State) :
    (s.faulted = true ∧ hostRegWrite off width v s = s) ∨
    (s.faulted = false ∧
      (accessedRow s.platform off width = none ∨
        ∃ row, accessedRow s.platform off width = some row ∧ row.mode = .readOnly) ∧
      hostRegWrite off width v s = recordFault ⟨.regAccess, 0xFF#8, trunc32 off⟩ s) ∨
    (s.faulted = false ∧ s.busy = true ∧
      (∃ row, accessedRow s.platform off width = some row ∧ row.mode ≠ .readOnly) ∧
      hostRegWrite off width v s = recordFault ⟨.busyViolation, 0xFF#8, trunc32 off⟩ s) ∨
    (s.faulted = false ∧ s.busy = false ∧
      (∃ row, accessedRow s.platform off width = some row ∧ row.mode = .writeOnly) ∧
      hostRegWrite off width v s = issue v s) ∨
    (s.faulted = false ∧ s.busy = false ∧
      ∃ row, accessedRow s.platform off width = some row ∧ row.mode = .readWrite ∧
        hostRegWrite off width v s = s.writeReg row.reg v) := by
  unfold hostRegWrite
  by_cases hf : s.faulted = true
  · exact .inl ⟨hf, by simp [hf]⟩
  · have hf' : s.faulted = false := Bool.eq_false_iff.2 hf
    refine .inr ?_
    cases hrow : accessedRow s.platform off width with
    | none => exact .inl ⟨hf', .inl rfl, by simp [hf', recordOffsetFault, registerLevelOp]⟩
    | some row =>
      cases hmode : row.mode with
      | readOnly =>
        exact .inl ⟨hf', .inr ⟨row, rfl, hmode⟩, by simp [hf', hmode, recordOffsetFault, registerLevelOp]⟩
      | writeOnly =>
        cases hb : s.busy
        · exact .inr (.inr (.inl ⟨hf', rfl, ⟨row, rfl, hmode⟩, by simp [hf', hmode]⟩))
        · exact .inr (.inl ⟨hf', rfl, ⟨row, rfl, by simp [hmode]⟩,
            by simp [hf', hmode, recordOffsetFault, registerLevelOp]⟩)
      | readWrite =>
        cases hb : s.busy
        · exact .inr (.inr (.inr ⟨hf', rfl, row, rfl, hmode, by simp [hf', hmode]⟩))
        · exact .inr (.inl ⟨hf', rfl, ⟨row, rfl, by simp [hmode]⟩,
            by simp [hf', hmode, recordOffsetFault, registerLevelOp]⟩)

/-- Everything a host action that is not refused can do (R76, R77, R78, R85, R131). -/
theorem hostStep_cases {op : HostOp} {s t : State} (h : hostStep op s = .next t) :
    (∃ off width, op = .regRead off width ∧ t = hostRegRead off width s) ∨
    (∃ off width v, op = .regWrite off width v ∧ t = hostRegWrite off width v s) ∨
    (∃ polls, op = .wait polls ∧ t = hostWait polls s) ∨
    (∃ a, op = .memRead a ∧ breachesDuty a s = false ∧
      t = { s with readData := (Memory.read s.mem a.toNat).setWidth 32 }) ∨
    (∃ a v, op = .memWrite a v ∧ breachesDuty a s = false ∧ t = s.setMem (Memory.write s.mem a.toNat v)) ∨
    (∃ d, op = .reset d ∧ t = applyReset d s) := by
  cases op with
  | regRead off width => cases h; exact .inl ⟨_, _, rfl, rfl⟩
  | regWrite off width v => cases h; exact .inr (.inl ⟨_, _, _, rfl, rfl⟩)
  | memRead a =>
    simp only [hostStep] at h
    split at h
    · cases h
    · cases h; exact .inr (.inr (.inr (.inl ⟨a, rfl, Bool.eq_false_iff.2 ‹_›, rfl⟩)))
  | memWrite a v =>
    simp only [hostStep] at h
    split at h
    · cases h
    · cases h; exact .inr (.inr (.inr (.inr (.inl ⟨a, v, rfl, Bool.eq_false_iff.2 ‹_›, rfl⟩))))
  | wait polls => cases h; exact .inr (.inr (.inl ⟨polls, rfl, rfl⟩))
  | reset d => cases h; exact .inr (.inr (.inr (.inr (.inr ⟨d, rfl, rfl⟩))))

/-- Everything the choice of the next move can be (R81, U7). -/
theorem nextTurn_cases (s : State) :
    (nextTurn s = .idle ∧ s.pending = none ∧ s.script = []) ∨
    (∃ i, nextTurn s = .codec i ∧ s.pending = some i ∧ (s.script = [] ∨ ∃ e rest, s.script = e :: rest ∧ e.early = false)) ∨
    (∃ e rest, nextTurn s = .host e.op rest ∧ s.script = e :: rest ∧ (s.pending = none ∨ e.early = true)) := by
  unfold nextTurn
  cases hp : s.pending with
  | none =>
    cases hs : s.script with
    | nil => exact .inl ⟨rfl, rfl, rfl⟩
    | cons e rest => exact .inr (.inr ⟨e, rest, rfl, rfl, .inl rfl⟩)
  | some i =>
    cases hs : s.script with
    | nil => exact .inr (.inl ⟨i, rfl, rfl, .inl rfl⟩)
    | cons e rest =>
      cases he : e.early with
      | false => exact .inr (.inl ⟨i, by simp [he], rfl, .inr ⟨e, rest, rfl, he⟩⟩)
      | true => exact .inr (.inr ⟨e, rest, by simp [he], rfl, .inr he⟩)

/-- A step is the move of the agent whose turn it is (R6, R119). -/
theorem step_cases (s : State) :
    (nextTurn s = .idle ∧ step s = .next s) ∨
    (∃ i, nextTurn s = .codec i ∧ step s = exec i s) ∨
    (∃ op rest, nextTurn s = .host op rest ∧ step s = hostStep op { s with script := rest }) := by
  unfold step
  cases h : nextTurn s with
  | idle => exact .inl ⟨rfl, rfl⟩
  | codec i => exact .inr (.inl ⟨i, rfl, rfl⟩)
  | host op rest => exact .inr (.inr ⟨op, rest, rfl, rfl⟩)

end Sys2Proof.Machine
end

