-- ==== Sys2Proof/Laws/PerInstr.lean ====
section
/-! SUPPORT. A statement about every command, made constructor by constructor: its row of the opcode map. -/

namespace Sys2Proof.Laws.OpcodeRow

/-- The command's word has RSV = 0 and its opcode in OP, and the opcode map has exactly that row for it (R68, R69). -/
def Statement (i : Instr) : Prop :=
  rsvField (encode i) = 0#24 ∧ opField (encode i) = i.opcode ∧ opcodeMap.filter (fun row => row.2 == i) = [(i.opcode, i)]

theorem nop : Statement .nop := by unfold Statement; decide
theorem getbit : Statement .getbit := by unfold Statement; decide
theorem setbit : Statement .setbit := by unfold Statement; decide
theorem mfmDecode : Statement .mfmDecode := by unfold Statement; decide
theorem mfmEncode : Statement .mfmEncode := by unfold Statement; decide
theorem crcBuild : Statement .crcBuild := by unfold Statement; decide
theorem crcReset : Statement .crcReset := by unfold Statement; decide
theorem crcUpdate : Statement .crcUpdate := by unfold Statement; decide
theorem crcCheck : Statement .crcCheck := by unfold Statement; decide

end Sys2Proof.Laws.OpcodeRow
end

