-- ==== Sys2Proof/Tests/Slice0.lean ====
section
/-! SUPPORT. Tests of one step each, with expected results from 95_test_vectors.md and the rules, and a witness for the
hypotheses of every statement. -/

namespace Sys2Proof.Tests

open Sys2Proof.Machine

-- One theorem at a time: many kernel evaluations at once take a thread each.
set_option Elab.async false

/-! ## Helpers -/

/-- What a step leaves in one place, or none where it gives no next state. -/
def after {α : Type} (o : Result) (f : State → α) : Option α :=
  match o with
  | .next t => some (f t)
  | _ => none

/-- The reset state with some bytes of buffer memory. -/
def withBytes (cs : List Host.Cell) : State := { State.reset with mem := cs }

/-- The standard platform with one byte that is not admitted (`read`: for read and write; else for write only). -/
def holed (a : Nat) (read : Bool) : Platform :=
  { Platform.standard with regions :=
      [⟨0, a, true, true⟩, ⟨a, 1, !read, false⟩, ⟨a + 1, 2 ^ 32 - a - 1, true, true⟩] }

/-- The bytes "123456789" from address 0. -/
def digits : List Host.Cell :=
  [(0, 0x31#8), (1, 0x32#8), (2, 0x33#8), (3, 0x34#8), (4, 0x35#8), (5, 0x36#8), (6, 0x37#8), (7, 0x38#8), (8, 0x39#8)]

/-! ## WellFormed: an ill-formed term for each check -/

theorem test_wf_every_command : ∀ i : Instr, i.wf = true := by intro i; cases i <;> rfl
theorem test_illformed_width : HostOp.wf (.regRead 0x004 8) = false := by decide
theorem test_illformed_offset : HostOp.wf (.regRead 0x02E 32) = false := by decide
theorem test_illformed_write_width : HostOp.wf (.regWrite 0x02C 16 0#32) = false := by decide
theorem test_illformed_write_offset : HostOp.wf (.regWrite 0x001 32 0#32) = false := by decide
theorem test_wellformed_read : HostOp.wf (.regRead 0x004 32) = true := by decide
theorem test_illformed_table_index : Reg.wf Platform.standard (.crcTable 256) = false := by decide
theorem test_wellformed_table_index : Reg.wf Platform.standard (.crcTable 255) = true := by decide
theorem test_illformed_asm_rd : AsmOp.wf Platform.standard (.rd (.crcTable 256)) = false := by decide
theorem test_illformed_asm_wr : AsmOp.wf Platform.standard (.wr (.crcTable 300) 0#32) = false := by decide
theorem test_illformed_asm_setreg : AsmOp.wf Platform.standard (.setreg (.crcTable 300) 0#32) = false := by decide
theorem test_illformed_region : Region.wf ⟨2 ^ 32, 1, true, true⟩ = false := by decide
theorem test_illformed_narrow_platform : Platform.wf { Platform.standard with tableMaxWidth := 3 } = false := by decide
theorem test_illformed_wide_platform : Platform.wf { Platform.standard with tableMaxWidth := 17 } = false := by decide
theorem test_illformed_platform_region :
    Platform.wf { Platform.standard with regions := [⟨1, 2 ^ 32, true, true⟩] } = false := by decide
theorem test_wellformed_platform : Platform.wf Platform.standard = true := by decide

/-! ## Decode: the words of R69, bit by bit (RSV = 24 zeros, then OP) -/

theorem test_decode_nop : decode 0b00000000000000000000000000000000#32 = .ok .nop := by decide
theorem test_decode_getbit : decode 0b00000000000000000000000000000001#32 = .ok .getbit := by decide
theorem test_decode_setbit : decode 0b00000000000000000000000000000010#32 = .ok .setbit := by decide
theorem test_decode_mfmDecode : decode 0b00000000000000000000000000010000#32 = .ok .mfmDecode := by decide
theorem test_decode_mfmEncode : decode 0b00000000000000000000000000010001#32 = .ok .mfmEncode := by decide
theorem test_decode_crcBuild : decode 0b00000000000000000000000000100000#32 = .ok .crcBuild := by decide
theorem test_decode_crcReset : decode 0b00000000000000000000000000100001#32 = .ok .crcReset := by decide
theorem test_decode_crcUpdate : decode 0b00000000000000000000000000100010#32 = .ok .crcUpdate := by decide
theorem test_decode_crcCheck : decode 0b00000000000000000000000000100011#32 = .ok .crcCheck := by decide
/-- V-REG-4: an opcode that is not in the map. -/
theorem test_decode_unknown : decode 0x00000012#32 = .error .unknownOpcode := by decide
/-- V-REG-4: RSV is not 0. -/
theorem test_decode_reserved : decode 0x00000121#32 = .error .reservedNotZero := by decide
theorem test_table_word : decodeTableWord 32 0x23 = some .crcCheck := by decide
theorem test_table_word_one_byte : decodeTableWord 8 0x11 = some .mfmEncode := by decide
theorem test_table_word_refused : decodeTableWord 32 0x00010010 = none := by decide
theorem test_fetch_word : nextTurn (State.reset.withFetchWord 32 0x22) = .codec .crcUpdate := by decide +kernel

/-! ## One command each -/

/-- V-REG-6. -/
theorem test_nop_clears_pending :
    after (step { State.reset with pending := some .nop }) (·.statusWord) = some 0x00000000#32 := by decide +kernel
/-- V-BIT-3: the last bit of the last byte. -/
theorem test_getbit_last_bit :
    after (exec .getbit { withBytes [(0xFFFFFFFF, 0x01#8)] with bitBase := 0xFFFFFFFF#32, bitIndex := 7#32 }) (·.bitData) =
      some 1#1 := by decide +kernel
/-- V-BIT-3: one bit further. -/
theorem test_getbit_overflow :
    after (exec .getbit { State.reset with bitBase := 0xFFFFFFFF#32, bitIndex := 8#32 })
      (fun t => (t.statusWord, t.faultInfo)) = some (0x00010502#32, 0#32) := by decide +kernel
/-- V-BIT-2: index 11 sets a bit of the next byte. -/
theorem test_setbit_next_byte :
    after (exec .setbit { withBytes [(0x5000, 0x9B#8)] with bitBase := 0x5000#32, bitIndex := 11#32, bitData := 1#1 })
      (·.mem) = some [(0x5000, 0x9B#8), (0x5001, 0x10#8)] := by decide +kernel
/-- V-BIT-4: read admitted, write refused. -/
theorem test_setbit_bus_error :
    after (exec .setbit { withBytes [(0x5000, 0x5A#8)] with platform := holed 0x5000 false, bitBase := 0x5000#32, bitData := 1#1 })
      (fun t => (t.statusWord, t.faultInfo, t.mem)) = some (0x00020602#32, 0x5000#32, [(0x5000, 0x5A#8)]) := by decide +kernel
/-- V-MFM-6: the four pairs, and the bits after them untouched. -/
theorem test_mfmDecode_pairs :
    after (exec .mfmDecode { withBytes [(0x10, 0x1B#8), (0x20, 0xFF#8)] with
        mfmSrc := 0x10#32, mfmDst := 0x20#32, mfmN := 8#32, mfmM := 4#32 })
      (fun t => (Memory.read t.mem 0x20, t.mfmCursor)) = some (0x4F#8, 0#32) := by decide +kernel
/-- V-MFM-13. -/
theorem test_mfmDecode_ring_zero :
    after (exec .mfmDecode { State.reset with mfmM := 8#32 }) (fun t => (t.statusWord, t.faultInfo)) =
      some (0x00100402#32, 0#32) := by decide +kernel
/-- V-MFM-3: the cursor is at or above N. -/
theorem test_mfmEncode_large_cursor :
    after (exec .mfmEncode { withBytes [(0x10, 0x80#8)] with
        mfmSrc := 0x10#32, mfmDst := 0x20#32, mfmN := 16#32, mfmM := 1#32, mfmCursor := 17#32 })
      (fun t => (Memory.read t.mem 0x20, t.mfmCursor)) = some (0x20#8, 3#32) := by decide +kernel
/-- V-MFM-16: the input is the ring. -/
theorem test_mfmEncode_in_place :
    after (exec .mfmEncode { withBytes [(0x10, 0x80#8)] with
        mfmSrc := 0x10#32, mfmDst := 0x10#32, mfmN := 8#32, mfmM := 2#32 })
      (fun t => (Memory.read t.mem 0x10, t.mfmCursor)) = some (0x50#8, 4#32) := by decide +kernel
/-- V-CRC-2. -/
theorem test_crcBuild_other_polynomial :
    after (exec .crcBuild { State.reset with crcPoly := 0x1021#16 }) (fun t => (t.tableWord 15, t.tinfoWord)) =
      some (0x0000F1EF#32, 0x10210004#32) := by decide +kernel
/-- V-CRC-12. -/
theorem test_crcBuild_too_wide :
    after (exec .crcBuild { State.reset with crcWidth := 9#5 }) (fun t => (t.statusWord, t.faultInfo, t.tinfoWord)) =
      some (0x00200702#32, 9#32, 0x80050004#32) := by decide +kernel
/-- V-CRC-17. -/
theorem test_crcReset_copies :
    after (exec .crcReset { State.reset with crcInit := 0xFFFF#16 }) (·.crcAcc) = some 0xFFFF#16 := by decide +kernel
/-- V-CRC-4. -/
theorem test_crcUpdate_two_nibbles :
    after (exec .crcUpdate { State.reset with crcAcc := 0x1234#16, crcData := 0x56#8 }) (·.crcAcc) = some 0x3598#16 := by
  decide +kernel
/-- V-CRC-13: the second index is beyond a table of width 2. -/
theorem test_crcUpdate_narrow :
    after (exec .crcUpdate { State.reset with table := loadTable 0x8005#16 2#5, crcData := 0x12#8 })
      (fun t => (t.statusWord, t.faultInfo, t.crcAcc)) = some (0x00220802#32, 0xA#32, 0#16) := by decide +kernel
/-- V-CRC-5. -/
theorem test_crcCheck_digits :
    after (exec .crcCheck { withBytes digits with crcLen := 9#32 }) (·.crcAcc) = some 0xFEE8#16 := by decide +kernel
/-- V-CRC-15: the third byte is beyond the address space. -/
theorem test_crcCheck_overflow :
    after (exec .crcCheck { State.reset with crcBase := 0xFFFFFFFE#32, crcLen := 3#32, crcAcc := 0x7777#16 })
      (fun t => (t.statusWord, t.faultInfo, t.crcAcc)) = some (0x00230502#32, 0#32, 0x7777#16) := by decide +kernel

/-! ## The host's steps -/

/-- V-REG-1. -/
theorem test_reset_registers :
    (State.reset.statusWord, State.reset.tinfoWord, State.reset.tableWord 1, State.reset.tableWord 15, State.reset.tableWord 16) =
      (0#32, 0x80050004#32, 0x8005#32, 0x22#32, 0#32) := by decide +kernel
/-- V-REG-2. -/
theorem test_write_masks :
    after (hostStep (.regWrite 0x038 32 0x25#32) State.reset) (·.readReg .crcWidth) = some 5#32 := by decide +kernel
/-- V-REG-3: an 8-bit write. -/
theorem test_narrow_write :
    after (hostStep (.regWrite 0x02C 8 0#32) State.reset) (fun t => (t.statusWord, t.faultInfo)) =
      some (0x00FF0202#32, 0x2C#32) := by decide +kernel
/-- V-REG-3: CRC_TABLE[256] is beyond the window. -/
theorem test_read_beyond_window :
    after (hostStep (.regRead 0x10400 32) State.reset) (fun t => (t.statusWord, t.faultInfo, t.readData)) =
      some (0x00FF0202#32, 0x10400#32, 0#32) := by decide +kernel
/-- V-REG-5: an unmapped write while BUSY is REG_ACCESS. -/
theorem test_unmapped_write_while_busy :
    after (hostStep (.regWrite 0x100 32 0#32) { State.reset with pending := some .mfmDecode })
      (fun t => (t.statusWord, t.faultInfo)) = some (0x00FF0203#32, 0x100#32) := by decide +kernel
/-- P5: a register write while BUSY is dropped. -/
theorem test_busy_violation :
    after (hostStep (.regWrite 0x034 32 0#32) { State.reset with pending := some .crcReset, crcInit := 0xFFFF#16 })
      (fun t => (t.statusWord, t.faultInfo, t.crcInit)) = some (0x00FF0303#32, 0x34#32, 0xFFFF#16) := by decide +kernel
/-- V-REG-4. -/
theorem test_illegal_command :
    after (hostStep (.regWrite 0x000 32 0x121#32) State.reset) (fun t => (t.statusWord, t.faultInfo, t.pending)) =
      some (0x00210102#32, 0x121#32, none) := by decide +kernel
/-- R132: reset after one of the two MemWrites of an MFM.ENCODE of one bit. -/
theorem test_reset_mid_command :
    after (hostStep (.reset 1) { State.reset with pending := some .mfmEncode, mfmDst := 0x20#32, mfmN := 32#32, mfmM := 1#32 })
      (fun t => (Memory.read t.mem 0x20, t.pending)) = some (0x80#8, none) := by decide +kernel
/-- R75: the transactions of `RUN MFM.ENCODE` with one STATUS read before the perform step (program P1). -/
theorem test_run_lines :
    expandAsm false (.run .mfmEncode 1) =
      [⟨.regWrite 0x000 32 0x11#32, false⟩, ⟨.wait 1, true⟩] := by decide
/-- R76: with a command pending, a turn of WAIT that sees BUSY = 1 leaves the loop in the script, behind the perform step. -/
theorem test_wait_repeats :
    after (step { State.reset with pending := some .nop, script := waitEvents 1 })
      (fun t => (t.pending, t.readData, t.script)) = some (some .nop, 1#32, [⟨.wait 0, false⟩]) := by decide +kernel
/-- R76: WAIT of an idle block makes one read and ends. -/
theorem test_wait_idle :
    after (step { State.reset with script := waitEvents 3, readData := 7#32 }) (fun t => (t.readData, t.script)) =
      some (0#32, []) := by decide +kernel
/-- R17: a bus address is the offset above REG_BASE. -/
theorem test_bus_offset : busRead { Platform.standard with regBase := 0x8000 } 0x802C 32 = some (.regRead 0x02C 32) := by decide

/-! ## A witness for the hypotheses of every statement that has some -/

theorem witness_DecodeAccepts_reserved :
    (∀ i : Instr, 0x00000100#32 ≠ encode i) ∧ (0x00000100#32).extractLsb' 8 24 ≠ 0#24 := by
  refine ⟨fun i => ?_, by decide⟩
  cases i <;> decide
theorem witness_DecodeAccepts_unknown :
    (∀ i : Instr, 0x00000024#32 ≠ encode i) ∧ ¬ (0x00000024#32).extractLsb' 8 24 ≠ 0#24 := by
  refine ⟨fun i => ?_, by decide⟩
  cases i <;> decide
theorem witness_AssembledOffset :
    Platform.standard.wf = true ∧ (Reg.crcTable 255).wf Platform.standard = true ∧ Reg.cmd.wf Platform.standard = true := by
  decide
theorem witness_RegisterMap :
    255 < 2 ^ Platform.standard.tableMaxWidth ∧ ¬ MappedOffset Platform.standard 0x04C ∧ 0x04C % 4 = 0 ∧
      ¬ MappedOffset Platform.standard 0x10400 := by decide
theorem witness_AccessReaches :
    (accessedRow Platform.standard 0x103FC 32).isSome = true ∧ (accessedRow Platform.standard 0x10400 32) = none ∧
      (accessedRow Platform.standard 0x048 32).isSome = true ∧ accessedRow Platform.standard 0x04C 32 = none := by decide +kernel
/-- A host about to write the CRC.RESET word, with nothing after it. -/
def issuing : State := { State.reset with script := [⟨.regWrite 0x000 32 0x21#32, false⟩] }
theorem witness_IssuedCommand :
    issuing.pending = none ∧ issuing.faultRec = none ∧ issuing.script = ⟨.regWrite 0x000 32 0x21#32, false⟩ :: [] ∧
      decode 0x21#32 = .ok .crcReset ∧ (∀ e ∈ ([] : List HostEvent).head?, e.early = false) := by
  refine ⟨rfl, rfl, rfl, by decide, by simp⟩
theorem witness_Turns_idle : State.reset.pending = none ∧ State.reset.script = [] := ⟨rfl, rfl⟩
/-- A pending NOP with a host action placed before or after it. -/
def contested (early : Bool) : State :=
  { State.reset with pending := some .nop, script := [⟨.regRead 0x004 32, early⟩] }
theorem witness_Turns_codec :
    (contested false).pending = some .nop ∧ (∀ e ∈ (contested false).script.head?, e.early = false) := by
  refine ⟨rfl, ?_⟩
  simp [contested]
theorem witness_Turns_host :
    (contested true).script = ⟨.regRead 0x004 32, true⟩ :: [] ∧
      ((contested true).pending = none ∨ (⟨.regRead 0x004 32, true⟩ : HostEvent).early = true) := ⟨rfl, .inr rfl⟩
theorem witness_IllegalWord :
    State.reset.pending = none ∧ State.reset.faultRec = none ∧ (0xFFFFFF00#32).extractLsb' 8 24 ≠ 0#24 ∧
      (0x00000024#32).extractLsb' 0 8 ∉ [0x00#8, 0x01#8, 0x02#8, 0x10#8, 0x11#8, 0x20#8, 0x21#8, 0x22#8, 0x23#8] := by
  refine ⟨rfl, rfl, by decide, by decide⟩

/-- SETBIT of bit 11 of the buffer at 0x5000. -/
def setting : State :=
  { withBytes [(0x5000, 0x9B#8)] with bitBase := 0x5000#32, bitIndex := 11#32, bitData := 1#1 }
theorem witness_CommandsWriteOnly :
    (∃ t, exec .setbit setting = .next t) ∧ 0x5000 ∉ writeFootprint .setbit setting ∧ Instr.setbit ≠ .getbit := by
  refine ⟨⟨_, rfl⟩, by decide +kernel, by decide⟩
theorem witness_FaultingCommand : commandFault .mfmEncode State.reset = some ⟨.ringZero, 0#32⟩ := by decide +kernel
theorem witness_AccessesStay : (⟨.write, 0x5001, 0x10#8⟩ : Access) ∈ commandAccesses .setbit setting := by decide +kernel

/-- MFM.ENCODE of the four bits 1011 at 0x10 into a ring of 20 bits at 0x20, from cursor 16 (V-MFM-2). -/
def encoding : State :=
  { withBytes [(0x10, 0xB0#8)] with
    mfmSrc := 0x10#32, mfmDst := 0x20#32, mfmN := 20#32, mfmM := 4#32, mfmCursor := 16#32 }
/-- The ring it leaves, and MFM.DECODE of it into 0x30 (V-MFM-2). -/
def decoding : State :=
  { withBytes [(0x10, 0xB0#8), (0x20, 0x50#8), (0x22, 0x40#8)] with
    mfmSrc := 0x20#32, mfmDst := 0x30#32, mfmN := 20#32, mfmM := 4#32, mfmCursor := 16#32 }
theorem witness_MfmOrder : encoding.mfmN ≠ 0#32 := by decide
theorem witness_BufferCommands :
    footprintAllowed .getbit setting = true ∧ footprintAllowed .setbit setting = true ∧
      footprintAllowed .setbit { setting with platform := holed 0x5001 false } = false := by decide +kernel

/-- The same operands one byte above the top of memory, and on platforms that refuse the byte for write, or for both. -/
def settingTop : State := { setting with bitBase := 0xFFFFFFFF#32, bitIndex := 8#32 }
def settingReadOnly : State := { setting with platform := holed 0x5001 false }
def settingAbsent : State := { setting with platform := holed 0x5001 true }
theorem witness_Getbit :
    (setting.bitBase.toNat + setting.bitIndex.toNat / 8 = 0x5001 ∧ setting.platform.admits 0x5001 .read = true) ∧
    2 ^ 32 = settingTop.bitBase.toNat + settingTop.bitIndex.toNat / 8 ∧
    (settingAbsent.bitBase.toNat + settingAbsent.bitIndex.toNat / 8 = 0x5001 ∧
      settingAbsent.platform.admits 0x5001 .read = false) := by decide +kernel
theorem witness_Setbit :
    (setting.bitBase.toNat + setting.bitIndex.toNat / 8 = 0x5001 ∧ Memory.read setting.mem 0x5001 = 0#8 ∧
      setting.platform.admits 0x5001 .read = true ∧ setting.platform.admits 0x5001 .write = true) ∧
    2 ^ 32 = settingTop.bitBase.toNat + settingTop.bitIndex.toNat / 8 ∧
    settingReadOnly.platform.admits 0x5001 .read = true ∧ settingReadOnly.platform.admits 0x5001 .write = false ∧
    settingAbsent.platform.admits 0x5001 .read = false := by decide +kernel
theorem witness_SetbitChangesOneBit : Memory.wf setting.mem = true ∧ footprintAllowed .setbit setting = true := by
  decide +kernel
/-- The state after the SETBIT of `setting`, ready for GETBIT. -/
def set : State := { setting with mem := [(0x5000, 0x9B#8), (0x5001, 0x10#8)] }
theorem witness_SetThenGet :
    Memory.wf setting.mem = true ∧ commandFault .setbit setting = none ∧ exec .setbit setting = .next set ∧
      commandFault .getbit set = none := by
  refine ⟨by decide +kernel, by decide +kernel, rfl, by decide +kernel⟩
theorem witness_MfmRingZero : State.reset.mfmN = 0#32 := rfl
theorem witness_MfmDecodeCompletes :
    decoding.mfmN ≠ 0#32 ∧ footprintAllowed .mfmDecode decoding = true ∧ Memory.wf decoding.mem = true ∧
      disjointBytes (readFootprint .mfmDecode decoding) (writeFootprint .mfmDecode decoding) = true := by decide +kernel
theorem witness_MfmEncodeCompletes :
    encoding.mfmN ≠ 0#32 ∧ footprintAllowed .mfmEncode encoding = true ∧ Memory.wf encoding.mem = true ∧
      disjointBytes (linearBytes encoding.mfmSrc.toNat encoding.mfmM.toNat) (writeFootprint .mfmEncode encoding) = true := by
  decide +kernel
/-- V-MFM-16: MFM.ENCODE of the two bits 10 at 0x10 into the ring of 8 bits in the same byte. -/
def inPlace : State :=
  { withBytes [(0x10, 0x80#8)] with mfmSrc := 0x10#32, mfmDst := 0x10#32, mfmN := 8#32, mfmM := 2#32 }
theorem witness_MfmOverlap :
    Memory.wf inPlace.mem = true ∧ inPlace.mfmN ≠ 0#32 ∧ footprintAllowed .mfmEncode inPlace = true ∧
      footprintAllowed .mfmDecode inPlace = true ∧
      disjointBytes (readFootprint .mfmDecode inPlace) (writeFootprint .mfmDecode inPlace) = false := by decide +kernel
/-- V-MFM-16: the second input bit is read after the first turn has overwritten it, so the byte ends as 0x50. -/
theorem test_encodedBits_in_place :
    ∀ k, k < 8 → (encodedBits inPlace 2).1 (8 * 0x10 + k) = (0x50#8).getLsbD (7 - k) := by decide +kernel
theorem witness_MfmCursor :
    commandFault .mfmEncode encoding = none ∧ (∃ t, exec .mfmEncode encoding = .next t) ∧ 1 ≤ encoding.mfmM.toNat ∧
      commandFault .mfmDecode { decoding with mfmM := 0#32 } = none := by
  refine ⟨by decide +kernel, ⟨_, rfl⟩, by decide, by decide +kernel⟩
/-- An MFM command with M = 0, whose prev byte is admitted, above the top of memory, or not admitted. -/
def noBits : State := { encoding with mfmM := 0#32, mfmCursor := 0#32 }
def noBitsTop : State := { noBits with mfmDst := 0xFFFFFFFE#32 }
def noBitsAbsent : State := { noBits with platform := holed 0x22 true }
theorem witness_MfmNoBits :
    (noBits.mfmM = 0#32 ∧ noBits.mfmN ≠ 0#32) ∧
    (0x22 = noBits.mfmDst.toNat + (noBits.mfmCursor.toNat % noBits.mfmN.toNat + noBits.mfmN.toNat - 1) % noBits.mfmN.toNat / 8 ∧
      noBits.platform.admits 0x22 .read = true) ∧
    (noBitsTop.mfmM = 0#32 ∧ noBitsTop.mfmN ≠ 0#32 ∧ 2 ^ 32 = noBitsTop.mfmDst.toNat +
      (noBitsTop.mfmCursor.toNat % noBitsTop.mfmN.toNat + noBitsTop.mfmN.toNat - 1) % noBitsTop.mfmN.toNat / 8) ∧
    (noBitsAbsent.mfmM = 0#32 ∧ noBitsAbsent.mfmN ≠ 0#32 ∧ noBitsAbsent.platform.admits 0x22 .read = false) := by
  decide +kernel
theorem witness_RoundTrip :
    Memory.wf encoding.mem = true ∧ 2 * encoding.mfmM.toNat ≤ encoding.mfmN.toNat ∧
    commandFault .mfmEncode encoding = none ∧ after (exec .mfmEncode encoding) (·.mem) = some decoding.mem ∧
    decoding.mfmSrc = encoding.mfmDst ∧ decoding.mfmN = encoding.mfmN ∧ decoding.mfmM = encoding.mfmM ∧
    decoding.mfmCursor = encoding.mfmCursor ∧ commandFault .mfmDecode decoding = none := by decide +kernel

/-- V-MFM-9: the whole byte 0xB1 at 0x10, its halves at 0x11 and 0x12, a ring of 32 bits at 0x20. -/
def whole : State :=
  { withBytes [(0x10, 0xB1#8), (0x11, 0xB0#8), (0x12, 0x10#8)] with
    mfmSrc := 0x10#32, mfmDst := 0x20#32, mfmN := 32#32, mfmM := 8#32 }
def firstHalf : State := { whole with mfmSrc := 0x11#32, mfmM := 4#32 }
def secondHalf : State :=
  { whole with
    mem := [(0x10, 0xB1#8), (0x11, 0xB0#8), (0x12, 0x10#8), (0x20, 0x45#8)]
    mfmSrc := 0x12#32, mfmM := 4#32, mfmCursor := 8#32 }
theorem witness_Resume :
    Memory.wf whole.mem = true ∧ 1 ≤ firstHalf.mfmM.toNat ∧
    whole.mfmM.toNat = firstHalf.mfmM.toNat + secondHalf.mfmM.toNat ∧ 2 * whole.mfmM.toNat ≤ whole.mfmN.toNat ∧
    after (exec .mfmEncode firstHalf) (fun t => (t.mem, t.mfmCursor)) = some (secondHalf.mem, secondHalf.mfmCursor) ∧
    disjointBytes (linearBytes 0x10 8) (writeFootprint .mfmEncode whole) = true ∧
    disjointBytes (linearBytes 0x11 4) (writeFootprint .mfmEncode whole) = true ∧
    disjointBytes (linearBytes 0x12 4) (writeFootprint .mfmEncode whole) = true ∧
    commandFault .mfmEncode whole = none ∧ commandFault .mfmEncode firstHalf = none ∧
    commandFault .mfmEncode secondHalf = none := by decide +kernel
theorem witness_Resume_bits :
    ∀ i, i < 4 →
      Memory.bit whole.mem (8 * 0x11 + i) = Memory.bit whole.mem (8 * 0x10 + i) ∧
      Memory.bit whole.mem (8 * 0x12 + i) = Memory.bit whole.mem (8 * 0x10 + (4 + i)) := by decide +kernel

theorem witness_CrcBuild :
    ∀ w : BitVec 5, (w = 1#5 ∨ w = 8#5 → 1 ≤ ({ State.reset with crcWidth := w } : State).crcWidth.toNat ∧
        ({ State.reset with crcWidth := w } : State).crcWidth.toNat ≤ State.reset.platform.tableMaxWidth) ∧
      (w = 0#5 ∨ w = 9#5 → ({ State.reset with crcWidth := w } : State).crcWidth.toNat = 0 ∨
        State.reset.platform.tableMaxWidth < ({ State.reset with crcWidth := w } : State).crcWidth.toNat) := by
  decide +kernel
/-- CRC.UPDATE with a table of width 2 (V-CRC-13). -/
def narrow (acc : Half) (data : Byte) : State :=
  { State.reset with table := loadTable 0x8005#16 2#5, crcAcc := acc, crcData := data }
/-- The two nibble indices of CRC.UPDATE. -/
def indices (s : State) : Nat × Nat :=
  let i1 := (s.crcAcc.toNat / 2 ^ 12) ^^^ (s.crcData.toNat / 16)
  (i1, (((s.crcAcc <<< 4) ^^^ s.table.entry i1).toNat / 2 ^ 12) ^^^ (s.crcData.toNat % 16))
theorem witness_CrcUpdate_branches :
    (2 ^ (narrow 0x1111#16 0x40#8).table.tw.toNat ≤ (indices (narrow 0x1111#16 0x40#8)).1) ∧
    (indices (narrow 0#16 0x12#8) = (1, 0xA)) ∧ (indices (narrow 0#16 0x01#8) = (0, 1)) := by decide +kernel
theorem witness_CrcUpdate_wide : 4 ≤ State.reset.table.tw.toNat := by decide

/-- CRC.CHECK of "123456789" with the reset table. -/
def checking : State := { withBytes digits with crcLen := 9#32 }
theorem witness_CrcCheckRuns :
    footprintAllowed .crcCheck checking = true ∧ 4 ≤ checking.table.tw.toNat ∧ State.reset.crcLen = 0#32 ∧
      ∀ j, j < 9 → ByteHeld checking.table (tableBytes checking.table checking.crcInit (bytesAt checking.mem 0 j))
        (Memory.read checking.mem j) := by decide +kernel
/-- V-CRC-15: the third byte is above the top of memory. -/
def checkingTop : State := { State.reset with crcBase := 0xFFFFFFFE#32, crcLen := 3#32 }
/-- V-CRC-16: the third byte is not admitted. -/
def checkingAbsent : State := { State.reset with platform := holed 0x4002 true, crcBase := 0x4000#32, crcLen := 4#32 }
/-- A byte and a table of width `w` that does not hold one of its indices. -/
def checkingNarrow (w : BitVec 5) (b : Byte) : State :=
  { withBytes [(0, b)] with table := loadTable 0x8005#16 w, crcLen := 1#32 }
/-- The bytes before byte `j` complete. -/
def Reached (s : State) (j : Nat) : Prop :=
  ∀ k, k < j → readAllowed s.platform (s.crcBase.toNat + k) = true ∧
    ByteHeld s.table (tableBytes s.table s.crcInit (bytesAt s.mem s.crcBase.toNat k)) (Memory.read s.mem (s.crcBase.toNat + k))
theorem witness_CrcCheckFaults_overflow :
    2 < checkingTop.crcLen.toNat ∧ Reached checkingTop 2 ∧ 2 ^ 32 = checkingTop.crcBase.toNat + 2 := by
  unfold Reached
  decide +kernel
theorem witness_CrcCheckFaults_bus :
    2 < checkingAbsent.crcLen.toNat ∧ Reached checkingAbsent 2 ∧
      checkingAbsent.platform.admits (checkingAbsent.crcBase.toNat + 2) .read = false := by
  unfold Reached
  decide +kernel
/-- V-CRC-14, V-CRC-13: the high nibble of 0x31 with TW = 1, and the low nibble of 0x12 with TW = 2. -/
theorem witness_CrcCheckFaults_index :
    Reached (checkingNarrow 1#5 0x31#8) 0 ∧ readAllowed (checkingNarrow 1#5 0x31#8).platform 0 = true ∧
    ¬ IndexHeld (checkingNarrow 1#5 0x31#8).table 0#16 ((0x31#8).toNat / 16) ∧
    IndexHeld (checkingNarrow 2#5 0x12#8).table 0#16 ((0x12#8).toNat / 16) ∧
    ¬ IndexHeld (checkingNarrow 2#5 0x12#8).table
      (tableNibble (checkingNarrow 2#5 0x12#8).table 0#16 ((0x12#8).toNat / 16)) ((0x12#8).toNat % 16) := by
  unfold Reached
  decide +kernel
theorem witness_TableEntries : (4 ≤ 4 ∧ 4 ≤ 16) ∧ (4 ≤ 16 ∧ 16 ≤ 16) := by decide

/-- V-CRC-9: the digits with their checksum appended, high byte first. -/
def appended : State := { withBytes (digits ++ [(9, 0xFE#8), (10, 0xE8#8)]) with crcLen := 11#32 }
theorem resetTable_loaded : TableLoaded Platform.standard State.reset.table := ⟨by decide, by decide, rfl⟩
theorem witness_Appended :
    TableLoaded checking.platform checking.table ∧ 4 ≤ checking.table.tw.toNat ∧ commandFault .crcCheck checking = none ∧
    after (exec .crcCheck checking) (·.crcAcc) = some 0xFEE8#16 ∧ appended.table = checking.table ∧
    appended.crcInit = checking.crcInit ∧ appended.crcLen.toNat = checking.crcLen.toNat + 2 ∧
    bytesAt appended.mem appended.crcBase.toNat appended.crcLen.toNat =
      bytesAt checking.mem checking.crcBase.toNat checking.crcLen.toNat ++
        [(0xFEE8#16).extractLsb' 8 8, (0xFEE8#16).extractLsb' 0 8] ∧
    commandFault .crcCheck appended = none :=
  ⟨resetTable_loaded, by decide, by decide +kernel, by decide +kernel, rfl, rfl, rfl, by decide +kernel, by decide +kernel⟩

/-- A busy and faulted state with listed memory, which is not the reset state. -/
def busyFaulted : State :=
  { checking with pending := some .crcCheck, faultRec := some ⟨.busyViolation, 0xFF#8, 0x34#32⟩ }
theorem witness_StateInv : StateInv busyFaulted ∧ busyFaulted ≠ State.reset ∧ ∃ t, step busyFaulted = .next t := by
  refine ⟨⟨by decide +kernel, by decide +kernel, resetTable_loaded, ?_⟩, ?_, ⟨_, rfl⟩⟩
  · intro f hf
    cases hf
    decide +kernel
  · intro h
    exact absurd (congrArg State.pending h) (by simp [busyFaulted, State.reset, State.resetOn])
theorem witness_CrcBitwise :
    StateInv checking ∧ 4 ≤ checking.table.tw.toNat ∧ footprintAllowed .crcCheck checking = true := by
  refine ⟨⟨by decide +kernel, by decide +kernel, resetTable_loaded, ?_⟩, by decide, by decide +kernel⟩
  intro f hf
  cases hf
theorem witness_TablePort :
    TableLoaded State.reset.platform State.reset.table ∧ 15 < 2 ^ State.reset.platform.tableMaxWidth ∧
      15 < 2 ^ State.reset.table.tw.toNat ∧ 255 < 2 ^ State.reset.platform.tableMaxWidth ∧
      ¬ 16 < 2 ^ State.reset.table.tw.toNat :=
  ⟨resetTable_loaded, by decide, by decide, by decide, by decide⟩

/-- A faulted, idle block whose host writes a register. -/
def quiet : State :=
  { State.reset with faultRec := some ⟨.illegalCommand, 0x21#8, 0x121#32⟩, script := [⟨.regWrite 0x034 32 0xFFFF#32, false⟩] }
theorem witness_FirstFault : State.reset.faultRec = none ∧ quiet.faultRec ≠ none := by decide +kernel
theorem witness_FaultRecordStays :
    quiet.faultRec = some ⟨.illegalCommand, 0x21#8, 0x121#32⟩ ∧ quiet.pending = none ∧ (∃ t, step quiet = .next t) ∧
      (∀ drawn rest, nextTurn quiet ≠ .host (.reset drawn) rest) ∧
      nextTurn quiet = .host (.regWrite 0x034 32 0xFFFF#32) [] := by
  refine ⟨rfl, rfl, ⟨_, rfl⟩, ?_, rfl⟩
  intro drawn rest h
  simp [nextTurn, quiet, State.reset, State.resetOn] at h
/-- The same block when its host writes a buffer byte. -/
theorem witness_Quiescent_memWrite :
    ({ quiet with script := [⟨.memWrite 0x10#32 1#8, false⟩] } : State).faultRec ≠ none ∧
      nextTurn { quiet with script := [⟨.memWrite 0x10#32 1#8, false⟩] } = .host (.memWrite 0x10#32 1#8) [] ∧
      (∃ t, step { quiet with script := [⟨.memWrite 0x10#32 1#8, false⟩] } = .next t) :=
  ⟨by decide +kernel, rfl, ⟨_, rfl⟩⟩
theorem witness_OperandsStable :
    (contested true).pending = some .nop ∧ nextTurn (contested true) = .host (.regRead 0x004 32) [] ∧
      (∀ drawn, HostOp.regRead 0x004 32 ≠ .reset drawn) ∧ (∃ t, step (contested true) = .next t) := by
  refine ⟨rfl, by decide +kernel, ?_, ⟨_, rfl⟩⟩
  intro drawn h
  cases h
/-- A turn of WAIT, and a host write outside the footprint, while MFM.ENCODE is pending. -/
theorem witness_OperandsStable_wait :
    nextTurn { encoding with pending := some .mfmEncode, script := waitEvents 1 } = .host (.wait 1) [] ∧
      (∃ t, step { encoding with pending := some .mfmEncode, script := waitEvents 1 } = .next t) ∧
      inFootprint .mfmEncode encoding 0x10 = true ∧ inFootprint .mfmEncode encoding 0x11 = false := by
  refine ⟨by decide +kernel, ⟨_, rfl⟩, by decide +kernel, by decide +kernel⟩
theorem witness_OperandsStable_footprint : inFootprint .setbit setting 0x5001 = true := by decide +kernel
theorem witness_HostRead :
    ((8 : Nat) ≠ 32) ∧ ¬ MappedOffset Platform.standard 0x04C ∧ ¬ MappedOffset Platform.standard 0x02E ∧
      MappedOffset Platform.standard 0x048 ∧ MappedOffset Platform.standard 0x103FC := by decide
theorem witness_HostWrite :
    ReadOnlyOffset 0x048 ∧ ReadOnlyOffset 0x10000 ∧ ¬ ReadOnlyOffset 0x044 ∧ MappedOffset Platform.standard 0x044 ∧
      State.reset.faultRec = none ∧ State.reset.pending = none ∧ busyFaulted.pending ≠ none := by decide +kernel
theorem witness_HostReadAt : 255 < 2 ^ State.reset.platform.tableMaxWidth ∧ 15 < 2 ^ State.reset.table.tw.toNat := by decide
theorem witness_HostWriteAt : checking.pending = none ∧ checking.faultRec = none := ⟨rfl, rfl⟩
theorem witness_Registers :
    (⟨0x014, .bitData, .readWrite, 1#32⟩ : RegRow) ∈ regMap ∧ (⟨0x048, .crcTinfo, .readOnly, 0xFFFF001F#32⟩ : RegRow) ∈ regMap := by
  decide
theorem witness_Status :
    State.reset.faultRec = none ∧ busyFaulted.faultRec = some ⟨.busyViolation, 0xFF#8, 0x34#32⟩ := ⟨rfl, rfl⟩
theorem witness_HostBuffer :
    (∀ i, State.reset.pending = some i → inFootprint i State.reset 0 = false) ∧
    busyFaulted.pending = some .crcCheck ∧ inFootprint .crcCheck busyFaulted 8 = true ∧
    inFootprint .crcCheck busyFaulted 9 = false := by
  refine ⟨?_, rfl, by decide +kernel, by decide +kernel⟩
  intro i h
  cases h
theorem witness_Wait :
    ({ contested true with script := waitEvents 2 } : State).pending = some .nop ∧
      ({ contested true with script := waitEvents 2 } : State).script = waitEvents 2 ++ [] ∧ (1 ≤ 2 ∧ 2 ≤ 2) ∧
      ({ State.reset with script := waitEvents 2 } : State).pending = none ∧
      ({ State.reset with script := waitEvents 2 } : State).script = waitEvents 2 ++ [] := by
  refine ⟨rfl, rfl, by decide, rfl, rfl⟩
/-- Both kinds of platform: the default literals, and others (U9). -/
theorem witness_ResetLeaves :
    busyFaulted.platform.polyReset = 0x8005#16 ∧ busyFaulted.platform.initReset = 0x0000#16 ∧ State.reset.pending = none ∧
      after (hostStep (.reset 0) { busyFaulted with
        platform := { Platform.standard with polyReset := 0x1021#16, initReset := 0xFFFF#16 } })
        (fun t => (t.readReg .crcTinfo, t.readReg .crcInit)) = some (0x10210004#32, 0x0000FFFF#32) := by
  decide +kernel
theorem witness_ResetDuring :
    ({ encoding with pending := some .mfmEncode } : State).pending = some .mfmEncode ∧
      (writesOf (commandAccesses .mfmEncode { encoding with pending := some .mfmEncode })).length = 8 ∧
      0x30 ∉ writeFootprint .mfmEncode { encoding with pending := some .mfmEncode } := by decide +kernel

end Sys2Proof.Tests
end

section
/-! The register map row by row, and the host's reads and writes of registers (R17 to R40, R77, R78). -/

namespace Sys2Proof.Machine

/-! ## The register map (R17) -/

/-- A statement about every row of the map is one about each of the 19 rows. -/
theorem forall_mem_regMap {P : RegRow → Prop} : (∀ row ∈ regMap, P row) ↔
    P ⟨0x000, .cmd, .writeOnly, 0xFFFFFFFF#32⟩ ∧ P ⟨0x004, .status, .readOnly, 0x00FFFF03#32⟩ ∧
    P ⟨0x008, .faultInfo, .readOnly, 0xFFFFFFFF#32⟩ ∧ P ⟨0x00C, .bitBase, .readWrite, 0xFFFFFFFF#32⟩ ∧
    P ⟨0x010, .bitIndex, .readWrite, 0xFFFFFFFF#32⟩ ∧ P ⟨0x014, .bitData, .readWrite, 0x00000001#32⟩ ∧
    P ⟨0x018, .mfmSrc, .readWrite, 0xFFFFFFFF#32⟩ ∧ P ⟨0x01C, .mfmDst, .readWrite, 0xFFFFFFFF#32⟩ ∧
    P ⟨0x020, .mfmN, .readWrite, 0xFFFFFFFF#32⟩ ∧ P ⟨0x024, .mfmM, .readWrite, 0xFFFFFFFF#32⟩ ∧
    P ⟨0x028, .mfmCursor, .readWrite, 0xFFFFFFFF#32⟩ ∧ P ⟨0x02C, .crcAcc, .readWrite, 0x0000FFFF#32⟩ ∧
    P ⟨0x030, .crcPoly, .readWrite, 0x0000FFFF#32⟩ ∧ P ⟨0x034, .crcInit, .readWrite, 0x0000FFFF#32⟩ ∧
    P ⟨0x038, .crcWidth, .readWrite, 0x0000001F#32⟩ ∧ P ⟨0x03C, .crcData, .readWrite, 0x000000FF#32⟩ ∧
    P ⟨0x040, .crcBase, .readWrite, 0xFFFFFFFF#32⟩ ∧ P ⟨0x044, .crcLen, .readWrite, 0xFFFFFFFF#32⟩ ∧
    P ⟨0x048, .crcTinfo, .readOnly, 0xFFFF001F#32⟩ := by
  simp only [regMap, List.cons_append, List.nil_append, List.forall_mem_cons, List.not_mem_nil, false_imp_iff, implies_true,
    and_true]

/-- The map finds every one of its rows at the row's own offset, on every platform. -/
theorem regRowAt_of_mem (p : Platform) : ∀ row ∈ regMap, regRowAt p row.off = some row := by
  have hbelow : ∀ row ∈ regMap, ¬ tableWindow ≤ row.off ∧ regMap.find? (fun r => r.off == row.off) = some row := by decide
  intro row hrow
  obtain ⟨hoff, hfind⟩ := hbelow row hrow
  rw [regRowAt, if_neg hoff, hfind]

/-- The assembler writes each row's offset for the row's register (R75). -/
theorem offset_of_mem : ∀ row ∈ regMap, row.reg.offset = row.off := by decide

/-- The table window (R40). -/
theorem regRowAt_table {p : Platform} {i : Nat} (h : i < 2 ^ p.tableMaxWidth) :
    regRowAt p (0x10000 + 4 * i) = some ⟨0x10000 + 4 * i, .crcTable i, .readOnly, 0x0000FFFF#32⟩ := by
  rw [regRowAt, if_pos (Nat.le_add_right ..),
    if_pos (Nat.add_lt_add_left (Nat.mul_lt_mul_of_pos_left h (by omega)) _), Nat.add_sub_cancel_left,
    Nat.mul_div_cancel_left i (by omega)]

/-- An aligned 32-bit access reaches what the map has at its offset (R18). -/
theorem accessedRow_aligned (p : Platform) {off : Nat} (h : off % 4 = 0) : accessedRow p off 32 = regRowAt p off := by
  rw [accessedRow, if_neg (by simp [h])]

theorem accessedRow_of_mem (p : Platform) {row : RegRow} (h : row ∈ regMap) : accessedRow p row.off 32 = some row := by
  have haligned : ∀ row ∈ regMap, row.off % 4 = 0 := by decide
  rw [accessedRow_aligned p (haligned row h), regRowAt_of_mem p row h]

theorem accessedRow_table {p : Platform} {i : Nat} (h : i < 2 ^ p.tableMaxWidth) :
    accessedRow p (0x10000 + 4 * i) 32 = some ⟨0x10000 + 4 * i, .crcTable i, .readOnly, 0x0000FFFF#32⟩ := by
  rw [accessedRow_aligned p (by omega), regRowAt_table h]

/-- An access reaches no register exactly when it is of another width, misaligned or unmapped (R18). -/
theorem accessedRow_none_iff (p : Platform) (off width : Nat) :
    accessedRow p off width = none ↔ (width ≠ 32 ∨ ¬ MappedOffset p off) := by
  rcases accessedRow_cases p off width with ⟨hbad, e⟩ | ⟨hw, h4, hlt, e⟩ | ⟨hw, h4, hge, hlt, e⟩ | ⟨hw, h4, hge, e⟩
  · simp only [e, true_iff]; omega
  · rw [e, regMap_find_none h4]; omega
  · simp only [e, reduceCtorEq, false_iff]; omega
  · simp only [e, true_iff]; omega

theorem accessedRow_mapped {p : Platform} {off width : Nat} {row : RegRow} (h : accessedRow p off width = some row) :
    width = 32 ∧ MappedOffset p off := by
  have hnone : ¬ (width ≠ 32 ∨ ¬ MappedOffset p off) := by
    rw [← accessedRow_none_iff, h]
    exact Option.some_ne_none row
  simpa only [not_or, Decidable.not_not] using hnone

/-- What an access reaches is a row of the map at that offset, or a word of the table window (R17, R40). -/
theorem accessedRow_some {p : Platform} {off width : Nat} {row : RegRow} (h : accessedRow p off width = some row) :
    (row ∈ regMap ∧ row.off = off) ∨ (0x10000 ≤ off ∧ row.mode = .readOnly) := by
  rcases accessedRow_cases p off width with ⟨-, e⟩ | ⟨-, -, -, e⟩ | ⟨-, -, hge, -, e⟩ | ⟨-, -, -, e⟩
  · cases e.symm.trans h
  · have hfind := e.symm.trans h
    exact .inl ⟨List.mem_of_find?_eq_some hfind, by simpa using List.find?_some hfind⟩
  · cases e.symm.trans h
    exact .inr ⟨hge, rfl⟩
  · cases e.symm.trans h

/-- The access modes of the map's rows (R17). -/
theorem regMap_modes : ∀ row ∈ regMap,
    (row.mode = .readOnly ↔ ReadOnlyOffset row.off) ∧ (row.mode = .writeOnly ↔ row.off = 0) := by decide

/-! ## Registers as words (R20) -/

/-- A register of `w` bits reads 0 above them. -/
theorem setWidth_eq_zero_append {w n : Nat} (x : BitVec w) : x.setWidth (n + w) = 0#n ++ x := by
  rw [BitVec.setWidth_eq_append (Nat.le_add_left w n)]
  ext j hj
  simp [BitVec.getElem_append]

/-- The mask of `w` implemented bits. -/
def maskOf (w : Nat) : Word := (BitVec.allOnes w).setWidth 32

theorem setWidth_and_maskOf {w : Nat} (x : BitVec w) : x.setWidth 32 &&& maskOf w = x.setWidth 32 := by
  rw [maskOf, ← BitVec.setWidth_and, BitVec.and_allOnes]

/-- What is kept of a value written to a register of `w` bits is `value & MASK` (R20). -/
theorem setWidth_setWidth_eq_and_maskOf (w : Nat) (v : Word) : (v.setWidth w).setWidth 32 = v &&& maskOf w := by
  ext j hj
  by_cases h : j < w <;> simp [maskOf, h, hj, BitVec.getLsbD_eq_getElem]

/-- CRC_TABLE[i] is T[i], zero-extended, and 0 from 2^TW on (R40). -/
theorem tableWord_eq (s : State) (i : Nat) :
    s.tableWord i = if i < 2 ^ s.table.tw.toNat then 0#16 ++ s.table.entry i else 0#32 := by
  rw [State.tableWord, hi_append_lo]

/-- A word put together from parts is inside a mask put together from their masks. -/
theorem append_and_append {m n : Nat} {x a : BitVec m} {y b : BitVec n} (hx : x &&& a = x) (hy : y &&& b = y) :
    (x ++ y) &&& (a ++ b) = x ++ y := by
  rw [BitVec.and_append, hx, hy]

/-- STATUS reads 0 at its reserved bits (R22). -/
theorem statusWord_and_mask (s : State) : s.statusWord &&& 0x00FFFF03#32 = s.statusWord :=
  append_and_append (a := 0#8) (b := BitVec.allOnes 8 ++ (BitVec.allOnes 8 ++ (0#6 ++ (BitVec.allOnes 1 ++ BitVec.allOnes 1))))
    BitVec.and_self <|
    append_and_append BitVec.and_allOnes <| append_and_append BitVec.and_allOnes <| append_and_append BitVec.and_self <|
    append_and_append BitVec.and_allOnes BitVec.and_allOnes

/-- CRC_TINFO reads 0 at its reserved bits (R39). -/
theorem tinfoWord_and_mask (s : State) : s.tinfoWord &&& 0xFFFF001F#32 = s.tinfoWord :=
  append_and_append (a := BitVec.allOnes 16) (b := 0#11 ++ BitVec.allOnes 5) BitVec.and_allOnes <|
    append_and_append BitVec.and_self BitVec.and_allOnes

/-- The full mask keeps a whole word (R20). -/
theorem and_fullMask (v : Word) : v &&& 0xFFFFFFFF#32 = v := BitVec.and_allOnes

/-- No register reads 1 at a bit outside its mask (R20). -/
theorem readReg_and_mask (s : State) : ∀ row ∈ regMap, s.readReg row.reg &&& row.mask = s.readReg row.reg :=
  forall_mem_regMap.2 ⟨and_fullMask _, statusWord_and_mask s, and_fullMask _, and_fullMask _, and_fullMask _,
    setWidth_and_maskOf s.bitData, and_fullMask _, and_fullMask _, and_fullMask _, and_fullMask _, and_fullMask _,
    setWidth_and_maskOf s.crcAcc, setWidth_and_maskOf s.crcPoly, setWidth_and_maskOf s.crcInit,
    setWidth_and_maskOf s.crcWidth, setWidth_and_maskOf s.crcData, and_fullMask _, and_fullMask _, tinfoWord_and_mask s⟩

/-- A write to a read-write register stores the implemented bits of the value (R20). -/
theorem readReg_writeReg_same (s : State) (v : Word) : ∀ row ∈ regMap, row.mode = .readWrite →
    (s.writeReg row.reg v).readReg row.reg = v &&& row.mask := by
  have hfull := (and_fullMask v).symm
  have hnarrow := fun w => setWidth_setWidth_eq_and_maskOf w v
  exact forall_mem_regMap.2 ⟨nofun, nofun, nofun, fun _ => hfull, fun _ => hfull, fun _ => hnarrow 1, fun _ => hfull,
    fun _ => hfull, fun _ => hfull, fun _ => hfull, fun _ => hfull, fun _ => hnarrow 16, fun _ => hnarrow 16,
    fun _ => hnarrow 16, fun _ => hnarrow 5, fun _ => hnarrow 8, fun _ => hfull, fun _ => hfull, nofun⟩

/-- A write to one register leaves what every other one reads: no two of them share a field of the state, and a register that
is not read-write is not written at all (R20, R67). -/
theorem readReg_writeReg_other (s : State) (v : Word) {r w : Reg} (h : r ≠ w) :
    (s.writeReg w v).readReg r = s.readReg r := by
  cases w <;> cases r <;> first | rfl | exact absurd rfl h

/-! ## The host's register accesses (R77, R78) -/

/-- A read that reaches a register returns it and has no other effect (R77). -/
theorem hostStep_regRead_of_row {s : State} {off width : Nat} {row : RegRow}
    (h : accessedRow s.platform off width = some row) :
    hostStep (.regRead off width) s = .next { s with readData := s.readReg row.reg } := by
  simp [hostStep, hostRegRead, h]

theorem hostStep_regRead_of_mem (s : State) {row : RegRow} (h : row ∈ regMap) :
    hostStep (.regRead row.off 32) s = .next { s with readData := s.readReg row.reg } :=
  hostStep_regRead_of_row (accessedRow_of_mem _ h)

theorem hostStep_regRead_table {s : State} {i : Nat} (h : i < 2 ^ s.platform.tableMaxWidth) :
    hostStep (.regRead (0x10000 + 4 * i) 32) s = .next { s with
      readData := if i < 2 ^ s.table.tw.toNat then 0#16 ++ s.table.entry i else 0#32 } := by
  rw [hostStep_regRead_of_row (accessedRow_table h), State.readReg, tableWord_eq]

/-- A write to a faulted block does nothing (R78). -/
theorem hostRegWrite_of_faulted {s : State} (h : s.faulted = true) (off width : Nat) (v : Word) :
    hostRegWrite off width v s = s := by
  simp [hostRegWrite, h]

/-- A write to a read-write register of an idle block that is not faulted writes that register (R78). -/
theorem hostStep_regWrite_of_mem {s : State} (hp : s.pending = none) (hf : s.faultRec = none) {row : RegRow}
    (h : row ∈ regMap) (hmode : row.mode = .readWrite) (v : Word) :
    hostStep (.regWrite row.off 32 v) s = .next (s.writeReg row.reg v) := by
  simp [hostStep, hostRegWrite, accessedRow_of_mem _ h, hmode, State.faulted, State.busy, hp, hf]

/-! ## STATUS, field by field (R22) -/

/-- A field of a word is known by its bits. -/
theorem extractLsb'_eq_of_bits {n start len : Nat} {w : BitVec n} {x : BitVec len}
    (h : ∀ j, j < len → w.getLsbD (start + j) = x.getLsbD j) : w.extractLsb' start len = x := by
  refine BitVec.eq_of_getLsbD_eq fun j hj => ?_
  rw [BitVec.getLsbD_extractLsb', decide_eq_true hj, Bool.true_and, h j hj]

section Status
variable (s : State)

theorem statusWord_reserved_low : s.statusWord.extractLsb' 2 6 = 0#6 := by
  refine extractLsb'_eq_of_bits fun j hj => ?_
  rw [statusWord_bit, if_neg (by omega), if_neg (by omega), if_pos (by omega), BitVec.getLsbD_zero]

theorem statusWord_faultCode : s.statusWord.extractLsb' 8 8 = s.faultCode := by
  refine extractLsb'_eq_of_bits fun j hj => ?_
  rw [statusWord_bit, if_neg (by omega), if_neg (by omega), if_neg (by omega), if_pos (by omega), Nat.add_sub_cancel_left]

theorem statusWord_faultOp : s.statusWord.extractLsb' 16 8 = s.faultOp := by
  refine extractLsb'_eq_of_bits fun j hj => ?_
  rw [statusWord_bit, if_neg (by omega), if_neg (by omega), if_neg (by omega), if_neg (by omega), if_pos (by omega),
    Nat.add_sub_cancel_left]

theorem statusWord_reserved_high : s.statusWord.extractLsb' 24 8 = 0#8 := by
  refine extractLsb'_eq_of_bits fun j hj => ?_
  rw [statusWord_bit, if_neg (by omega), if_neg (by omega), if_neg (by omega), if_neg (by omega), if_neg (by omega),
    BitVec.getLsbD_zero]

end Status

/-! ## The statements about the registers -/

/-- Settles O4: both directions by what an access can reach, the modes by the rows of the map. -/
theorem accessReachesARegisterExactlyWhenMapped : Obligations.AccessReachesARegisterExactlyWhenMapped := by
  intro p off width
  refine ⟨accessedRow_none_iff p off width, fun row h => ?_⟩
  rcases accessedRow_some h with ⟨hmem, rfl⟩ | ⟨hge, hmode⟩
  · exact regMap_modes row hmem
  · have hread : ReadOnlyOffset off := .inr (.inr (.inr hge))
    have h0 : off ≠ 0 := by omega
    exact ⟨iff_of_true hmode hread, iff_of_false (by simp [hmode]) h0⟩

/-- Settles O40: the port reads the table word, which holds BuildTable's entry in a loaded table. -/
theorem tablePortReadsTheBuiltTable : Obligations.TablePortReadsTheBuiltTable := by
  intro s i ht hi
  rw [hostStep_regRead_table hi, Table.entry, ht.entries, ← setWidth_eq_zero_append]
  rfl

/-- Settles O50: by the rows of the map; a write reaches no other register and no other field. -/
theorem registersKeepOnlyTheirImplementedBits : Obligations.RegistersKeepOnlyTheirImplementedBits := by
  intro s row v hrow
  refine ⟨readReg_and_mask s row hrow, fun hmode => ⟨readReg_writeReg_same s v row hrow hmode,
    fun r hr => readReg_writeReg_other s v hr, ?_⟩⟩
  simp

/-- Settles O51: the fields of STATUS are those of the fault record, whose absence and presence are the two cases. -/
theorem statusShowsBusyAndTheFaultRecord : Obligations.StatusShowsBusyAndTheFaultRecord := by
  rintro s w rfl
  rw [State.readReg, statusWord_faultCode, statusWord_faultOp]
  refine ⟨statusWord_bit s 0, statusWord_bit s 1, statusWord_reserved_low s, statusWord_reserved_high s, fun hnone => ?_,
    fun f hsome => ?_, hostStep_regRead_of_row (accessedRow_status _)⟩
  · simp [State.readReg, State.faultCode, State.faultOp, State.faultInfo, hnone]
  · simp only [State.readReg, State.faultCode, State.faultOp, State.faultInfo, hsome, true_and]
    cases f.code <;> rfl

/-- Settles O5: the 19 rows of the map, the table window, and nothing elsewhere. -/
theorem registerMapHasTheRowsOfTheSpec : Obligations.RegisterMapHasTheRowsOfTheSpec := by
  intro p
  have hrows : ∀ row ∈ regMap, regRowAt p row.off = some row ∧ row.reg.offset = row.off :=
    fun row hrow => ⟨regRowAt_of_mem p row hrow, offset_of_mem row hrow⟩
  have htable : ∀ i, i < 2 ^ p.tableMaxWidth →
      regRowAt p (0x10000 + 4 * i) = some ⟨0x10000 + 4 * i, .crcTable i, .readOnly, 0x0000FFFF#32⟩ ∧
      Reg.offset (.crcTable i) = 0x10000 + 4 * i := fun i hi => ⟨regRowAt_table hi, rfl⟩
  have hnone : ∀ off, ¬ MappedOffset p off → off % 4 = 0 → regRowAt p off = none := fun off hoff h4 => by
    rw [← accessedRow_aligned p h4, accessedRow_none_iff]
    exact .inr hoff
  obtain ⟨cmd, status, faultInfo, bitBase, bitIndex, bitData, mfmSrc, mfmDst, mfmN, mfmM, mfmCursor, crcAcc, crcPoly, crcInit,
    crcWidth, crcData, crcBase, crcLen, crcTinfo⟩ := forall_mem_regMap.1 hrows
  exact ⟨cmd, status, faultInfo, bitBase, bitIndex, bitData, mfmSrc, mfmDst, mfmN, mfmM, mfmCursor, crcAcc, crcPoly, crcInit,
    crcWidth, crcData, crcBase, crcLen, crcTinfo, htable, hnone⟩

/-- Settles O48: a read reaches each row of the map at its offset, and the table window. -/
theorem hostReadAtEachOffsetReturnsThatRegister : Obligations.HostReadAtEachOffsetReturnsThatRegister := by
  intro s reads
  have hrows : ∀ row ∈ regMap, reads row.off (s.readReg row.reg) := fun row hrow => hostStep_regRead_of_mem s hrow
  obtain ⟨cmd, status, faultInfo, bitBase, bitIndex, bitData, mfmSrc, mfmDst, mfmN, mfmM, mfmCursor, crcAcc, crcPoly, crcInit,
    crcWidth, crcData, crcBase, crcLen, crcTinfo⟩ := forall_mem_regMap.1 hrows
  simp only [← setWidth_eq_zero_append s.bitData, ← setWidth_eq_zero_append s.crcAcc, ← setWidth_eq_zero_append s.crcPoly,
    ← setWidth_eq_zero_append s.crcInit, ← setWidth_eq_zero_append s.crcWidth, ← setWidth_eq_zero_append s.crcData]
  exact ⟨cmd, status, faultInfo, bitBase, bitIndex, bitData, mfmSrc, mfmDst, mfmN, mfmM, mfmCursor, crcAcc, crcPoly, crcInit,
    crcWidth, crcData, crcBase, crcLen, crcTinfo, fun i hi => hostStep_regRead_table hi⟩

/-- Settles O49: a write to each read-write row of the map reaches its register. -/
theorem hostWriteAtEachOffsetChangesThatRegisterOnly : Obligations.HostWriteAtEachOffsetChangesThatRegisterOnly := by
  intro s v hp hf writes
  have hrows : ∀ row ∈ regMap, row.mode = .readWrite → writes row.off (s.writeReg row.reg v) :=
    fun row hrow hmode => hostStep_regWrite_of_mem hp hf hrow hmode v
  have hlow : ∀ w, w ≤ 32 → v.extractLsb' 0 w = v.setWidth w := fun w hw => (BitVec.setWidth_eq_extractLsb' hw).symm
  rw [hlow 1 (by decide), hlow 16 (by decide), hlow 5 (by decide), hlow 8 (by decide)]
  obtain ⟨-, -, -, bitBase, bitIndex, bitData, mfmSrc, mfmDst, mfmN, mfmM, mfmCursor, crcAcc, crcPoly, crcInit, crcWidth,
    crcData, crcBase, crcLen, -⟩ := forall_mem_regMap.1 hrows
  exact ⟨bitBase rfl, bitIndex rfl, bitData rfl, mfmSrc rfl, mfmDst rfl, mfmN rfl, mfmM rfl, mfmCursor rfl, crcAcc rfl,
    crcPoly rfl, crcInit rfl, crcWidth rfl, crcData rfl, crcBase rfl, crcLen rfl⟩

end Sys2Proof.Machine
end

section
/-! What a command leaves of the state, which bytes it writes and which faults it raises (R42, R59, R115). -/

namespace Sys2Proof.Machine

/-! ## What a command leaves of the state (R42) -/

/-- The state with everything blanked that some command may change: what is left are the operand registers, the platform, the
host script and the latest read value, which no command writes (R42). -/
def State.inputs (s : State) : State :=
  { s with
    faultRec := none, bitData := 0#1, mfmCursor := 0#32, crcAcc := 0#16, table := ⟨0#5, 0#16, []⟩, pending := none, mem := [] }

/-- Two states agree on `inputs` exactly when they agree on each of its registers. -/
theorem inputs_eq_iff {s t : State} : t.inputs = s.inputs ↔
    t.bitBase = s.bitBase ∧ t.bitIndex = s.bitIndex ∧ t.mfmSrc = s.mfmSrc ∧ t.mfmDst = s.mfmDst ∧ t.mfmN = s.mfmN ∧
      t.mfmM = s.mfmM ∧ t.crcPoly = s.crcPoly ∧ t.crcInit = s.crcInit ∧ t.crcWidth = s.crcWidth ∧ t.crcData = s.crcData ∧
      t.crcBase = s.crcBase ∧ t.crcLen = s.crcLen ∧ t.platform = s.platform ∧ t.script = s.script ∧
      t.readData = s.readData := by
  simp [State.inputs]

@[simp] theorem recordFault_inputs (f : FaultRecord) (s : State) : (recordFault f s).inputs = s.inputs := by
  rw [recordFault_eq]; rfl

@[simp] theorem writeCursor_inputs (o : MfmOperands) (c : Nat) (s : State) : (writeCursor o c s).inputs = s.inputs := by
  rw [writeCursor_eq]; rfl

@[simp] theorem writeCursor_bitData (o : MfmOperands) (c : Nat) (s : State) : (writeCursor o c s).bitData = s.bitData := by
  rw [writeCursor_eq]

@[simp] theorem writeCursor_crcAcc (o : MfmOperands) (c : Nat) (s : State) : (writeCursor o c s).crcAcc = s.crcAcc := by
  rw [writeCursor_eq]

/-- The write column of R42, for the output of one command: each register is written only by the commands that list it. -/
structure WritesOnlyOutputs {α : Type} (i : Instr) (out : α → State → State) : Prop where
  inputs : ∀ a s, (out a s).inputs = s.inputs
  bitData : i ≠ .getbit → ∀ a s, (out a s).bitData = s.bitData
  mfmCursor : i ≠ .mfmDecode → i ≠ .mfmEncode → ∀ a s, (out a s).mfmCursor = s.mfmCursor
  crcAcc : i ≠ .crcReset → i ≠ .crcUpdate → i ≠ .crcCheck → ∀ a s, (out a s).crcAcc = s.crcAcc
  table : i ≠ .crcBuild → ∀ a s, (out a s).table = s.table

/-- Commands without an output register (R42). -/
theorem writesOnlyOutputs_none {α : Type} (i : Instr) : WritesOnlyOutputs i (fun (_ : α) s => s) :=
  ⟨fun _ _ => rfl, fun _ _ _ => rfl, fun _ _ _ _ => rfl, fun _ _ _ _ _ => rfl, fun _ _ _ => rfl⟩

/-- CRC_ACC is the output of three commands (R42). -/
theorem writesOnlyOutputs_crcAcc {i : Instr} (h : i = .crcReset ∨ i = .crcUpdate ∨ i = .crcCheck) :
    WritesOnlyOutputs i (fun (a : Half) s => { s with crcAcc := a }) where
  inputs _ _ := rfl
  bitData _ _ _ := rfl
  mfmCursor _ _ _ _ := rfl
  crcAcc h1 h2 h3 := by rcases h with h | h | h <;> contradiction
  table _ _ _ := rfl

/-- MFM_CURSOR is the output of the MFM commands (R42). -/
theorem writesOnlyOutputs_writeCursor {i : Instr} (h : i = .mfmDecode ∨ i = .mfmEncode) (o : MfmOperands) :
    WritesOnlyOutputs i (writeCursor o) where
  inputs := writeCursor_inputs o
  bitData _ := writeCursor_bitData o
  mfmCursor h1 h2 := by rcases h with h | h <;> contradiction
  crcAcc _ _ _ := writeCursor_crcAcc o
  table _ := writeCursor_table o

/-- Every command performs one body and writes its own output registers only (R42, R81). -/
theorem exec_writesOnlyOutputs (i : Instr) (s : State) :
    ∃ (α : Type) (b : Cmd α) (out : α → State → State), exec i s = .next (perform i b out s) ∧ WritesOnlyOutputs i out := by
  cases i with
  | nop => exact ⟨_, _, _, rfl, writesOnlyOutputs_none _⟩
  | getbit =>
    exact ⟨_, _, _, rfl, fun _ _ => rfl, fun h => absurd rfl h, fun _ _ _ _ => rfl, fun _ _ _ _ _ => rfl, fun _ _ _ => rfl⟩
  | setbit => exact ⟨_, _, _, rfl, writesOnlyOutputs_none _⟩
  | mfmDecode => exact ⟨_, _, _, rfl, writesOnlyOutputs_writeCursor (.inl rfl) _⟩
  | mfmEncode => exact ⟨_, _, _, rfl, writesOnlyOutputs_writeCursor (.inr rfl) _⟩
  | crcBuild =>
    exact ⟨_, _, _, rfl, fun _ _ => rfl, fun _ _ _ => rfl, fun _ _ _ _ => rfl, fun _ _ _ _ _ => rfl, fun h => absurd rfl h⟩
  | crcReset => exact ⟨_, _, _, rfl, writesOnlyOutputs_crcAcc (.inl rfl)⟩
  | crcUpdate => exact ⟨_, _, _, rfl, writesOnlyOutputs_crcAcc (.inr (.inl rfl))⟩
  | crcCheck => exact ⟨_, _, _, rfl, writesOnlyOutputs_crcAcc (.inr (.inr rfl))⟩

/-- What the shared part of performing a command and the command's own output both leave alone, the command leaves alone. -/
theorem perform_keeps {α β : Type} (g : State → β) (hmem : ∀ u m, g (u.setMem m) = g u)
    (hpending : ∀ u, g u.clearPending = g u) (hrec : ∀ f u, g (recordFault f u) = g u) {i : Instr} {b : Cmd α}
    {out : α → State → State} (hout : ∀ a u, g (out a u) = g u) (s : State) : g (perform i b out s) = g s := by
  rcases perform_cases i b out s with ⟨a, w, -, e⟩ | ⟨r, w, -, e⟩
  · rw [e, hpending, hout, hmem]
  · rw [e, hpending, hrec, hmem]

section Exec
variable {i : Instr} {s t : State}

theorem exec_inputs (h : exec i s = .next t) : t.inputs = s.inputs := by
  obtain ⟨α, b, out, e, ho⟩ := exec_writesOnlyOutputs i s
  cases e.symm.trans h
  exact perform_keeps _ (fun _ _ => rfl) (fun _ => rfl) recordFault_inputs ho.inputs s

theorem exec_platform (h : exec i s = .next t) : t.platform = s.platform := by
  obtain ⟨-, -, -, -, -, -, -, -, -, -, -, -, hp, -⟩ := inputs_eq_iff.1 (exec_inputs h)
  exact hp

theorem exec_bitData (h : exec i s = .next t) (hi : i ≠ .getbit) : t.bitData = s.bitData := by
  obtain ⟨α, b, out, e, ho⟩ := exec_writesOnlyOutputs i s
  cases e.symm.trans h
  exact perform_keeps _ (fun _ _ => rfl) (fun _ => rfl) recordFault_bitData (ho.bitData hi) s

theorem exec_mfmCursor (h : exec i s = .next t) (hd : i ≠ .mfmDecode) (he : i ≠ .mfmEncode) :
    t.mfmCursor = s.mfmCursor := by
  obtain ⟨α, b, out, e, ho⟩ := exec_writesOnlyOutputs i s
  cases e.symm.trans h
  exact perform_keeps _ (fun _ _ => rfl) (fun _ => rfl) recordFault_mfmCursor (ho.mfmCursor hd he) s

theorem exec_crcAcc (h : exec i s = .next t) (hr : i ≠ .crcReset) (hu : i ≠ .crcUpdate) (hc : i ≠ .crcCheck) :
    t.crcAcc = s.crcAcc := by
  obtain ⟨α, b, out, e, ho⟩ := exec_writesOnlyOutputs i s
  cases e.symm.trans h
  exact perform_keeps _ (fun _ _ => rfl) (fun _ => rfl) recordFault_crcAcc (ho.crcAcc hr hu hc) s

theorem exec_table (h : exec i s = .next t) (hi : i ≠ .crcBuild) : t.table = s.table := by
  obtain ⟨α, b, out, e, ho⟩ := exec_writesOnlyOutputs i s
  cases e.symm.trans h
  exact perform_keeps _ (fun _ _ => rfl) (fun _ => rfl) recordFault_table (ho.table hi) s

/-- CRC.BUILD leaves a table of a legal width, or the table it found (R105). -/
theorem exec_crcBuild_table (h : exec .crcBuild s = .next t) :
    (1 ≤ s.crcWidth.toNat ∧ s.crcWidth.toNat ≤ s.platform.tableMaxWidth ∧ t.table = loadTable s.crcPoly s.crcWidth) ∨
    t.table = s.table := by
  cases h
  rcases buildBody_cases s.platform s.crcPoly s.crcWidth ⟨s.mem, []⟩ with ⟨⟨hpos, hle⟩, e⟩ | ⟨-, e⟩
  · exact .inl ⟨hpos, hle, by rw [perform_ok e]; rfl⟩
  · exact .inr (by rw [perform_error e]; simp)

end Exec

/-! ## Which bytes a command writes (R59) -/

/-- A command writes only inside the written part of its footprint, and inside the address space. -/
theorem command_writes {i : Instr} {s : State} {c : Host.Cell} (h : c ∈ writesOf (commandAccesses i s)) :
    c.1 ∈ writeFootprint i s ∧ c.1 < addrSpace := by
  obtain ⟨α, b, o, -, hr, hw⟩ := command_body i s
  obtain ⟨l, hl, hP⟩ := hw ⟨s.mem, []⟩
  have hx := mem_writesOf.1 h
  rw [commandAccesses, hr, runBody_work, hl.accesses, List.append_nil, List.mem_reverse] at hx
  obtain ⟨⟨-, hwrite⟩, hlt⟩ := hP _ hx
  exact ⟨hwrite rfl, hlt⟩

section ExecMem
variable {i : Instr} {s t : State}

/-- A command leaves memory with its writes made in order (R60). -/
theorem exec_mem_writes (h : exec i s = .next t) : t.mem = Memory.writeAll s.mem (writesOf (commandAccesses i s)) := by
  rw [exec_mem h, commandRun_mem]

/-- A command with an empty written footprint leaves memory alone. -/
theorem exec_mem_of_writeFootprint_nil (h : exec i s = .next t) (hf : writeFootprint i s = []) : t.mem = s.mem := by
  have hw : writesOf (commandAccesses i s) = [] := by
    refine List.eq_nil_iff_forall_not_mem.2 fun c hc => ?_
    have := (command_writes hc).1
    simp [hf] at this
  rw [exec_mem_writes h, hw, Memory.writeAll_nil]

/-- A command leaves every byte outside its written footprint alone. -/
theorem exec_read_outside (h : exec i s = .next t) {a : Nat} (ha : a ∉ writeFootprint i s) :
    Memory.read t.mem a = Memory.read s.mem a := by
  rw [exec_mem_writes h]
  refine Memory.read_writeAll_other (fun c hc e => ha ?_) _
  rw [← e]
  exact (command_writes hc).1

/-- Memory stays canonical however many of a command's writes are made (R132). -/
theorem memAfterWrites_wf (hm : Memory.wf s.mem = true) (k : Nat) : Memory.wf (memAfterWrites i s k) = true :=
  Memory.writeAll_wf (fun _ hc => (command_writes (List.mem_of_mem_take hc)).2) hm

theorem exec_mem_wf (h : exec i s = .next t) (hm : Memory.wf s.mem = true) : Memory.wf t.mem = true := by
  rw [exec_mem_writes h]
  exact Memory.writeAll_wf (fun _ hc => (command_writes hc).2) hm

end ExecMem

/-! ## Which faults a command raises (R115) -/

/-- What a refused buffer access raises: ADDR_OVERFLOW, or BUS_ERROR with an address that is not admitted (R50, R54). -/
def RefusedAccess (p : Platform) (r : Raise) : Prop :=
  r.code = .addrOverflow ∨ (r.code = .busError ∧ (p.admits r.info.toNat .read = false ∨ p.admits r.info.toNat .write = false))

/-- What a nibble step of a table of width at least 1 raises: TABLE_INDEX with an index from 2 to 15 (R103). -/
def RefusedIndex (r : Raise) : Prop := r.code = .tableIndex ∧ 2 ≤ r.info.toNat ∧ r.info.toNat < 16

/-- What the preamble of an MFM command raises: RING_ZERO with FAULT_INFO 0 (R90). -/
def RingIsZero (r : Raise) : Prop := r.code = .ringZero ∧ r.info = 0#32

theorem trunc32_toNat {a : Nat} (h : a < 2 ^ 32) : (trunc32 a).toNat = a := by
  rw [trunc32, BitVec.toNat_ofNat, Nat.mod_eq_of_lt h]

theorem refusedAccess_overflow (p : Platform) (a : Nat) : RefusedAccess p ⟨.addrOverflow, trunc32 a⟩ := .inl rfl

theorem refusedAccess_read {p : Platform} {a : Nat} (ha : a < addrSpace) (hr : p.admits a .read = false) :
    RefusedAccess p ⟨.busError, trunc32 a⟩ := .inr ⟨rfl, .inl (by rw [trunc32_toNat ha]; exact hr)⟩

theorem refusedAccess_write {p : Platform} {a : Nat} (ha : a < addrSpace) (hw : p.admits a .write = false) :
    RefusedAccess p ⟨.busError, trunc32 a⟩ := .inr ⟨rfl, .inr (by rw [trunc32_toNat ha]; exact hw)⟩

section Raises
variable {α β : Type} {Q Q' : Raise → Prop}

theorem Raises.mono {b : Cmd α} (h : Raises Q b) (hQ : ∀ r, Q r → Q' r) : Raises Q' b :=
  fun w r w' e => hQ r (h w r w' e)

theorem raises_raiseFault {code : FaultCode} {info : Nat} (h : Q ⟨code, trunc32 info⟩) :
    Raises Q (raiseFault code info : Cmd α) := by
  intro w r w' e; cases e; exact h

theorem raises_getBit (p : Platform) (base i : Nat) : Raises (RefusedAccess p) (getBit p base i) := by
  intro w r w' e
  rcases getBit_cases p base i w with ⟨-, h⟩ | ⟨-, h⟩ | ⟨ha, hr, h⟩ <;> cases h.symm.trans e
  · exact refusedAccess_overflow ..
  · exact refusedAccess_read ha hr

theorem raises_setBit (p : Platform) (base i : Nat) (v : Bool) : Raises (RefusedAccess p) (setBit p base i v) := by
  intro w r w' e
  rcases setBit_cases p base i v w with ⟨-, h⟩ | ⟨-, h⟩ | ⟨ha, hr, h⟩ | ⟨ha, -, hw, h⟩ <;> cases h.symm.trans e
  · exact refusedAccess_overflow ..
  · exact refusedAccess_read ha hr
  · exact refusedAccess_write ha hw

/-- A checked address, then a read of it, then the rest. -/
theorem raises_checkedRead {p : Platform} {a : Nat} {f : Byte → Cmd β} (hQ : ∀ r, RefusedAccess p r → Q r)
    (hf : ∀ b, Raises Q (f b)) : Raises Q (checkAddr a >>= fun x => memRead p x >>= f) := by
  intro w r w' e
  rcases checkAddr_cases a w with ⟨ha, hc⟩ | ⟨-, hc⟩
  · rw [cmd_bind_ok hc] at e
    rcases memRead_cases p a w with ⟨-, hm⟩ | ⟨hr, hm⟩
    · rw [cmd_bind_ok hm] at e
      exact hf _ _ _ _ e
    · rw [cmd_bind_error hm] at e
      cases e
      exact hQ _ (refusedAccess_read ha hr)
  · rw [cmd_bind_error hc] at e
    cases e
    exact hQ _ (refusedAccess_overflow p a)

theorem raises_mfmPreamble (o : MfmOperands) : Raises RingIsZero (mfmPreamble o) := by
  intro w r w' e
  rcases mfmPreamble_cases o w with ⟨-, h⟩ | ⟨-, h⟩ <;> cases h.symm.trans e
  exact ⟨rfl, rfl⟩

theorem raises_decodeLoop (p : Platform) (o : MfmOperands) (todo i c : Nat) :
    Raises (RefusedAccess p) (decodeLoop p o todo i c) := by
  induction todo generalizing i c with
  | zero => exact raises_pure c
  | succ todo ih =>
    exact raises_bind (raises_getBit _ _ _) fun clk => raises_bind (raises_getBit _ _ _) fun dat =>
      raises_bind (raises_setBit _ _ _ _) fun _ => ih _ _

theorem raises_encodeLoop (p : Platform) (o : MfmOperands) (todo i c : Nat) (prev : Bool) :
    Raises (RefusedAccess p) (encodeLoop p o todo i c prev) := by
  induction todo generalizing i c prev with
  | zero => exact raises_pure c
  | succ todo ih =>
    exact raises_bind (raises_getBit _ _ _) fun b => raises_bind (raises_setBit _ _ _ _) fun _ =>
      raises_bind (raises_setBit _ _ _ _) fun _ => ih _ _ _

theorem raises_decodeBody (p : Platform) (o : MfmOperands) :
    Raises (fun r => RingIsZero r ∨ RefusedAccess p r) (decodeBody p o) :=
  raises_bind ((raises_mfmPreamble o).mono fun _ => .inl) fun _ => (raises_decodeLoop _ _ _ _ _).mono fun _ => .inr

theorem raises_encodeBody (p : Platform) (o : MfmOperands) :
    Raises (fun r => RingIsZero r ∨ RefusedAccess p r) (encodeBody p o) :=
  raises_bind ((raises_mfmPreamble o).mono fun _ => .inl) fun _ =>
    raises_bind ((raises_getBit _ _ _).mono fun _ => .inr) fun _ => (raises_encodeLoop _ _ _ _ _ _).mono fun _ => .inr

theorem raises_nibbleStep {t : Table} (ht : 1 ≤ t.tw.toNat) (a : Half) (n : Nibble) :
    Raises RefusedIndex (nibbleStep t a n) := by
  intro w r w' e
  rcases nibbleStep_cases t a n w with ⟨-, h⟩ | ⟨hge, h⟩ <;> cases h.symm.trans e
  have hlt := nibbleIndex_lt a n
  have h2 : 2 ^ 1 ≤ 2 ^ t.tw.toNat := Nat.pow_le_pow_right (by omega) ht
  have hinfo : (trunc32 (nibbleIndex a n)).toNat = nibbleIndex a n := trunc32_toNat (by omega)
  exact ⟨rfl, by rw [hinfo]; omega, by rw [hinfo]; exact hlt⟩

theorem raises_byteUpdate {t : Table} (ht : 1 ≤ t.tw.toNat) (a : Half) (b : Byte) :
    Raises RefusedIndex (byteUpdate t a b) :=
  raises_bind (raises_nibbleStep ht _ _) fun _ => raises_nibbleStep ht _ _

theorem raises_checkLoop {p : Platform} {t : Table} (ht : 1 ≤ t.tw.toNat) (todo addr : Nat) (a : Half) :
    Raises (fun r => RefusedAccess p r ∨ RefusedIndex r) (checkLoop p t todo addr a) := by
  induction todo generalizing addr a with
  | zero => exact raises_pure a
  | succ todo ih =>
    exact raises_checkedRead (fun _ => .inl) fun b =>
      raises_bind ((raises_byteUpdate ht a b).mono fun _ => .inr) fun _ => ih _ _

end Raises

/-- A fault raised by this command makes a record that R115 allows. -/
def LegalRaise (p : Platform) (i : Instr) (r : Raise) : Prop := FaultRecord.legal p ⟨r.code, i.opcode, r.info⟩ = true

theorem RefusedAccess.legal {p : Platform} {i : Instr} {r : Raise} (h : RefusedAccess p r)
    (hi : accessingOps.contains i.opcode = true) : LegalRaise p i r := by
  obtain ⟨code, info⟩ := r
  rcases h with rfl | ⟨rfl, h⟩
  · exact hi
  · simpa only [LegalRaise, FaultRecord.legal, hi, Bool.true_and, Bool.or_eq_true, Bool.not_eq_true'] using h

theorem RefusedIndex.legal {p : Platform} {i : Instr} {r : Raise} (h : RefusedIndex r)
    (hi : i = .crcUpdate ∨ i = .crcCheck) : LegalRaise p i r := by
  obtain ⟨code, info⟩ := r
  obtain ⟨rfl, h2, h16⟩ := h
  rcases hi with rfl | rfl <;> simp [LegalRaise, FaultRecord.legal, Instr.opcode, h2, h16]

theorem RingIsZero.legal {p : Platform} {i : Instr} {r : Raise} (h : RingIsZero r)
    (hi : i = .mfmDecode ∨ i = .mfmEncode) : LegalRaise p i r := by
  obtain ⟨code, info⟩ := r
  obtain ⟨rfl, rfl⟩ := h
  rcases hi with rfl | rfl <;> rfl

theorem raises_buildBody (p : Platform) (poly : Half) (width : BitVec 5) :
    Raises (LegalRaise p .crcBuild) (buildBody p poly width) := by
  intro w r w' e
  rcases buildBody_cases p poly width w with ⟨-, h⟩ | ⟨hw, h⟩ <;> cases h.symm.trans e
  have hlt : width.toNat < 32 := width.isLt
  have hinfo : (trunc32 width.toNat).toNat = width.toNat := trunc32_toNat (by omega)
  have hzero : trunc32 width.toNat = 0#32 ↔ width.toNat < 1 := by
    rw [← BitVec.toNat_inj, hinfo]; exact Nat.lt_one_iff.symm
  simpa [LegalRaise, FaultRecord.legal, Instr.opcode, hinfo, hzero, hlt] using hw

/-- A body that raises only faults of one kind ends its run with a fault of that kind. -/
theorem Raises.runBody {α : Type} {Q : Raise → Prop} {b : Cmd α} (h : Raises Q b) {m : Memory} {r : Raise}
    (e : (runBody b m).1 = some r) : Q r := by
  unfold Machine.runBody at e
  cases hb : b ⟨m, []⟩ with
  | ok a w => simp [hb] at e
  | error r' w =>
    simp only [hb, Option.some.injEq] at e
    exact e ▸ h _ _ _ hb

/-- Every fault a command raises against a loaded table makes a record that R115 allows. -/
theorem commandFault_legal {i : Instr} {s : State} {r : Raise} (ht : 1 ≤ s.table.tw.toNat)
    (h : commandFault i s = some r) : LegalRaise s.platform i r := by
  cases i with
  | nop => cases h
  | getbit => exact ((raises_getBit _ _ _).runBody h).legal rfl
  | setbit => exact ((raises_setBit _ _ _ _).runBody h).legal rfl
  | mfmDecode => exact ((raises_decodeBody _ _).runBody h).elim (·.legal (.inl rfl)) (·.legal rfl)
  | mfmEncode => exact ((raises_encodeBody _ _).runBody h).elim (·.legal (.inr rfl)) (·.legal rfl)
  | crcBuild => exact (raises_buildBody _ _ _).runBody h
  | crcReset => cases h
  | crcUpdate => exact ((raises_byteUpdate ht _ _).runBody h).legal (.inl rfl)
  | crcCheck => exact ((raises_checkLoop ht _ _ _).runBody h).elim (·.legal rfl) (·.legal (.inr rfl))

end Sys2Proof.Machine
end

section
/-! The machine's invariant and the fault record along every step (R44, R45, R115), and the frame of the commands (R42). -/

namespace Sys2Proof.Machine

/-! ## The invariant, and what the host's moves do to it and to the fault record -/

/-- The invariant depends on four fields of the state only. -/
theorem StateInv.congr {s t : State} (h : StateInv s) (hp : t.platform = s.platform) (hm : t.mem = s.mem)
    (ht : t.table = s.table) (hf : t.faultRec = s.faultRec) : StateInv t where
  platform := by rw [hp]; exact h.platform
  memory := by rw [hm]; exact h.memory
  table := by rw [hp, ht]; exact h.table
  fault := by rw [hp, hf]; exact h.fault

/-- The record after a fault that R115 allows is one that R115 allows, whether or not one was recorded before (R116). -/
theorem StateInv.getD_legal {s : State} {f : FaultRecord} (h : StateInv s)
    (hf : s.faultRec = none → f.legal s.platform = true) : (s.faultRec.getD f).legal s.platform = true := by
  cases hs : s.faultRec with
  | none => exact hf hs
  | some g => exact h.fault g hs

/-- Recording a fault that R115 allows keeps the invariant. -/
theorem StateInv.recordFault {s : State} {f : FaultRecord} (h : StateInv s)
    (hf : s.faultRec = none → f.legal s.platform = true) : StateInv (recordFault f s) where
  platform := by rw [recordFault_platform]; exact h.platform
  memory := by rw [recordFault_mem]; exact h.memory
  table := by rw [recordFault_platform, recordFault_table]; exact h.table
  fault g hg := by
    rw [recordFault_platform]
    rw [recordFault_faultRec, Option.some.injEq] at hg
    exact hg ▸ h.getD_legal hf

theorem platform_wf_iff {p : Platform} :
    p.wf = true ↔ 4 ≤ p.tableMaxWidth ∧ p.tableMaxWidth ≤ 16 ∧ p.regions.all Region.wf = true := by
  simp [Platform.wf, and_assoc]

/-- On a legal platform every offset that an access reaches is below 2^32, so FAULT_INFO holds it whole (R17, R116). -/
theorem mappedOffset_lt {p : Platform} (hp : p.wf = true) {off : Nat} (h : MappedOffset p off) : off < 2 ^ 32 := by
  obtain ⟨-, h16, -⟩ := platform_wf_iff.1 hp
  have hpow : 2 ^ p.tableMaxWidth ≤ 2 ^ 16 := Nat.pow_le_pow_right (by omega) h16
  omega

theorem regAccess_legal (p : Platform) (info : Word) : FaultRecord.legal p ⟨.regAccess, 0xFF#8, info⟩ = true := rfl

theorem busyViolation_legal {p : Platform} (hp : p.wf = true) {off width : Nat} {row : RegRow}
    (h : accessedRow p off width = some row) : FaultRecord.legal p ⟨.busyViolation, 0xFF#8, trunc32 off⟩ = true := by
  obtain ⟨rfl, hoff⟩ := accessedRow_mapped h
  simp [FaultRecord.legal, trunc32_toNat (mappedOffset_lt hp hoff), h]

theorem illegalCommand_legal {p : Platform} {w : Word} {e : DecodeError} (h : decode w = .error e) :
    FaultRecord.legal p ⟨.illegalCommand, opField w, w⟩ = true := by
  simp [FaultRecord.legal, h]

/-- The table that reset loads has width 4, which every legal platform has (R7, R131). -/
theorem resetOn_inv {p : Platform} (hp : p.wf = true) {m : Memory} (hm : Memory.wf m = true) (script : List HostEvent)
    (d : Word) : StateInv (State.resetOn p m script d) where
  platform := hp
  memory := hm
  table := loadTable_loaded (by decide) (platform_wf_iff.1 hp).1
  fault := by simp

theorem hostRegRead_inv {s : State} (h : StateInv s) (off width : Nat) : StateInv (hostRegRead off width s) := by
  rcases hostRegRead_cases off width s with ⟨-, e⟩ | ⟨row, -, e⟩
  · rw [e]
    exact (h.recordFault fun _ => regAccess_legal _ _).congr rfl rfl rfl rfl
  · rw [e]
    exact h.congr rfl rfl rfl rfl

theorem issue_inv {s : State} (h : StateInv s) (w : Word) : StateInv (issue w s) := by
  rcases issue_cases w s with ⟨i, -, e⟩ | ⟨err, hd, e⟩
  · rw [e]
    exact h.congr rfl rfl rfl rfl
  · rw [e]
    exact h.recordFault fun _ => illegalCommand_legal hd

theorem hostRegWrite_inv {s : State} (h : StateInv s) (off width : Nat) (v : Word) :
    StateInv (hostRegWrite off width v s) := by
  rcases hostRegWrite_cases off width v s with ⟨-, e⟩ | ⟨-, -, e⟩ | ⟨-, -, ⟨row, hrow, -⟩, e⟩ | ⟨-, -, -, e⟩ | ⟨-, -, row, -, -, e⟩
  · rw [e]; exact h
  · rw [e]; exact h.recordFault fun _ => regAccess_legal _ _
  · rw [e]; exact h.recordFault fun _ => busyViolation_legal h.platform hrow
  · rw [e]; exact issue_inv h v
  · rw [e]; exact h.congr (by simp) (by simp) (by simp) (by simp)

/-- Reset gives a legal state from any legal state, also during a command (R131, R132). -/
theorem applyReset_inv {s : State} (h : StateInv s) (drawn : Nat) : StateInv (applyReset drawn s) := by
  refine resetOn_inv h.platform ?_ _ _
  cases s.pending with
  | none => exact h.memory
  | some i => exact memAfterWrites_wf h.memory drawn

/-- The host's moves keep the invariant. -/
theorem hostStep_inv {s t : State} {op : HostOp} (h : StateInv s) (e : hostStep op s = .next t) : StateInv t := by
  rcases hostStep_cases e with ⟨off, width, -, rfl⟩ | ⟨off, width, v, -, rfl⟩ | ⟨polls, -, rfl⟩ | ⟨a, -, -, rfl⟩ |
    ⟨a, v, -, -, rfl⟩ | ⟨d, -, rfl⟩
  · exact hostRegRead_inv h off width
  · exact hostRegWrite_inv h off width v
  · rw [hostWait_eq]; exact h.congr rfl rfl rfl rfl
  · exact h.congr rfl rfl rfl rfl
  · exact { h with memory := Memory.write_wf h.memory a.isLt v }
  · exact applyReset_inv h d

/-- The codec's perform step keeps the invariant. -/
theorem exec_inv {s t : State} {i : Instr} (h : StateInv s) (e : exec i s = .next t) : StateInv t where
  platform := by rw [exec_platform e]; exact h.platform
  memory := exec_mem_wf e h.memory
  table := by
    rw [exec_platform e]
    by_cases hi : i = .crcBuild
    · subst hi
      rcases exec_crcBuild_table e with ⟨hpos, hle, ht⟩ | ht
      · rw [ht]; exact loadTable_loaded hpos hle
      · rw [ht]; exact h.table
    · rw [exec_table e hi]; exact h.table
  fault f hf := by
    rw [exec_platform e]
    rw [exec_faultRec e] at hf
    cases hc : commandFault i s with
    | none => rw [hc] at hf; exact h.fault f hf
    | some r =>
      rw [hc, Option.some.injEq] at hf
      exact hf ▸ h.getD_legal fun _ => commandFault_legal h.table.width_pos hc

/-- A command keeps a recorded fault, whether it completes or faults again (R44, R79). -/
theorem exec_keeps_fault {s t : State} {i : Instr} {f : FaultRecord} (hf : s.faultRec = some f)
    (e : exec i s = .next t) : t.faultRec = some f := by
  rw [exec_faultRec e, hf]
  cases commandFault i s <;> rfl

/-- A host move keeps a recorded fault, unless it is reset (R44, R122). -/
theorem hostStep_keeps_fault {s t : State} {op : HostOp} {f : FaultRecord} (hf : s.faultRec = some f)
    (e : hostStep op s = .next t) : t.faultRec = some f ∨ ∃ drawn, op = .reset drawn := by
  rcases hostStep_cases e with ⟨off, width, -, rfl⟩ | ⟨off, width, v, -, rfl⟩ | ⟨polls, -, rfl⟩ | ⟨a, -, -, rfl⟩ |
    ⟨a, v, -, -, rfl⟩ | ⟨d, rfl, rfl⟩
  · rcases hostRegRead_cases off width s with ⟨-, e⟩ | ⟨row, -, e⟩ <;> rw [e] <;> left <;> simp [hf]
  · left
    have hfaulted : s.faulted = true := by simp [State.faulted, hf]
    rw [hostRegWrite_of_faulted hfaulted, hf]
  · rw [hostWait_eq]; exact .inl hf
  · exact .inl hf
  · exact .inl hf
  · exact .inr ⟨d, rfl⟩

/-! ## The statements about every step and every command -/

/-- Settles O58: by cases on whose move the step is; the host's moves and the perform step each keep the invariant. -/
theorem everyStepKeepsTheInvariant : Obligations.EveryStepKeepsTheInvariant := by
  intro s t hs hstep
  rcases step_cases s with ⟨-, e⟩ | ⟨i, -, e⟩ | ⟨op, rest, -, e⟩
  · cases e.symm.trans hstep
    exact hs
  · exact exec_inv hs (e.symm.trans hstep)
  · have hrest : StateInv { s with script := rest } := hs.congr rfl rfl rfl rfl
    exact hostStep_inv hrest (e.symm.trans hstep)

/-- Settles O42: by cases on whose move the step is; only the host's reset clears the record. -/
theorem faultRecordStaysUntilReset : Obligations.FaultRecordStaysUntilReset := by
  intro s t f hf hstep
  rcases step_cases s with ⟨-, e⟩ | ⟨i, -, e⟩ | ⟨op, rest, hturn, e⟩
  · cases e.symm.trans hstep
    exact .inl hf
  · exact .inl (exec_keeps_fault hf (e.symm.trans hstep))
  · rcases hostStep_keeps_fault (s := { s with script := rest }) hf (e.symm.trans hstep) with h | ⟨drawn, rfl⟩
    · exact .inl h
    · exact .inr ⟨drawn, rest, hturn⟩

/-- Settles O11: the registers by the outputs of each command, memory by its writes inside the footprint. -/
theorem commandsWriteOnlyTheirOutputRegisters : Obligations.CommandsWriteOnlyTheirOutputRegisters := by
  intro i s t h
  refine ⟨inputs_eq_iff.1 (exec_inputs h), exec_bitData h, exec_mfmCursor h, exec_crcAcc h, exec_table h, ?_,
    fun a ha => exec_read_outside h ha⟩
  intro hset hdec henc
  have hnil : writeFootprint i s = [] := by
    cases i <;> first | contradiction | rfl
  exact exec_mem_of_writeFootprint_nil h hnil

end Sys2Proof.Machine
end

section
/-! What the accesses of a command are: inside its footprint (R59), and, for a command whose addresses depend on no byte read, the
longest allowed beginning of a plan (R54, R60). What the bit commands and the MFM commands leave in buffer memory. -/

namespace Sys2Proof.Machine

/-! ## Accesses and the footprint (R59) -/

/-- Every access of a command is in its footprint, and inside the address space. -/
theorem command_accesses {i : Instr} {s : State} {x : Access} (h : x ∈ commandAccesses i s) :
    InFootprint i s x ∧ x.addr < addrSpace := by
  obtain ⟨α, b, out, -, hrun, hwithin⟩ := command_body i s
  obtain ⟨l, hl, hP⟩ := hwithin ⟨s.mem, []⟩
  rw [commandAccesses, hrun, runBody_work, hl.accesses, List.append_nil, List.mem_reverse] at h
  exact hP x h

/-- Settles O13: the body of every command accesses bytes of its footprint only. -/
theorem accessesStayInTheFootprint : Obligations.AccessesStayInTheFootprint := by
  intro i s x hx
  obtain ⟨⟨hmem, hwrite⟩, hlt⟩ := command_accesses hx
  exact ⟨hlt, hmem, hwrite⟩

/-! ## Bodies that follow a plan of accesses (R54, R60) -/

/-- An access without the byte that it carries. -/
def Access.place (x : Access) : AccessKind × Nat := (x.kind, x.addr)

/-- The fault a body ended with. -/
def faultOf {α : Type} : EStateM.Result Raise Work α → Option Raise
  | .ok _ _ => none
  | .error r _ => some r

@[simp] theorem faultOf_ok {α : Type} (a : α) (w : Work) : faultOf (.ok a w : EStateM.Result Raise Work α) = none := rfl

@[simp] theorem faultOf_error {α : Type} (r : Raise) (w : Work) :
    faultOf (.error r w : EStateM.Result Raise Work α) = some r := rfl

theorem runBody_fault {α : Type} (b : Cmd α) (m : Memory) : (runBody b m).1 = faultOf (b ⟨m, []⟩) := by
  unfold runBody
  cases b ⟨m, []⟩ <;> rfl

/-- The fault of a plan: that of its first access that is not allowed. -/
def planFault (p : Platform) (plan : List (AccessKind × Nat)) : Option Raise :=
  (plan.find? fun x => !accessAllowed p x).map accessFault

theorem planFault_eq_none {p : Platform} {plan : List (AccessKind × Nat)} :
    planFault p plan = none ↔ ∀ x ∈ plan, accessAllowed p x = true := by
  simp [planFault]

theorem planFault_append (p : Platform) (plan plan' : List (AccessKind × Nat)) :
    planFault p (plan ++ plan') = (planFault p plan).or (planFault p plan') := by
  simp only [planFault, List.find?_append, Option.map_or]

/-- From a working state, the result has added the longest allowed beginning of the plan, and has the plan's fault. -/
structure EndsAsPlanned {α : Type} (p : Platform) (plan : List (AccessKind × Nat)) (w : Work)
    (r : EStateM.Result Raise Work α) : Prop where
  accesses : ∃ l, (workOf r).accesses = l ++ w.accesses ∧ l.reverse.map Access.place = plan.takeWhile (accessAllowed p)
  fault : faultOf r = planFault p plan

/-- The body makes the accesses of the plan in order, up to the first that is not allowed, and raises that one's fault. -/
def Follows {α : Type} (p : Platform) (plan : List (AccessKind × Nat)) (b : Cmd α) : Prop :=
  ∀ w, EndsAsPlanned p plan w (b w)

section Follows
variable {α β : Type} {p : Platform} {plan plan' : List (AccessKind × Nat)}

theorem follows_pure (a : α) : Follows p [] (pure a : Cmd α) := fun _ => ⟨⟨[], rfl, rfl⟩, rfl⟩

/-- A body whose continuation makes the same accesses whatever it is given follows the two plans one after the other. -/
theorem Follows.bind {x : Cmd α} {f : α → Cmd β} (hx : Follows p plan x) (hf : ∀ a, Follows p plan' (f a)) :
    Follows p (plan ++ plan') (x >>= f) := by
  intro w
  obtain ⟨⟨l, hl, hplan⟩, hfault⟩ := hx w
  cases h : x w with
  | error r w1 =>
    -- the first plan is cut short, so the second one does not begin
    rw [h] at hl hfault
    rw [cmd_bind_error h]
    refine ⟨⟨l, hl, ?_⟩, by rw [planFault_append, ← hfault]; rfl⟩
    rw [hplan, List.takeWhile_append, if_neg]
    intro hlen
    have hall := List.takeWhile_eq_self_iff.1 ((List.takeWhile_sublist _).eq_of_length hlen)
    rw [planFault_eq_none.2 hall] at hfault
    cases hfault
  | ok a w1 =>
    rw [h] at hl hfault
    rw [cmd_bind_ok h]
    have hall : ∀ y ∈ plan, accessAllowed p y = true := planFault_eq_none.1 hfault.symm
    obtain ⟨⟨l', hl', hplan'⟩, hfault'⟩ := hf a w1
    have hl1 : w1.accesses = l ++ w.accesses := hl
    refine ⟨⟨l' ++ l, by rw [hl', hl1, List.append_assoc], ?_⟩, by rw [hfault', planFault_append, ← hfault]; rfl⟩
    rw [List.takeWhile_append_of_pos hall, ← hplan', List.reverse_append, List.map_append, hplan,
      List.takeWhile_eq_self_iff.2 hall]

theorem accessFault_overflow {k : AccessKind} {a : Nat} (h : addrSpace ≤ a) :
    accessFault (k, a) = ⟨.addrOverflow, trunc32 a⟩ := by
  rw [accessFault, if_pos h, trunc32]

theorem accessFault_refused {k : AccessKind} {a : Nat} (h : a < addrSpace) :
    accessFault (k, a) = ⟨.busError, trunc32 a⟩ := by
  rw [accessFault, if_neg (Nat.not_le.2 h), trunc32]

theorem accessAllowed_iff {k : AccessKind} {a : Nat} :
    accessAllowed p (k, a) = true ↔ a < addrSpace ∧ p.admits a k = true := by
  simp [accessAllowed]

theorem accessAllowed_eq_false {k : AccessKind} {a : Nat} (h : addrSpace ≤ a ∨ p.admits a k = false) :
    accessAllowed p (k, a) = false := by
  rw [Bool.eq_false_iff, Ne, accessAllowed_iff]
  rintro ⟨hlt, hadm⟩
  rcases h with h | h
  · omega
  · simp [h] at hadm

/-- A body that ends at the first access of its plan, because it is not allowed, makes none. -/
theorem endsAsPlanned_refused {x : AccessKind × Nat} (h : accessAllowed p x = false) (w : Work) :
    EndsAsPlanned p (x :: plan) w (.error (accessFault x) w : EStateM.Result Raise Work α) :=
  ⟨⟨[], rfl, by simp [h]⟩, by simp [planFault, h]⟩

/-- GetBit reads its byte (R52). -/
theorem follows_getBit (base i : Nat) : Follows p [(.read, byteAddr base i)] (getBit p base i) := by
  intro w
  rcases getBit_cases p base i w with ⟨ha, e⟩ | ⟨ha, e⟩ | ⟨ha, hr, e⟩
  · have hread : accessAllowed p (.read, byteAddr base i) = true := ha
    exact e ▸ ⟨⟨[_], rfl, by simp [Access.place, hread]⟩, by simp [planFault, hread]⟩
  · rw [e, ← accessFault_overflow (k := .read) ha]
    exact endsAsPlanned_refused (accessAllowed_eq_false (.inl ha)) w
  · rw [e, ← accessFault_refused (k := .read) ha]
    exact endsAsPlanned_refused (accessAllowed_eq_false (.inr hr)) w

/-- SetBit reads its byte, then writes it (R53). -/
theorem follows_setBit (base i : Nat) (v : Bool) :
    Follows p [(.read, byteAddr base i), (.write, byteAddr base i)] (setBit p base i v) := by
  intro w
  rcases setBit_cases p base i v w with ⟨ha, e⟩ | ⟨ha, e⟩ | ⟨ha, hr, e⟩ | ⟨ha, hr, hw, e⟩
  · obtain ⟨hlt, hr, hw⟩ := (updateAllowed_iff ..).1 ha
    have hread := accessAllowed_iff.2 ⟨hlt, hr⟩
    have hwrite := accessAllowed_iff.2 ⟨hlt, hw⟩
    exact e ▸ ⟨⟨[_, _], rfl, by simp [Access.place, hread, hwrite]⟩, by simp [planFault, hread, hwrite]⟩
  · rw [e, ← accessFault_overflow (k := .read) ha]
    exact endsAsPlanned_refused (accessAllowed_eq_false (.inl ha)) w
  · rw [e, ← accessFault_refused (k := .read) ha]
    exact endsAsPlanned_refused (accessAllowed_eq_false (.inr hr)) w
  · have hread := accessAllowed_iff.2 ⟨ha, hr⟩
    have hwrite := accessAllowed_eq_false (.inr hw)
    exact e ▸ ⟨⟨[_], rfl, by simp [Access.place, hread, hwrite]⟩,
      by simp [planFault, hread, hwrite, accessFault_refused ha]⟩

/-- A command whose body follows a plan makes the longest allowed beginning of it and raises the plan's fault. -/
theorem Follows.command {i : Instr} {s : State} {b : Cmd α} (h : Follows s.platform plan b)
    (hrun : commandRun i s = runBody b s.mem) :
    accessOrder i s = plan.takeWhile (accessAllowed s.platform) ∧ commandFault i s = planFault s.platform plan := by
  obtain ⟨⟨l, hl, hplan⟩, hfault⟩ := h ⟨s.mem, []⟩
  constructor
  · rw [accessOrder, commandAccesses, hrun, runBody_work, hl, List.append_nil]
    exact hplan
  · rw [commandFault, hrun, runBody_fault, hfault]

end Follows

/-! ## The plans of the MFM commands (R93, R95) -/

section Plans
variable (s : State)

/-- The accesses of turn `i` of MFM.DECODE (R93). -/
def decodeTurn (i : Nat) : List (AccessKind × Nat) :=
  [(.read, byteAddr s.mfm.src ((s.mfm.cursor + 2 * i) % s.mfm.n)),
   (.read, byteAddr s.mfm.src ((s.mfm.cursor + 2 * i + 1) % s.mfm.n)),
   (.read, byteAddr s.mfm.dst i), (.write, byteAddr s.mfm.dst i)]

/-- The accesses of turn `i` of MFM.ENCODE (R95). -/
def encodeTurn (i : Nat) : List (AccessKind × Nat) :=
  [(.read, byteAddr s.mfm.src i),
   (.read, byteAddr s.mfm.dst ((s.mfm.cursor + 2 * i) % s.mfm.n)),
   (.write, byteAddr s.mfm.dst ((s.mfm.cursor + 2 * i) % s.mfm.n)),
   (.read, byteAddr s.mfm.dst ((s.mfm.cursor + 2 * i + 1) % s.mfm.n)),
   (.write, byteAddr s.mfm.dst ((s.mfm.cursor + 2 * i + 1) % s.mfm.n))]

theorem decodePlan_eq : decodePlan s = (List.range s.mfm.m).flatMap (decodeTurn s) := rfl

theorem encodePlan_eq : encodePlan s =
    (.read, byteAddr s.mfm.dst (prevPosition s.mfm.n s.mfm.start)) :: (List.range s.mfm.m).flatMap (encodeTurn s) := rfl

variable {s} {p : Platform}

/-- The working cursor after one access of turn `i`, and at the start of the turn after it (R91). -/
theorem advance_in_turn {n c cursor i : Nat} (hc : c = (cursor + 2 * i) % n) :
    advance n c = (cursor + 2 * i + 1) % n ∧ advance n (advance n c) = (cursor + 2 * (i + 1)) % n := by
  subst hc
  simp only [advance, Nat.mod_add_mod]
  exact ⟨trivial, rfl⟩

/-- The decode loop from turn `i` follows the turns that are left. -/
theorem follows_decodeLoop {todo i c : Nat} (hc : c = (s.mfm.cursor + 2 * i) % s.mfm.n) :
    Follows p ((List.range' i todo).flatMap (decodeTurn s)) (decodeLoop p s.mfm todo i c) := by
  induction todo generalizing i c with
  | zero => exact follows_pure c
  | succ todo ih =>
    obtain ⟨hnext, hturn⟩ := advance_in_turn hc
    rw [List.range'_succ, List.flatMap_cons, decodeTurn, ← hnext, ← hc]
    exact (follows_getBit _ _).bind fun clk => (follows_getBit _ _).bind fun dat =>
      (follows_setBit _ _ _).bind fun _ => ih hturn

/-- The encode loop from turn `i` follows the turns that are left. -/
theorem follows_encodeLoop {todo i c : Nat} (hc : c = (s.mfm.cursor + 2 * i) % s.mfm.n) (prev : Bool) :
    Follows p ((List.range' i todo).flatMap (encodeTurn s)) (encodeLoop p s.mfm todo i c prev) := by
  induction todo generalizing i c prev with
  | zero => exact follows_pure c
  | succ todo ih =>
    obtain ⟨hnext, hturn⟩ := advance_in_turn hc
    rw [List.range'_succ, List.flatMap_cons, encodeTurn, ← hnext, ← hc]
    exact (follows_getBit _ _).bind fun b => (follows_setBit _ _ _).bind fun _ =>
      (follows_setBit _ _ _).bind fun _ => ih hturn _

theorem follows_decodeBody (hn : s.mfm.n ≠ 0) : Follows p (decodePlan s) (decodeBody p s.mfm) := by
  intro w
  rcases mfmPreamble_cases s.mfm w with ⟨h, -⟩ | ⟨-, e⟩
  · exact absurd h hn
  · rw [decodeBody, cmd_bind_ok e, decodePlan_eq, List.range_eq_range']
    exact follows_decodeLoop rfl w

theorem follows_encodeBody (hn : s.mfm.n ≠ 0) : Follows p (encodePlan s) (encodeBody p s.mfm) := by
  intro w
  rcases mfmPreamble_cases s.mfm w with ⟨h, -⟩ | ⟨-, e⟩
  · exact absurd h hn
  · rw [encodeBody, cmd_bind_ok e, encodePlan_eq, List.range_eq_range']
    exact (follows_getBit _ _).bind (fun prev => follows_encodeLoop rfl prev) w

end Plans

/-- Settles O14: each turn of a loop follows its own part of the plan, so the whole body follows the whole plan. -/
theorem mfmMakesItsAccessesInOrderUpToTheFirstRefused : Obligations.MfmMakesItsAccessesInOrderUpToTheFirstRefused := by
  intro s hn
  rw [mfmN_ne_zero] at hn
  exact ⟨(follows_decodeBody hn).command rfl, (follows_encodeBody hn).command rfl⟩

/-! ## When the plans are admitted (R54, R59) -/

/-- A byte may be updated exactly when SetBit's two accesses of it are allowed (R53). -/
theorem updateAllowed_iff_accessAllowed {p : Platform} {a : Nat} : updateAllowed p a = true ↔
    accessAllowed p (.read, a) = true ∧ accessAllowed p (.write, a) = true := by
  simp only [updateAllowed_iff, accessAllowed_iff]
  exact ⟨fun ⟨hlt, hr, hw⟩ => ⟨⟨hlt, hr⟩, hlt, hw⟩, fun ⟨⟨hlt, hr⟩, _, hw⟩ => ⟨hlt, hr, hw⟩⟩

theorem readAllowed_iff_accessAllowed {p : Platform} {a : Nat} :
    readAllowed p a = true ↔ accessAllowed p (.read, a) = true := Iff.rfl

/-- A property of the first 2M ring positions, pair by pair. -/
theorem forall_lt_two_mul {m : Nat} {P : Nat → Prop} :
    (∀ k, k < 2 * m → P k) ↔ ∀ i, i < m → P (2 * i) ∧ P (2 * i + 1) := by
  constructor
  · exact fun h i hi => ⟨h _ (by omega), h _ (by omega)⟩
  · intro h k hk
    obtain ⟨heven, hodd⟩ := h (k / 2) (by omega)
    rcases Nat.mod_two_eq_zero_or_one k with hk2 | hk2
    · rwa [show 2 * (k / 2) = k by omega] at heven
    · rwa [show 2 * (k / 2) + 1 = k by omega] at hodd

theorem forall_mem_turns {m : Nat} {turn : Nat → List (AccessKind × Nat)} {P : AccessKind × Nat → Prop} :
    (∀ x ∈ (List.range m).flatMap turn, P x) ↔ ∀ i, i < m → ∀ x ∈ turn i, P x := by
  simp only [List.mem_flatMap, List.mem_range, forall_exists_index, and_imp]
  exact ⟨fun h i hi x hx => h x i hi hx, fun h x i hi hx => h i hi x hx⟩

theorem forall_mem_linearBytes {base count : Nat} {P : Nat → Prop} :
    (∀ a ∈ linearBytes base count, P a) ↔ ∀ i, i < count → P (byteAddr base i) := by
  simp [linearBytes]

theorem forall_mem_ringBytes {o : MfmOperands} {base : Nat} {P : Nat → Prop} :
    (∀ a ∈ ringBytes o base, P a) ↔ ∀ i, i < o.m →
      P (byteAddr base ((o.cursor + 2 * i) % o.n)) ∧ P (byteAddr base ((o.cursor + 2 * i + 1) % o.n)) := by
  have hpairs := forall_lt_two_mul (m := o.m) (P := fun k => P (byteAddr base ((o.cursor + k) % o.n)))
  simpa [ringBytes, start_add_mod, Nat.add_assoc] using hpairs

section Admitted
variable {s : State}

/-- The plan's accesses are reads of the ring bytes and updates of the output bytes (R59). -/
theorem footprintAllowed_mfmDecode (hn : s.mfm.n ≠ 0) :
    footprintAllowed .mfmDecode s = true ↔ ∀ x ∈ decodePlan s, accessAllowed s.platform x = true := by
  simp only [footprintAllowed_iff, readFootprint, writeFootprint, if_neg hn, forall_mem_linearBytes, forall_mem_ringBytes,
    decodePlan_eq, forall_mem_turns, decodeTurn, List.forall_mem_cons, updateAllowed_iff_accessAllowed,
    readAllowed_iff_accessAllowed]
  simp only [List.not_mem_nil, false_imp_iff, implies_true, and_true, and_assoc, ← forall_and]

/-- The plan's accesses are the read of prev, reads of the input bytes and updates of the ring bytes (R59). -/
theorem footprintAllowed_mfmEncode (hn : s.mfm.n ≠ 0) :
    footprintAllowed .mfmEncode s = true ↔ ∀ x ∈ encodePlan s, accessAllowed s.platform x = true := by
  simp only [footprintAllowed_iff, readFootprint, writeFootprint, if_neg hn, forall_mem_linearBytes, forall_mem_ringBytes,
    encodePlan_eq, forall_mem_turns, encodeTurn, List.forall_mem_cons, updateAllowed_iff_accessAllowed,
    readAllowed_iff_accessAllowed]
  simp only [List.not_mem_nil, false_imp_iff, implies_true, and_true, and_assoc, ← forall_and]

/-- A body that follows a plan completes exactly when the whole plan is allowed. -/
theorem Follows.commandFault_eq_none {α : Type} {i : Instr} {b : Cmd α} {plan : List (AccessKind × Nat)}
    (h : Follows s.platform plan b) (hrun : commandRun i s = runBody b s.mem) :
    commandFault i s = none ↔ ∀ x ∈ plan, accessAllowed s.platform x = true := by
  rw [(h.command hrun).2, planFault_eq_none]

theorem commandFault_getbit : commandFault .getbit s = none ↔ footprintAllowed .getbit s = true := by
  rw [(follows_getBit s.bitBase.toNat s.bitIndex.toNat).commandFault_eq_none (i := .getbit) rfl]
  simp [footprintAllowed_iff, readFootprint, writeFootprint, readAllowed_iff_accessAllowed]

theorem commandFault_setbit : commandFault .setbit s = none ↔ footprintAllowed .setbit s = true := by
  rw [(follows_setBit s.bitBase.toNat s.bitIndex.toNat s.bitValue).commandFault_eq_none (i := .setbit) rfl]
  simp [footprintAllowed_iff, readFootprint, writeFootprint, updateAllowed_iff_accessAllowed]

/-- With ring length 0 both MFM commands fault before any access (R90). -/
theorem mfm_n_ne_zero_of_completes {i : Instr} (hi : i = .mfmDecode ∨ i = .mfmEncode) (h : commandFault i s = none) :
    s.mfm.n ≠ 0 := by
  rcases hi with rfl | rfl
  · obtain ⟨c, w, e⟩ := runBody_fault_none.1 h
    exact (decodeBody_eq_ok.1 e).1.ne'
  · obtain ⟨c, w, e⟩ := runBody_fault_none.1 h
    exact (encodeBody_eq_ok.1 e).1.ne'

theorem commandFault_mfm {i : Instr} (hi : i = .mfmDecode ∨ i = .mfmEncode) (hn : s.mfm.n ≠ 0) :
    commandFault i s = none ↔ footprintAllowed i s = true := by
  rcases hi with rfl | rfl
  · rw [(follows_decodeBody hn).commandFault_eq_none rfl, footprintAllowed_mfmDecode hn]
  · rw [(follows_encodeBody hn).commandFault_eq_none rfl, footprintAllowed_mfmEncode hn]

end Admitted

/-- Settles O15: a command completes exactly when its plan is allowed, which is when its footprint is. -/
theorem bufferCommandsCompleteExactlyWhenAdmitted : Obligations.BufferCommandsCompleteExactlyWhenAdmitted := by
  intro s
  refine ⟨?_, fun i hi => ?_⟩
  · rintro i (rfl | rfl)
    · exact commandFault_getbit
    · exact commandFault_setbit
  · rw [mfmN_ne_zero]
    constructor
    · intro h
      have hn := mfm_n_ne_zero_of_completes hi h
      exact ⟨hn, (commandFault_mfm hi hn).1 h⟩
    · rintro ⟨hn, ha⟩
      exact (commandFault_mfm hi hn).2 ha

/-! ## The buffer bits the commands leave (R53, R138) -/

/-- Settles O18: the byte SETBIT writes back differs from the byte it read in the addressed bit only. -/
theorem setbitChangesOneBit : Obligations.SetbitChangesOneBit := by
  intro s hm ha
  have hbyte : updateAllowed s.platform (byteAddr s.bitBase.toNat s.bitIndex.toNat) = true :=
    (footprintAllowed_iff.1 ha).2 _ (List.mem_singleton.2 rfl)
  have hbody : setbitBody s ⟨s.mem, []⟩ = .ok () _ := setBit_eq_ok.2 ⟨hbyte, rfl⟩
  refine ⟨_, congrArg Host.Outcome.next (perform_ok hbody), fun j => ?_⟩
  exact bit_after_setBit hm s.bitBase.toNat s.bitIndex.toNat j s.bitValue

/-- Settles O25: the loop's turns are those of `decodedBits`, from the memory and the cursor the command starts with. -/
theorem mfmDecodeOfOverlappingBuffersFollowsTheAccessOrder :
    Obligations.MfmDecodeOfOverlappingBuffersFollowsTheAccessOrder := by
  intro s hm hn ha
  obtain ⟨c, w, hbody⟩ := decodeBody_completes (mfmN_ne_zero.1 hn) ha
  obtain ⟨-, hloop⟩ := decodeBody_eq_ok.1 hbody
  refine ⟨_, congrArg Host.Outcome.next (perform_ok hbody), fun j => ?_⟩
  have hbits := decodeLoop_turns rfl hm (fun _ => rfl) hloop j
  rw [Nat.zero_add] at hbits
  rw [clearPending_mem, writeCursor_mem, setMem_mem]
  exact hbits

/-- Settles O26: the loop's turns are those of `encodedBits`, and the prev bit read first is the one they start from. -/
theorem mfmEncodeOfOverlappingBuffersFollowsTheAccessOrder :
    Obligations.MfmEncodeOfOverlappingBuffersFollowsTheAccessOrder := by
  intro s hm hn ha
  obtain ⟨c, w, hbody⟩ := encodeBody_completes (mfmN_ne_zero.1 hn) ha
  obtain ⟨-, prev, w1, hprev, hloop⟩ := encodeBody_eq_ok.1 hbody
  obtain ⟨-, rfl, rfl⟩ := getBit_eq_ok.1 hprev
  refine ⟨_, congrArg Host.Outcome.next (perform_ok hbody), fun j => ?_⟩
  have hbits := encodeLoop_turns rfl hm (fun _ => rfl) rfl hloop j
  rw [Nat.zero_add] at hbits
  rw [clearPending_mem, writeCursor_mem, setMem_mem]
  exact hbits

end Sys2Proof.Machine
end

section
/-! The fields of a command word, the decoder and the encoder (R68 to R73), and the CMD write of an illegal word (R72). -/

namespace Sys2Proof.Machine

/-! ## The fields of a word (R68) -/

/-- A word is its RSV field above its OP field. -/
theorem rsvField_append_opField (w : Word) : rsvField w ++ opField w = w :=
  (BitVec.extractLsb'_append_extractLsb'_eq_extractLsb' rfl).trans BitVec.extractLsb'_eq_self

theorem word_eq_of_fields {w v : Word} (hrsv : rsvField w = rsvField v) (hop : opField w = opField v) : w = v := by
  rw [← rsvField_append_opField w, hrsv, hop, rsvField_append_opField]

/-- The row of every command in the opcode map (R69). -/
theorem opcodeRow (i : Instr) : Laws.OpcodeRow.Statement i := by
  cases i
  exacts [Laws.OpcodeRow.nop, Laws.OpcodeRow.getbit, Laws.OpcodeRow.setbit, Laws.OpcodeRow.mfmDecode,
    Laws.OpcodeRow.mfmEncode, Laws.OpcodeRow.crcBuild, Laws.OpcodeRow.crcReset, Laws.OpcodeRow.crcUpdate,
    Laws.OpcodeRow.crcCheck]

@[simp] theorem rsvField_encode (i : Instr) : rsvField (encode i) = 0#24 := (opcodeRow i).1

@[simp] theorem opField_encode (i : Instr) : opField (encode i) = i.opcode := (opcodeRow i).2.1

/-- A word is a command's exactly when RSV is 0 and OP is the command's opcode (R68, R69). -/
theorem eq_encode_iff {w : Word} {i : Instr} : w = encode i ↔ rsvField w = 0#24 ∧ opField w = i.opcode := by
  constructor
  · rintro rfl
    exact ⟨rsvField_encode i, opField_encode i⟩
  · rintro ⟨hrsv, hop⟩
    exact word_eq_of_fields (hrsv.trans (rsvField_encode i).symm) (hop.trans (opField_encode i).symm)

/-! ## The opcode map (R69) -/

/-- Each row of the map pairs a command with the command's own opcode. -/
theorem opcode_of_mem_opcodeMap : ∀ row ∈ opcodeMap, row.1 = row.2.opcode := by decide

/-- Every command has a row in the map. -/
theorem mem_opcodeMap (i : Instr) : (i.opcode, i) ∈ opcodeMap := by
  obtain ⟨-, -, hrow⟩ := opcodeRow i
  exact List.mem_of_mem_filter (hrow ▸ List.mem_singleton_self (i.opcode, i))

/-- No opcode stands for two commands. -/
theorem opcode_injective {i j : Instr} (h : i.opcode = j.opcode) : i = j := by
  have hrows : ∀ x ∈ opcodeMap, ∀ y ∈ opcodeMap, x.1 = y.1 → x.2 = y.2 := by decide
  exact hrows _ (mem_opcodeMap i) _ (mem_opcodeMap j) h

/-- A lookup in the map finds the command whose opcode it is asked for. -/
theorem opcodeMap_find_opcode (i : Instr) :
    opcodeMap.find? (fun row => row.1 == i.opcode) = some (i.opcode, i) := by
  cases hfind : opcodeMap.find? (fun row => row.1 == i.opcode) with
  | none =>
    have hne := List.find?_eq_none.1 hfind _ (mem_opcodeMap i)
    exact absurd (beq_self_eq_true i.opcode) hne
  | some row =>
    have hop : row.1 = i.opcode := by simpa using List.find?_some hfind
    have hrow := opcode_of_mem_opcodeMap row (List.mem_of_find?_eq_some hfind)
    exact congrArg some (Prod.ext hop (opcode_injective (hrow.symm.trans hop)))

/-! ## The decoder (R72, R73) -/

/-- A non-zero RSV field is refused whatever OP holds (R72). -/
theorem decode_of_rsvField_ne_zero {w : Word} (h : rsvField w ≠ 0#24) : decode w = .error .reservedNotZero := if_pos h

/-- With RSV = 0 the row that the map has for OP decides (R69, R72). -/
theorem decode_of_rsvField_eq_zero {w : Word} (h : rsvField w = 0#24) :
    (∃ i, opField w = i.opcode ∧ decode w = .ok i) ∨
    ((∀ i : Instr, opField w ≠ i.opcode) ∧ decode w = .error .unknownOpcode) := by
  rw [decode, if_neg fun hne : rsvField w ≠ 0 => hne h]
  cases hfind : opcodeMap.find? (fun row => row.1 == opField w) with
  | none =>
    refine .inr ⟨fun i hop => ?_, rfl⟩
    rw [hop, opcodeMap_find_opcode] at hfind
    cases hfind
  | some row =>
    have hop : row.1 = opField w := by simpa using List.find?_some hfind
    exact .inl ⟨row.2, hop.symm.trans (opcode_of_mem_opcodeMap row (List.mem_of_find?_eq_some hfind)), rfl⟩

theorem decode_encode (i : Instr) : decode (encode i) = .ok i := by
  rcases decode_of_rsvField_eq_zero (rsvField_encode i) with ⟨j, hop, hdec⟩ | ⟨hne, -⟩
  · have hij : i = j := opcode_injective ((opField_encode i).symm.trans hop)
    exact hdec.trans (congrArg Except.ok hij.symm)
  · exact absurd (opField_encode i) (hne i)

theorem decode_eq_ok_iff {w : Word} {i : Instr} : decode w = .ok i ↔ w = encode i := by
  constructor
  · intro h
    by_cases hrsv : rsvField w = 0#24
    · rcases decode_of_rsvField_eq_zero hrsv with ⟨j, hop, hdec⟩ | ⟨-, hdec⟩
      · cases hdec.symm.trans h
        exact eq_encode_iff.2 ⟨hrsv, hop⟩
      · cases hdec.symm.trans h
    · cases (decode_of_rsvField_ne_zero hrsv).symm.trans h
  · rintro rfl
    exact decode_encode i

/-- Settles O1: the fields of a word decide both whether it is a command's and how the decoder answers. -/
theorem decodeAcceptsExactlyTheCommandWords : Obligations.DecodeAcceptsExactlyTheCommandWords := by
  refine ⟨fun w i => decode_eq_ok_iff, fun w hne => ?_⟩
  change decode w = .error (if rsvField w ≠ 0#24 then .reservedNotZero else .unknownOpcode)
  by_cases hrsv : rsvField w = 0#24
  · rw [if_neg (not_not_intro hrsv)]
    rcases decode_of_rsvField_eq_zero hrsv with ⟨i, hop, -⟩ | ⟨-, hdec⟩
    · exact absurd (eq_encode_iff.2 ⟨hrsv, hop⟩) (hne i)
    · exact hdec
  · rw [if_pos hrsv]
    exact decode_of_rsvField_ne_zero hrsv

/-- Settles O2: the nine words are the words of the nine commands. -/
theorem nineWordsDecodeToTheirCommands : Obligations.NineWordsDecodeToTheirCommands :=
  ⟨decode_encode .nop, decode_encode .getbit, decode_encode .setbit, decode_encode .mfmDecode, decode_encode .mfmEncode,
    decode_encode .crcBuild, decode_encode .crcReset, decode_encode .crcUpdate, decode_encode .crcCheck⟩

/-! ## The CMD write (R72, R80) -/

/-- A CMD write to an idle block that is not faulted issues the word (R78, R80). -/
theorem hostStep_cmdWrite {s : State} (hp : s.pending = none) (hf : s.faultRec = none) (w : Word) :
    hostStep (.regWrite 0x000 32 w) s = .next (issue w s) := by
  simp [hostStep, hostRegWrite, State.faulted, State.busy, hp, hf]

/-- Settles O9: such a word is no command's, so issuing it records the fault, the first one. -/
theorem illegalWordFaultsAtTheCmdWrite : Obligations.IllegalWordFaultsAtTheCmdWrite := by
  intro s w hp hf hillegal
  rw [hostStep_cmdWrite hp hf]
  rcases issue_cases w s with ⟨i, hdec, -⟩ | ⟨e, -, hissue⟩
  · obtain ⟨hrsv, hop⟩ := eq_encode_iff.1 (decode_eq_ok_iff.1 hdec)
    have hmem : opField w ∈ opcodeMap.map Prod.fst := hop ▸ List.mem_map_of_mem (mem_opcodeMap i)
    rcases hillegal with hne | hunknown
    · exact absurd hrsv hne
    · exact absurd hmem hunknown
  · rw [hissue, recordFault_eq, hf]
    rfl

end Sys2Proof.Machine
end

section
/-! The assembler's lines (R75, R76), the loop of WAIT (R76, R143), and what a pending command sees of the host (R61, R70). -/

namespace Sys2Proof.Machine

/-! ## The assembler (R75, R76) -/

/-- Every register name is a word of the table window or has a row of the map (R17). -/
theorem reg_cases (r : Reg) : (∃ i, r = .crcTable i) ∨ ∃ row ∈ regMap, row.reg = r := by
  cases r
  case crcTable i => exact .inl ⟨i, rfl⟩
  all_goals exact .inr (by decide)

/-- Settles O3: a name of the map reaches its row, and a table index of the platform its word of the window. -/
theorem assembledOffsetReachesItsRegister : Obligations.AssembledOffsetReachesItsRegister := by
  intro p r _ hr
  rcases reg_cases r with ⟨i, rfl⟩ | ⟨row, hrow, rfl⟩
  · have hi : i < 2 ^ p.tableMaxWidth := by simpa [Reg.wf] using hr
    exact ⟨_, accessedRow_table hi, rfl, rfl⟩
  · rw [offset_of_mem row hrow]
    exact ⟨row, accessedRow_of_mem p hrow, rfl, rfl⟩

/-- Settles O53: by the expansions; CMD's offset is that of its row of the map. -/
theorem assemblerLinesExpandToTheirTransactions : Obligations.AssemblerLinesExpandToTheirTransactions := by
  intro early r v i polls
  have hcmd : Reg.offset .cmd = 0x000 := offset_of_mem ⟨0x000, .cmd, .writeOnly, 0xFFFFFFFF#32⟩ (by decide)
  refine ⟨rfl, rfl, ?_, rfl, rfl, rfl⟩
  rw [expandAsm, writeOp, hcmd]

/-! ## The host while a command is pending (R61, R70, R78) -/

theorem busy_of_pending {s : State} {i : Instr} (hp : s.pending = some i) : s.busy = true := by
  rw [State.busy, hp]
  rfl

theorem busy_of_idle {s : State} (hp : s.pending = none) : s.busy = false := by
  rw [State.busy, hp]
  rfl

/-- A register write to a block that is not idle changes the fault record at most (R78). -/
theorem hostRegWrite_of_busy {s : State} (hb : s.busy = true) (off width : Nat) (v : Word) :
    hostRegWrite off width v s = { s with faultRec := (hostRegWrite off width v s).faultRec } := by
  rcases hostRegWrite_cases off width v s with ⟨-, e⟩ | ⟨-, -, e⟩ | ⟨-, -, -, e⟩ | ⟨-, hidle, -⟩ | ⟨-, hidle, -⟩
  · rw [e]
  · rw [e, recordFault_eq]
  · rw [e, recordFault_eq]
  · cases hb.symm.trans hidle
  · cases hb.symm.trans hidle

/-- A register read changes the latest read value and the fault record at most (R77). -/
theorem hostRegRead_frame (off width : Nat) (s : State) :
    hostRegRead off width s =
      { s with readData := (hostRegRead off width s).readData, faultRec := (hostRegRead off width s).faultRec } := by
  rcases hostRegRead_cases off width s with ⟨-, e⟩ | ⟨row, -, e⟩
  · rw [e, recordFault_eq]
  · rw [e]

/-- The duty of a buffer access while a command is pending is to keep out of its footprint (R61). -/
theorem breachesDuty_of_pending {s : State} {i : Instr} (hp : s.pending = some i) (a : Word) :
    breachesDuty a s = inFootprint i s a.toNat := by
  rw [breachesDuty, hp]

/-- Settles O45: by what each host action can do; a buffer write that is not refused is outside the footprint. -/
theorem operandsAreStableWhileBusy : Obligations.OperandsAreStableWhileBusy := by
  intro s t i op rest hp hturn hreset hstep
  have hhost : hostStep op { s with script := rest } = .next t := by rwa [step, hturn] at hstep
  have hbusy : State.busy { s with script := rest } = true := busy_of_pending hp
  rcases hostStep_cases hhost with ⟨off, width, rfl, rfl⟩ | ⟨off, width, v, rfl, rfl⟩ | ⟨polls, rfl, rfl⟩ | ⟨b, rfl, -, rfl⟩ |
    ⟨b, v, rfl, hduty, rfl⟩ | ⟨d, rfl, -⟩
  · rw [hostRegRead_frame]
    exact ⟨rfl, fun _ _ => rfl⟩
  · rw [hostRegWrite_of_busy hbusy]
    exact ⟨rfl, fun _ _ => rfl⟩
  · rw [hostWait_eq, if_pos hbusy]
    exact ⟨rfl, fun _ _ => rfl⟩
  · exact ⟨rfl, fun _ _ => rfl⟩
  · refine ⟨rfl, fun a ha => Memory.read_write_other s.mem v ?_⟩
    rintro rfl
    have hout : inFootprint i s b.toNat = false := (breachesDuty_of_pending hp b).symm.trans hduty
    cases ha.symm.trans hout
  · exact absurd rfl (hreset d)

/-! ## Whose turn it is (R81, U7) -/

/-- The host moves while no command is pending, or where its next action is placed before the perform step. -/
theorem step_eq_hostStep {s : State} {e : HostEvent} {rest : List HostEvent} (hs : s.script = e :: rest)
    (h : s.pending = none ∨ e.early = true) : step s = hostStep e.op { s with script := rest } := by
  have hturn : nextTurn s = .host e.op rest := by
    rcases nextTurn_cases s with ⟨-, -, hnil⟩ | ⟨i, -, hp, hnil | ⟨e', rest', hcons, hlate⟩⟩ | ⟨e', rest', hturn, hcons, -⟩
    · cases hs.symm.trans hnil
    · cases hs.symm.trans hnil
    · cases hs.symm.trans hcons
      simp [hp, hlate] at h
    · cases hs.symm.trans hcons
      exact hturn
  rw [step, hturn]

/-- The codec moves while a command is pending, unless the host's next action is placed before the perform step. -/
theorem step_eq_exec {s : State} {i : Instr} (hp : s.pending = some i) (h : ∀ e ∈ s.script.head?, e.early = false) :
    step s = exec i s := by
  have hturn : nextTurn s = .codec i := by
    rcases nextTurn_cases s with ⟨-, hnone, -⟩ | ⟨j, hturn, hj, -⟩ | ⟨e, rest, -, hcons, hfirst⟩
    · cases hp.symm.trans hnone
    · cases hp.symm.trans hj
      exact hturn
    · have hlate := h e (by simp [hcons])
      simp [hp, hlate] at hfirst
  rw [step, hturn]

/-- A perform step always gives a next state, with nothing pending and the host's script as it was (R42, R81). -/
theorem exec_next (i : Instr) (s : State) : ∃ t, exec i s = .next t ∧ t.pending = none ∧ t.script = s.script := by
  obtain ⟨α, body, out, e, -⟩ := exec_writesOnlyOutputs i s
  obtain ⟨-, -, -, -, -, -, -, -, -, -, -, -, -, hscript, -⟩ := inputs_eq_iff.1 (exec_inputs e)
  exact ⟨_, e, perform_pending i body out s, hscript⟩

/-! ## The loop of WAIT (R76, R143) -/

/-- Bit 0 of STATUS is BUSY (R22). -/
theorem status_busy (s : State) : (s.readReg .status).getLsbD 0 = s.busy := statusWord_bit s 0

/-- A turn of WAIT placed before the perform step sees BUSY = 1: the loop stands in the script again. -/
theorem step_wait_of_busy {s : State} {n : Nat} {rest : List HostEvent} (hb : s.busy = true)
    (hs : s.script = waitEvents (n + 1) ++ rest) :
    step s = .next { s with script := waitEvents n ++ rest, readData := s.readReg .status } := by
  have hloop : decide (1 < n + 1) = decide (0 < n) := decide_eq_decide.2 (by omega)
  have hcons : s.script = ⟨.wait (n + 1), decide (0 < n + 1)⟩ :: rest := hs
  rw [step_eq_hostStep hcons (.inr (decide_eq_true n.succ_pos)), hostStep, hostWait_eq,
    if_pos (show State.busy { s with script := rest } = true from hb), hloop]
  rfl

/-- A turn of WAIT with nothing pending sees BUSY = 0 and is the last. -/
theorem step_wait_of_idle {s : State} {n : Nat} {rest : List HostEvent} (hp : s.pending = none)
    (hs : s.script = waitEvents n ++ rest) :
    step s = .next { s with script := rest, readData := s.readReg .status } := by
  have hb : ¬ State.busy { s with script := rest } = true := Bool.eq_false_iff.1 (busy_of_idle hp)
  have hcons : s.script = ⟨.wait n, decide (0 < n)⟩ :: rest := hs
  rw [step_eq_hostStep hcons (.inl hp), hostStep, hostWait_eq, if_neg hb]
  rfl

/-- One step more of a run that has come to `t` is a step from `t`. -/
theorem run_succ {M : Host.Core} {k : Nat} {s t : M.State} (h : Host.Core.run M k s = .next t) :
    Host.Core.run M (k + 1) s = M.step t := by
  induction k generalizing s with
  | zero =>
    cases h
    rw [Host.Core.run]
    cases M.step t <;> rfl
  | succ k ih =>
    rw [Host.Core.run] at h ⊢
    cases hstep : M.step s with
    | next u =>
      rw [hstep] at h
      exact ih h
    | fault r => rw [hstep] at h; cases h
    | refused r => rw [hstep] at h; cases h

/-- The state after `k` turns of a WAIT that has `n` left before the perform step. -/
def State.waiting (s : State) (rest : List HostEvent) (k n : Nat) : State :=
  { s with script := waitEvents n ++ rest, readData := if k = 0 then s.readData else s.readReg .status }

/-- Each turn of WAIT before the perform step changes nothing but the script and the value read. -/
theorem run_wait {s : State} {rest : List HostEvent} (hb : s.busy = true) (k : Nat) {n : Nat}
    (hs : s.script = waitEvents (n + k) ++ rest) :
    Host.Core.run Sys2Proof.core k s = .next (s.waiting rest k n) := by
  induction k generalizing n with
  | zero =>
    have hstart : s.waiting rest 0 n = s := by rw [State.waiting, if_pos rfl, ← Nat.add_zero n, ← hs]
    exact congrArg Host.Outcome.next hstart.symm
  | succ k ih =>
    have hbefore : Host.Core.run Sys2Proof.core k s = .next (s.waiting rest k (n + 1)) :=
      ih (by rw [hs, Nat.add_right_comm, Nat.add_assoc])
    exact (run_succ hbefore).trans (step_wait_of_busy (s := s.waiting rest k (n + 1)) hb rfl)

/-- Settles O54: the turns before the perform step by `run_wait`, then the perform step, then the last turn. -/
theorem waitReachesThePerformStep : Obligations.WaitReachesThePerformStep := by
  intro polls s rest hs
  refine ⟨fun i hp => ?_, fun hp => ⟨(status_busy s).trans (busy_of_idle hp), step_wait_of_idle hp hs⟩⟩
  have hb : s.busy = true := busy_of_pending hp
  have hall : Host.Core.run Sys2Proof.core polls s = .next (s.waiting rest polls 0) :=
    run_wait hb polls (by rw [hs, Nat.zero_add])
  obtain ⟨t, hexec, htp, hts⟩ := exec_next i (s.waiting rest polls 0)
  have hlate : ∀ e ∈ (s.waiting rest polls 0).script.head?, e.early = false := by
    rintro e ⟨⟩
    rfl
  have hperform : Host.Core.run Sys2Proof.core (polls + 1) s = .next t :=
    (run_succ hall).trans ((step_eq_exec (s := s.waiting rest polls 0) hp hlate).trans hexec)
  refine ⟨(status_busy s).trans hb, fun k hk hle => ?_, t, hexec, hperform,
    (run_succ hperform).trans (step_wait_of_idle htp hts), (status_busy t).trans (busy_of_idle htp)⟩
  rw [run_wait (n := polls - k) hb k (by rw [hs, Nat.sub_add_cancel hle]), State.waiting, if_neg (by omega)]

end Sys2Proof.Machine
end

section
/-! The control of the block: who moves next and what a perform step gives (R80, R81, R83), the fault record around a command
(R79, R82), the cases of the host's register accesses (R77, R78), its buffer accesses (R85), and the faulted block (R84). -/

namespace Sys2Proof.Machine

/-! ## Issue and the perform step (R80, R81, R83) -/

/-- A legal word makes its command pending (R80). -/
theorem issue_of_decode {w : Word} {i : Instr} (h : decode w = .ok i) (s : State) :
    issue w s = { s with pending := some i } := by
  rcases issue_cases w s with ⟨j, hj, e⟩ | ⟨err, herr, -⟩
  · cases h.symm.trans hj
    exact e
  · cases h.symm.trans herr

/-- A register word read as an opcode-table word is the same word (R68). -/
theorem decodeTableWord_of_decode {w : Word} {i : Instr} (h : decode w = .ok i) :
    decodeTableWord 32 w.toNat = some i := by
  rw [decodeTableWord, Nat.mod_eq_of_lt w.isLt, if_pos w.isLt, BitVec.ofNat_toNat, BitVec.setWidth_eq, h]

/-- No action of the reordered script is placed before the next perform step. -/
theorem codecFirst_late (script : List HostEvent) : ∀ e ∈ (codecFirst script).head?, e.early = false := by
  cases script with
  | nil => nofun
  | cons e rest => rintro _ ⟨⟩; rfl

/-- With nothing pending and no host action left, nothing happens (R129). -/
theorem step_eq_self {s : State} (hp : s.pending = none) (hs : s.script = []) : step s = .next s := by
  rw [step, nextTurn, hp, hs]

/-- Settles O7: by whose turn it is. -/
theorem turnsFollowThePendingCommandAndTheScript : Obligations.TurnsFollowThePendingCommandAndTheScript :=
  fun _ => ⟨step_eq_self, fun _ => step_eq_exec, fun _ _ => step_eq_hostStep⟩

/-- Settles O8: every command is a body performed, and performing one clears PENDING. -/
theorem performStepAlwaysEndsWithNothingPending : Obligations.PerformStepAlwaysEndsWithNothingPending := by
  intro i s
  obtain ⟨t, hexec, hpending, -⟩ := exec_next i s
  exact ⟨t, hexec, hpending⟩

/-- Settles O10: the body of NOP completes with memory as it was, and NOP has no output register. -/
theorem nopChangesNothingButPending : Obligations.NopChangesNothingButPending :=
  fun s => congrArg Host.Outcome.next (perform_ok (i := .nop) (out := fun _ t => t) (cmd_pure () ⟨s.mem, []⟩))

/-- Settles O6: the CMD write is the host's turn and issues the word; then, as after withFetchWord, it is the codec's turn. -/
theorem issuedCommandIsDecodedAndPerformed : Obligations.IssuedCommandIsDecodedAndPerformed := by
  refine ⟨fun s w i early rest hp hf hs hdec hlate => ⟨?_, step_eq_exec rfl hlate⟩, fun s w i hdec => ?_⟩
  · rw [step_eq_hostStep hs (.inl hp), hostStep_cmdWrite (s := { s with script := rest }) hp hf, issue_of_decode hdec]
  · have hp : (s.withFetchWord 32 w.toNat).pending = some i := decodeTableWord_of_decode hdec
    exact ⟨hp, step_eq_exec hp (codecFirst_late s.script)⟩

/-! ## The fault record around a command (R79, R82) -/

/-- A body's run ends with a fault exactly when the body raises it. -/
theorem runBody_fault_some {α : Type} {body : Cmd α} {m : Memory} {r : Raise} :
    (runBody body m).1 = some r ↔ ∃ w, body ⟨m, []⟩ = .error r w := by
  unfold runBody
  cases body ⟨m, []⟩ <;> simp

/-- Recording a fault commutes with every other part of ending a command. -/
theorem recordFault_setMem_clearPending (f : FaultRecord) (s : State) (m : Memory) :
    (recordFault f (s.setMem m)).clearPending = recordFault f { s with mem := m, pending := none } := by
  rw [recordFault_eq, recordFault_eq]
  rfl

/-- Settles O12: the command's body ended with that fault, and memory is what the writes it made leave. -/
theorem faultingCommandKeepsOnlyItsEarlierWrites : Obligations.FaultingCommandKeepsOnlyItsEarlierWrites := by
  intro i s r hfault
  obtain ⟨α, body, out, hexec, hrun, -⟩ := command_body i s
  rw [commandFault, hrun] at hfault
  obtain ⟨w, hbody⟩ := runBody_fault_some.1 hfault
  have hmem : w.mem = Memory.writeAll s.mem (writesOf (commandAccesses i s)) := by
    rw [← commandRun_mem, hrun, runBody_error hbody]
  rw [hexec, perform_error hbody, recordFault_setMem_clearPending, hmem]

/-- The state with a given fault recorded, whatever was recorded before. -/
def State.withFault (f : FaultRecord) (s : State) : State := { s with faultRec := some f }

theorem withFault_setMem (f : FaultRecord) (s : State) (m : Memory) :
    (s.withFault f).setMem m = (s.setMem m).withFault f := rfl

theorem withFault_clearPending (f : FaultRecord) (s : State) :
    (s.withFault f).clearPending = s.clearPending.withFault f := rfl

/-- A later fault does not displace the record (R116). -/
theorem recordFault_withFault (f g : FaultRecord) (s : State) :
    recordFault g (s.withFault f) = (recordFault g s).withFault f := by
  rw [recordFault_eq, recordFault_eq]
  rfl

/-- Every command performs the same body, with the same output, whatever fault is recorded: neither depends on the record. -/
theorem exec_withFault_body (i : Instr) (f : FaultRecord) (s : State) :
    ∃ (α : Type) (body : Cmd α) (out : α → State → State),
      exec i s = .next (perform i body out s) ∧ exec i (s.withFault f) = .next (perform i body out (s.withFault f)) ∧
      ∀ a t, out a (t.withFault f) = (out a t).withFault f := by
  have hcursor : ∀ c t, writeCursor s.mfm c (t.withFault f) = (writeCursor s.mfm c t).withFault f := fun c t => by
    rw [writeCursor_eq, writeCursor_eq]
    rfl
  cases i with
  | nop => exact ⟨_, _, _, rfl, rfl, fun _ _ => rfl⟩
  | getbit => exact ⟨_, _, _, rfl, rfl, fun _ _ => rfl⟩
  | setbit => exact ⟨_, _, _, rfl, rfl, fun _ _ => rfl⟩
  | mfmDecode => exact ⟨_, _, _, rfl, rfl, hcursor⟩
  | mfmEncode => exact ⟨_, _, _, rfl, rfl, hcursor⟩
  | crcBuild => exact ⟨_, _, _, rfl, rfl, fun _ _ => rfl⟩
  | crcReset => exact ⟨_, _, _, rfl, rfl, fun _ _ => rfl⟩
  | crcUpdate => exact ⟨_, _, _, rfl, rfl, fun _ _ => rfl⟩
  | crcCheck => exact ⟨_, _, _, rfl, rfl, fun _ _ => rfl⟩

/-- A command performed under a recorded fault does what it does without one, and the record stays (R79). -/
theorem perform_withFault {α : Type} {i : Instr} {body : Cmd α} {out : α → State → State} {f : FaultRecord}
    (hout : ∀ a t, out a (t.withFault f) = (out a t).withFault f) (s : State) :
    perform i body out (s.withFault f) = (perform i body out s).withFault f := by
  rcases perform_cases i body out s with ⟨a, w, hbody, e⟩ | ⟨r, w, hbody, e⟩
  · rw [e, perform_ok (s := s.withFault f) hbody, withFault_setMem, hout, withFault_clearPending]
  · rw [e, perform_error (s := s.withFault f) hbody, withFault_setMem, recordFault_withFault, withFault_clearPending]

/-- Settles O44: the body and the output of the command do not depend on the record. -/
theorem commandRunsTheSameUnderARecordedFault : Obligations.CommandRunsTheSameUnderARecordedFault := by
  intro i s f
  obtain ⟨α, body, out, hexec, hfault, hout⟩ := exec_withFault_body i f s
  exact ⟨_, hexec, hfault.trans (congrArg Host.Outcome.next (perform_withFault hout s))⟩

/-! ## The cases of the host's register accesses (R77, R78) -/

/-- A read that reaches no register returns 0 and records REG_ACCESS if nothing is recorded (R77). -/
theorem hostStep_regRead_of_none {s : State} {off width : Nat} (h : accessedRow s.platform off width = none) :
    hostStep (.regRead off width) s = .next { s with
      readData := 0#32
      faultRec := some (s.faultRec.getD ⟨.regAccess, 0xFF#8, BitVec.ofNat 32 off⟩) } := by
  rcases hostRegRead_cases off width s with ⟨-, e⟩ | ⟨row, hrow, -⟩
  · rw [hostStep, e, recordFault_eq, trunc32]
  · cases h.symm.trans hrow

/-- What an access reaches stands at the access's offset (R17, R40). -/
theorem accessedRow_off {p : Platform} {off width : Nat} {row : RegRow} (h : accessedRow p off width = some row) :
    row.off = off := by
  rcases accessedRow_cases p off width with ⟨-, e⟩ | ⟨-, -, -, e⟩ | ⟨-, -, -, -, e⟩ | ⟨-, -, -, e⟩
  · cases e.symm.trans h
  · simpa using List.find?_some (e.symm.trans h)
  · cases e.symm.trans h
    rfl
  · cases e.symm.trans h

/-- Settles O46: an access reaches no register, or the one at its offset, which for offset 0 is CMD. -/
theorem hostReadReturnsTheRegisterOrFaults : Obligations.HostReadReturnsTheRegisterOrFaults := by
  intro s off width
  refine ⟨fun h => hostStep_regRead_of_none ((accessedRow_none_iff _ _ _).2 h), fun hmapped => ?_,
    hostStep_regRead_of_row (accessedRow_cmd _)⟩
  cases hrow : accessedRow s.platform off 32 with
  | none => exact absurd hmapped (((accessedRow_none_iff _ _ _).1 hrow).resolve_left (not_not_intro rfl))
  | some row =>
    exact ⟨row, (accessedRow_aligned _ hmapped.1).symm.trans hrow, accessedRow_off hrow, hostStep_regRead_of_row hrow⟩

theorem faultRec_of_not_faulted {s : State} (h : s.faulted = false) : s.faultRec = none := by
  simpa [State.faulted] using h

theorem pending_of_not_busy {s : State} (h : s.busy = false) : s.pending = none := by
  simpa [State.busy] using h

/-- The map finds every one of its rows by the row's offset (R17). -/
theorem regMap_find_off : ∀ row ∈ regMap, regMap.find? (fun r => r.off == row.off) = some row := by decide

/-- REG_ACCESS by a write: its access reaches no register, or a read-only one (R78). -/
theorem writeRefused_iff (p : Platform) (off width : Nat) :
    (accessedRow p off width = none ∨ ∃ row, accessedRow p off width = some row ∧ row.mode = .readOnly) ↔
      (width ≠ 32 ∨ ¬ MappedOffset p off ∨ ReadOnlyOffset off) := by
  obtain ⟨hnone, hmodes⟩ := accessReachesARegisterExactlyWhenMapped p off width
  cases hrow : accessedRow p off width with
  | none =>
    have hbad : width ≠ 32 ∨ ¬ MappedOffset p off := hnone.1 hrow
    exact iff_of_true (.inl rfl) (hbad.imp_right .inl)
  | some row =>
    obtain ⟨hwidth, hmapped⟩ := accessedRow_mapped hrow
    simp [hwidth, hmapped, (hmodes row hrow).1]

/-- Settles O47: the cases of a register write, each with the offsets it is for. -/
theorem hostWriteFollowsThePriorityOfItsCases : Obligations.HostWriteFollowsThePriorityOfItsCases := by
  intro s off width v
  have hmodes := (accessReachesARegisterExactlyWhenMapped s.platform off width).2
  have haccepted : ∀ row, accessedRow s.platform off width = some row → row.mode ≠ .readOnly →
      ¬ (width ≠ 32 ∨ ¬ MappedOffset s.platform off ∨ ReadOnlyOffset off) := by
    intro row hrow hmode
    rw [← writeRefused_iff, hrow]
    simp [hmode]
  refine congrArg Host.Outcome.next ?_
  rcases hostRegWrite_cases off width v s with ⟨hf, e⟩ | ⟨hf, hbad, e⟩ | ⟨hf, hb, ⟨row, hrow, hmode⟩, e⟩ |
    ⟨hf, hb, ⟨row, hrow, hmode⟩, e⟩ | ⟨hf, hb, row, hrow, hmode, e⟩
  · rw [e, if_pos (Option.isSome_iff_ne_none.1 hf)]
  all_goals
    have hnone := faultRec_of_not_faulted hf
    rw [e, if_neg (not_not_intro hnone)]
  · rw [if_pos ((writeRefused_iff ..).1 hbad), recordFault_eq, hnone]
    rfl
  · rw [if_neg (haccepted row hrow hmode), if_pos (Option.isSome_iff_ne_none.1 hb), recordFault_eq, hnone]
    rfl
  · rw [if_neg (haccepted row hrow (by simp [hmode])), if_neg (not_not_intro (pending_of_not_busy hb)),
      if_pos ((hmodes row hrow).2.1 hmode)]
  · have hcmd : off ≠ 0x000 := fun h0 => by simp [(hmodes row hrow).2.2 h0] at hmode
    rw [if_neg (haccepted row hrow (by simp [hmode])), if_neg (not_not_intro (pending_of_not_busy hb)), if_neg hcmd]
    rcases accessedRow_some hrow with ⟨hmem, rfl⟩ | ⟨-, hread⟩
    · rw [regMap_find_off row hmem]
    · cases hmode.symm.trans hread

/-! ## The host's buffer accesses (R61, R85) -/

/-- A buffer access keeps the host's duty exactly when no pending command has the byte in its footprint (R61). -/
theorem breachesDuty_eq_false_iff {a : Word} {s : State} :
    breachesDuty a s = false ↔ ∀ i, s.pending = some i → inFootprint i s a.toNat = false := by
  unfold breachesDuty
  cases s.pending <;> simp

theorem hostStep_memRead {a : Word} {s : State} (h : breachesDuty a s = false) :
    hostStep (.memRead a) s = .next { s with readData := (Memory.read s.mem a.toNat).setWidth 32 } := by
  simp [hostStep, h]

theorem hostStep_memWrite {a : Word} {s : State} (h : breachesDuty a s = false) (v : Byte) :
    hostStep (.memWrite a v) s = .next { s with mem := Memory.write s.mem a.toNat v } := by
  simp [hostStep, h, State.setMem]

theorem hostStep_memRead_refused {a : Word} {s : State} (h : breachesDuty a s = true) :
    hostStep (.memRead a) s = .refused (.footprintBreach a) := by
  simp [hostStep, h]

theorem hostStep_memWrite_refused {a : Word} {s : State} (h : breachesDuty a s = true) (v : Byte) :
    hostStep (.memWrite a v) s = .refused (.footprintBreach a) := by
  simp [hostStep, h]

/-- Settles O52: the two cases are whether the access keeps the host's duty. -/
theorem hostBufferAccessKeepsOutOfTheFootprint : Obligations.HostBufferAccessKeepsOutOfTheFootprint := by
  intro s a v
  refine ⟨fun hout => ?_, fun i hp hin => ?_⟩
  · have hkeeps : breachesDuty a s = false := breachesDuty_eq_false_iff.2 hout
    exact ⟨hostStep_memRead hkeeps, hostStep_memWrite hkeeps v⟩
  · have hbreach : breachesDuty a s = true := (breachesDuty_of_pending hp a).trans hin
    exact ⟨hostStep_memRead_refused hbreach, hostStep_memWrite_refused hbreach v⟩

/-! ## The faulted block (R84) -/

/-- A faulted block records no further fault (R116). -/
theorem recordFault_of_faulted {s : State} (h : s.faultRec ≠ none) (f : FaultRecord) : recordFault f s = s := by
  obtain ⟨g, hg⟩ := Option.ne_none_iff_exists'.1 h
  rw [recordFault, hg]

/-- A register read of a faulted block changes the latest read value only (R77, R116). -/
theorem hostRegRead_of_faulted {s : State} (h : s.faultRec ≠ none) (off width : Nat) :
    hostRegRead off width s = { s with readData := (hostRegRead off width s).readData } := by
  rcases hostRegRead_cases off width s with ⟨-, e⟩ | ⟨row, -, e⟩
  · rw [e, recordFault_of_faulted h]
  · rw [e]

/-- Settles O43: nothing is pending, so the step is idle or the host's; the host's actions change what the statement names. -/
theorem faultedBlockIsQuiescent : Obligations.FaultedBlockIsQuiescent := by
  intro s t hf hp hstep hreset
  rcases nextTurn_cases s with ⟨hturn, -, hs⟩ | ⟨i, -, hi, -⟩ | ⟨⟨op, early⟩, rest, hturn, hs, -⟩
  · cases (step_eq_self hp hs).symm.trans hstep
    rw [hturn, hs, List.tail_nil, ← hs]
    exact ⟨rfl, nofun⟩
  · cases hp.symm.trans hi
  · have hhost : hostStep op { s with script := rest } = .next t := (step_eq_hostStep hs (.inl hp)).symm.trans hstep
    have hidle : ¬ State.busy { s with script := rest } = true := Bool.eq_false_iff.1 (busy_of_idle hp)
    rw [hturn, hs, List.tail_cons]
    rcases hostStep_cases hhost with ⟨off, width, rfl, rfl⟩ | ⟨off, width, v, rfl, rfl⟩ | ⟨polls, rfl, rfl⟩ |
      ⟨a, rfl, -, rfl⟩ | ⟨a, v, rfl, -, rfl⟩ | ⟨d, rfl, -⟩
    · exact ⟨hostRegRead_of_faulted (s := { s with script := rest }) hf off width, nofun⟩
    · rw [hostRegWrite_of_faulted (s := { s with script := rest }) (Option.isSome_iff_ne_none.2 hf)]
      exact ⟨rfl, fun _ _ _ _ _ => rfl⟩
    · rw [hostWait_eq, if_neg hidle]
      exact ⟨rfl, nofun⟩
    · exact ⟨rfl, nofun⟩
    · exact ⟨rfl, nofun⟩
    · exact absurd hturn (hreset d rest)

end Sys2Proof.Machine
end

section
/-! The bit access commands: what GETBIT and SETBIT leave when they complete and when they fault (R87, R88), and GETBIT after
SETBIT of the same bit (R89). -/

namespace Sys2Proof.Machine

/-! ## Bit accesses that are refused (R50, R54) -/

section Refused
variable {p : Platform} {base i : Nat}

/-- GetBit of a byte that may not be read makes no access. -/
theorem getBit_refused (h : accessAllowed p (.read, byteAddr base i) = false) (w : Work) :
    getBit p base i w = .error (accessFault (.read, byteAddr base i)) w := by
  rcases getBit_cases p base i w with ⟨ha, -⟩ | ⟨ha, e⟩ | ⟨ha, -, e⟩
  · exact absurd (readAllowed_iff_accessAllowed.1 ha) (Bool.eq_false_iff.1 h)
  · rw [e, accessFault_overflow ha]
  · rw [e, accessFault_refused ha]

/-- SetBit of a byte that may not be updated leaves memory alone, and raises one fault at the read and at the write. -/
theorem setBit_refused (h : updateAllowed p (byteAddr base i) = false) (v : Bool) (w : Work) :
    ∃ w', setBit p base i v w = .error (accessFault (.read, byteAddr base i)) w' ∧ w'.mem = w.mem := by
  rcases setBit_cases p base i v w with ⟨ha, -⟩ | ⟨ha, e⟩ | ⟨ha, -, e⟩ | ⟨ha, -, -, e⟩
  · exact absurd ha (Bool.eq_false_iff.1 h)
  · exact accessFault_overflow ha ▸ ⟨w, e, rfl⟩
  · exact accessFault_refused ha ▸ ⟨w, e, rfl⟩
  · exact accessFault_refused ha ▸ ⟨_, e, rfl⟩

theorem updateAllowed_eq_false {a : Nat}
    (h : addrSpace ≤ a ∨ p.admits a .read = false ∨ p.admits a .write = false) : updateAllowed p a = false := by
  rw [Bool.eq_false_iff, Ne, updateAllowed_iff]
  rintro ⟨hlt, hread, hwrite⟩
  rcases h with h | h | h
  · omega
  · simp [hread] at h
  · simp [hwrite] at h

end Refused

/-- A command that faults before it writes to memory changes the fault record and PENDING only (R117). -/
theorem perform_error_of_mem_eq {α : Type} {i : Instr} {body : Cmd α} {out : α → State → State} {s : State} {r : Raise}
    {w : Work} (hbody : body ⟨s.mem, []⟩ = .error r w) (hmem : w.mem = s.mem) :
    perform i body out s = recordFault ⟨r.code, i.opcode, r.info⟩ { s with pending := none } := by
  rw [perform_error hbody, recordFault_setMem_clearPending, hmem]

/-! ## GETBIT (R87) -/

section Commands
variable {s : State} {a : Nat}

theorem exec_getbit_of_allowed (ha : a = byteAddr s.bitBase.toNat s.bitIndex.toNat)
    (h : accessAllowed s.platform (.read, a) = true) :
    exec .getbit s = .next { s with
      bitData := BitVec.ofBool (bitOfByte (Memory.read s.mem a) s.bitIndex.toNat), pending := none } := by
  subst ha
  rw [bitOfByte_read]
  have hbody : getbitBody s ⟨s.mem, []⟩ = .ok _ _ := getBit_eq_ok.2 ⟨h, rfl, rfl⟩
  exact congrArg Host.Outcome.next (perform_ok hbody)

theorem exec_getbit_of_refused (ha : a = byteAddr s.bitBase.toNat s.bitIndex.toNat)
    (h : accessAllowed s.platform (.read, a) = false) :
    exec .getbit s = .next (recordFault ⟨(accessFault (.read, a)).code, 0x01#8, (accessFault (.read, a)).info⟩
      { s with pending := none }) := by
  subst ha
  have hbody : getbitBody s ⟨s.mem, []⟩ = .error _ _ := getBit_refused h _
  exact congrArg Host.Outcome.next (perform_error_of_mem_eq hbody rfl)

/-! ## SETBIT (R88) -/

theorem exec_setbit_of_allowed (ha : a = byteAddr s.bitBase.toNat s.bitIndex.toNat)
    (h : updateAllowed s.platform a = true) :
    exec .setbit s = .next { s with
      mem := Memory.write s.mem a (setBitOfByte (Memory.read s.mem a) s.bitIndex.toNat s.bitValue), pending := none } := by
  subst ha
  have hbody : setbitBody s ⟨s.mem, []⟩ = .ok () _ := setBit_eq_ok.2 ⟨h, rfl⟩
  exact congrArg Host.Outcome.next (perform_ok hbody)

theorem exec_setbit_of_refused (ha : a = byteAddr s.bitBase.toNat s.bitIndex.toNat)
    (h : updateAllowed s.platform a = false) :
    exec .setbit s = .next (recordFault ⟨(accessFault (.read, a)).code, 0x02#8, (accessFault (.read, a)).info⟩
      { s with pending := none }) := by
  subst ha
  obtain ⟨w, hbody, hmem⟩ := setBit_refused h s.bitValue ⟨s.mem, []⟩
  exact congrArg Host.Outcome.next (perform_error_of_mem_eq hbody hmem)

end Commands

/-- BIT_DATA is its one bit (R26). -/
theorem ofBool_bitValue (s : State) : BitVec.ofBool s.bitValue = s.bitData :=
  BitVec.eq_of_getLsbD_eq fun i hi => by
    obtain rfl : i = 0 := by omega
    simp [State.bitValue]

theorem bitValue_eq_true_iff {s : State} : s.bitValue = true ↔ s.bitData = 1#1 := by
  rw [← ofBool_bitValue]
  cases s.bitValue <;> decide

/-! ## The statements -/

/-- Settles O16: by whether the byte may be read, and by the fault of its address where it may not. -/
theorem getbitReadsTheAddressedBitOrFaults : Obligations.GetbitReadsTheAddressedBitOrFaults := by
  intro s a ha
  refine ⟨fun hlt hread => ?_, fun hover => ?_, fun hlt hread => ?_⟩
  · exact exec_getbit_of_allowed ha (accessAllowed_iff.2 ⟨hlt, hread⟩)
  · rw [exec_getbit_of_refused ha (accessAllowed_eq_false (.inl hover)), accessFault_overflow hover, trunc32]
  · rw [exec_getbit_of_refused ha (accessAllowed_eq_false (.inr hread)), accessFault_refused hlt, trunc32]

/-- Settles O17: by whether the byte may be updated; the fault is the same at the read and at the write. -/
theorem setbitWritesTheAddressedBitOrFaults : Obligations.SetbitWritesTheAddressedBitOrFaults := by
  rintro s a _ _ ha rfl rfl
  refine ⟨fun hlt hread hwrite => ?_, fun hover => ?_, fun hlt hrefused => ?_⟩
  · rw [exec_setbit_of_allowed ha ((updateAllowed_iff ..).2 ⟨hlt, hread, hwrite⟩)]
    simp only [setBitOfByte, bitPlace, bitValue_eq_true_iff]
  · rw [exec_setbit_of_refused ha (updateAllowed_eq_false (.inl hover)), accessFault_overflow hover, trunc32]
  · rw [exec_setbit_of_refused ha (updateAllowed_eq_false (.inr hrefused)), accessFault_refused hlt, trunc32]

/-- Settles O19: SETBIT leaves BIT_DATA in the addressed bit and the other bits alone, and GETBIT reads that bit's byte. -/
theorem setThenGetReturnsTheBit : Obligations.SetThenGetReturnsTheBit := by
  intro s t u hm hset hexec hbase hindex hbyte hget
  obtain ⟨m, hnext, hbits⟩ := setbitChangesOneBit s hm (commandFault_setbit.1 hset)
  cases hnext.symm.trans hexec
  obtain ⟨hreadable, -⟩ := footprintAllowed_iff.1 (commandFault_getbit.1 hget)
  have hallowed := readAllowed_iff_accessAllowed.1 (hreadable _ (List.mem_singleton.2 rfl))
  refine ⟨⟨_, exec_getbit_of_allowed rfl hallowed, ?_, rfl⟩, fun j hj => (hbits j).trans (if_neg hj)⟩
  calc BitVec.ofBool (bitOfByte (Memory.read u.mem (byteAddr u.bitBase.toNat u.bitIndex.toNat)) u.bitIndex.toNat)
    _ = BitVec.ofBool (bitOfByte (Memory.read m (byteAddr s.bitBase.toNat s.bitIndex.toNat)) s.bitIndex.toNat) := by
        rw [hbase, hindex, byteAddr, hbyte]
    _ = BitVec.ofBool s.bitValue := by
        rw [bitOfByte_read, hbits, if_pos rfl, State.bitValue]
    _ = s.bitData := ofBool_bitValue s

end Sys2Proof.Machine
end

section
/-! The MFM commands as a whole: the state each leaves when it completes (R91, R97), when the ring has length 0 (R90) and when
there are no bits to move (R93, R95), and the bits that a decode and an encode leave (R92 to R96, R99). -/

namespace Sys2Proof.Machine

/-! ## The state a completed MFM command leaves (R91, R97) -/

/-- The state after an MFM command that completes and leaves this buffer memory. -/
def State.afterMfm (s : State) (m : Memory) : State :=
  { s with
    mem := m
    mfmCursor := if s.mfmM = 0#32 then s.mfmCursor
      else BitVec.ofNat 32 ((s.mfmCursor.toNat + 2 * s.mfmM.toNat) % s.mfmN.toNat)
    pending := none }

/-- Writing back the final cursor of a completed loop gives that state. -/
theorem writeCursor_afterMfm {s : State} {c : Nat} (hc : c = (s.mfm.start + 2 * s.mfm.m) % s.mfm.n) (m : Memory) :
    (writeCursor s.mfm c (s.setMem m)).clearPending = s.afterMfm m := by
  have hif : (if 1 ≤ s.mfm.m then BitVec.ofNat 32 c else s.mfmCursor) =
      if s.mfmM = 0#32 then s.mfmCursor else BitVec.ofNat 32 c := by
    by_cases hm : s.mfmM = 0#32
    · have hzero : s.mfm.m = 0 := mfmM_eq_zero.1 hm
      rw [if_pos hm, if_neg (by omega)]
    · have hpos : s.mfm.m ≠ 0 := fun h => hm (mfmM_eq_zero.2 h)
      rw [if_neg hm, if_pos (by omega)]
  rw [start_add_mod] at hc
  rw [writeCursor_eq, setMem_mfmCursor, hif, hc]
  rfl

section Completes
variable {s t : State} {i : Instr}

/-- A completed MFM.DECODE has run its loop, from the memory and the working cursor it started with (R93). -/
theorem exec_mfmDecode_loop (hn : s.mfm.n ≠ 0) (ha : footprintAllowed .mfmDecode s = true) :
    ∃ c w, decodeLoop s.platform s.mfm s.mfm.m 0 s.mfm.start ⟨s.mem, []⟩ = .ok c w ∧
      exec .mfmDecode s = .next (s.afterMfm w.mem) := by
  obtain ⟨c, w, hbody⟩ := decodeBody_completes hn ha
  obtain ⟨hpos, hloop⟩ := decodeBody_eq_ok.1 hbody
  refine ⟨c, w, hloop, congrArg Host.Outcome.next ((perform_ok hbody).trans ?_)⟩
  exact writeCursor_afterMfm (decodeLoop_cursor (start_lt hpos) hloop) w.mem

/-- A completed MFM.ENCODE has run its loop, from the ring bit before the working cursor and with memory as it was (R95, R96). -/
theorem exec_mfmEncode_loop (hn : s.mfm.n ≠ 0) (ha : footprintAllowed .mfmEncode s = true) :
    ∃ c w w', w.mem = s.mem ∧
      encodeLoop s.platform s.mfm s.mfm.m 0 s.mfm.start
        (Memory.bit s.mem (8 * s.mfm.dst + prevPosition s.mfm.n s.mfm.start)) w = .ok c w' ∧
      exec .mfmEncode s = .next (s.afterMfm w'.mem) := by
  obtain ⟨c, w', hbody⟩ := encodeBody_completes hn ha
  obtain ⟨hpos, prev, w, hprev, hloop⟩ := encodeBody_eq_ok.1 hbody
  obtain ⟨-, rfl, hw⟩ := getBit_eq_ok.1 hprev
  refine ⟨c, w, w', by rw [hw], hloop, congrArg Host.Outcome.next ((perform_ok hbody).trans ?_)⟩
  exact writeCursor_afterMfm (encodeLoop_cursor (start_lt hpos) hloop) w'.mem

/-- An MFM command with an admitted footprint changes memory, the cursor and PENDING only. -/
theorem exec_mfm_afterMfm (hi : i = .mfmDecode ∨ i = .mfmEncode) (hn : s.mfm.n ≠ 0) (ha : footprintAllowed i s = true) :
    ∃ m, exec i s = .next (s.afterMfm m) := by
  rcases hi with rfl | rfl
  · obtain ⟨c, w, -, he⟩ := exec_mfmDecode_loop hn ha
    exact ⟨w.mem, he⟩
  · obtain ⟨c, w, w', -, -, he⟩ := exec_mfmEncode_loop hn ha
    exact ⟨w'.mem, he⟩

/-- An MFM command that raises no fault leaves the state `afterMfm` of its own memory. -/
theorem eq_afterMfm_of_completes (hi : i = .mfmDecode ∨ i = .mfmEncode) (hc : commandFault i s = none)
    (h : exec i s = .next t) : t = s.afterMfm t.mem := by
  have hn := mfm_n_ne_zero_of_completes hi hc
  obtain ⟨m, he⟩ := exec_mfm_afterMfm hi hn ((commandFault_mfm hi hn).1 hc)
  cases he.symm.trans h
  rfl

/-- The cursor register holds the new cursor whole, because that is below N (R29, R31). With no bits to move the register keeps its
value, which is the same where that is below N. -/
theorem afterMfm_cursor_toNat (hn : s.mfm.n ≠ 0) (hm : 1 ≤ s.mfmM.toNat ∨ s.mfmCursor.toNat < s.mfmN.toNat) (m : Memory) :
    (s.afterMfm m).mfmCursor.toNat = (s.mfmCursor.toNat + 2 * s.mfmM.toNat) % s.mfmN.toNat := by
  by_cases hzero : s.mfmM = 0#32
  · have h0 := mfmM_eq_zero.1 hzero
    rw [State.afterMfm, if_pos hzero, h0, Nat.mul_zero, Nat.add_zero, Nat.mod_eq_of_lt (by omega)]
  · have hlt : (s.mfmCursor.toNat + 2 * s.mfmM.toNat) % s.mfmN.toNat < 2 ^ 32 :=
      (Nat.mod_lt _ (Nat.pos_of_ne_zero hn)).trans s.mfmN.isLt
    rw [State.afterMfm, if_neg hzero, BitVec.toNat_ofNat, Nat.mod_eq_of_lt hlt]

/-- With no bits to move nothing but PENDING changes. -/
theorem afterMfm_of_no_bits (hm : s.mfmM = 0#32) : s.afterMfm s.mem = { s with pending := none } := by
  rw [State.afterMfm, if_pos hm]

/-- The cursor an MFM command that completes leaves (R97). -/
theorem cursor_of_completes (hi : i = .mfmDecode ∨ i = .mfmEncode) (hc : commandFault i s = none)
    (h : exec i s = .next t) (hm : 1 ≤ s.mfmM.toNat ∨ s.mfmCursor.toNat < s.mfmN.toNat) :
    t.mfmCursor.toNat = (s.mfmCursor.toNat + 2 * s.mfmM.toNat) % s.mfmN.toNat := by
  rw [eq_afterMfm_of_completes hi hc h]
  exact afterMfm_cursor_toNat (mfm_n_ne_zero_of_completes hi hc) hm _

end Completes

/-- Settles O27: both commands leave the state `afterMfm`. -/
theorem completedMfmCommandLeavesTheCursorOfTheLaw : Obligations.CompletedMfmCommandLeavesTheCursorOfTheLaw := by
  intro i s t hi hc h
  refine ⟨fun hm => cursor_of_completes hi hc h (.inl hm), fun hm => ?_⟩
  rw [eq_afterMfm_of_completes hi hc h, State.afterMfm, if_pos (mfmM_eq_zero.2 hm)]

/-- Settles O21: the decode leaves `afterMfm`, and writes inside its written footprint, the output bytes, only. -/
theorem mfmDecodeCompletesAndAdvancesTheCursor : Obligations.MfmDecodeCompletesAndAdvancesTheCursor := by
  intro s hn ha
  rw [mfmN_ne_zero] at hn
  obtain ⟨m, he⟩ := exec_mfm_afterMfm (.inl rfl) hn ha
  refine ⟨m, he, fun a hout => exec_read_outside he ?_⟩
  rw [writeFootprint, if_neg hn, mem_linearBytes]
  rintro ⟨i, hi, rfl⟩
  exact hout i hi rfl

/-- Settles O22: the encode leaves `afterMfm`, and writes inside its written footprint, the ring bytes, only. -/
theorem mfmEncodeCompletesAndAdvancesTheCursor : Obligations.MfmEncodeCompletesAndAdvancesTheCursor := by
  intro s hn ha
  rw [mfmN_ne_zero] at hn
  obtain ⟨m, he⟩ := exec_mfm_afterMfm (.inr rfl) hn ha
  refine ⟨m, he, fun a hout => exec_read_outside he ?_⟩
  rw [writeFootprint, if_neg hn, mem_ringBytes]
  rintro ⟨k, hk, rfl⟩
  exact hout k hk rfl

/-! ## Ring length 0, and no bits to move (R90, R93, R95) -/

/-- Settles O20: the preamble of either body raises the fault, before any access. -/
theorem mfmWithRingLengthZeroFaults : Obligations.MfmWithRingLengthZeroFaults := by
  intro s hn
  have hzero : mfmPreamble s.mfm ⟨s.mem, []⟩ = .error ⟨.ringZero, 0#32⟩ ⟨s.mem, []⟩ := by
    rcases mfmPreamble_cases s.mfm ⟨s.mem, []⟩ with ⟨-, e⟩ | ⟨hpos, -⟩
    · exact e
    · exact absurd hn (mfmN_ne_zero.2 hpos.ne')
  exact ⟨congrArg Host.Outcome.next (perform_error_of_mem_eq (cmd_bind_error hzero _) rfl),
    congrArg Host.Outcome.next (perform_error_of_mem_eq (cmd_bind_error hzero _) rfl)⟩

section NoBits
variable {s : State} {a : Nat}

/-- With no bits to move and a ring, the body of MFM.DECODE ends at once. -/
theorem decodeBody_of_no_bits (hn : s.mfm.n ≠ 0) (hm : s.mfm.m = 0) (w : Work) :
    decodeBody s.platform s.mfm w = .ok s.mfm.start w :=
  decodeBody_eq_ok.2 ⟨Nat.pos_of_ne_zero hn, by rw [hm]; rfl⟩

/-- With no bits to move and a ring, the body of MFM.ENCODE is the read of prev (R96). -/
theorem encodeBody_of_no_bits (hn : s.mfm.n ≠ 0) (hm : s.mfm.m = 0)
    (ha : a = byteAddr s.mfm.dst (prevPosition s.mfm.n s.mfm.start)) (h : accessAllowed s.platform (.read, a) = true)
    (w : Work) : encodeBody s.platform s.mfm w =
      .ok s.mfm.start ⟨w.mem, ⟨.read, a, Memory.read w.mem a⟩ :: w.accesses⟩ := by
  subst ha
  exact encodeBody_eq_ok.2 ⟨Nat.pos_of_ne_zero hn, _, _,
    getBit_eq_ok.2 ⟨readAllowed_iff_accessAllowed.2 h, rfl, rfl⟩, by rw [hm]; rfl⟩

/-- The body of MFM.ENCODE ends at the read of prev where that is refused, whatever M is. -/
theorem encodeBody_refused (hn : s.mfm.n ≠ 0) (ha : a = byteAddr s.mfm.dst (prevPosition s.mfm.n s.mfm.start))
    (h : accessAllowed s.platform (.read, a) = false) (w : Work) :
    encodeBody s.platform s.mfm w = .error (accessFault (.read, a)) w := by
  subst ha
  rcases mfmPreamble_cases s.mfm w with ⟨hzero, -⟩ | ⟨-, e⟩
  · exact absurd hzero hn
  · rw [encodeBody, cmd_bind_ok e, cmd_bind_error (getBit_refused h w)]

theorem exec_mfmEncode_of_refused (hn : s.mfm.n ≠ 0) (ha : a = byteAddr s.mfm.dst (prevPosition s.mfm.n s.mfm.start))
    (h : accessAllowed s.platform (.read, a) = false) :
    exec .mfmEncode s = .next (recordFault ⟨(accessFault (.read, a)).code, 0x11#8, (accessFault (.read, a)).info⟩
      { s with pending := none }) :=
  congrArg Host.Outcome.next (perform_error_of_mem_eq (encodeBody_refused hn ha h _) rfl)

/-- A body that completes at the working cursor with memory as it was leaves everything but PENDING alone when M = 0. -/
theorem perform_of_no_bits {i : Instr} {body : Cmd Nat} {l : List Access} (hm : s.mfmM = 0#32)
    (hbody : body ⟨s.mem, []⟩ = .ok s.mfm.start ⟨s.mem, l⟩) :
    perform i body (writeCursor s.mfm) s = { s with pending := none } := by
  have hcursor : s.mfm.start = (s.mfm.start + 2 * s.mfm.m) % s.mfm.n := by
    rw [show s.mfm.m = 0 from mfmM_eq_zero.1 hm, start_add_mod]
    rfl
  rw [perform_ok hbody, writeCursor_afterMfm hcursor, afterMfm_of_no_bits hm]

end NoBits

/-- Settles O28: the decode's body makes no access, and the encode's body is the read of prev, allowed or refused. -/
theorem mfmWithNoBitsOnlyReadsPrev : Obligations.MfmWithNoBitsOnlyReadsPrev := by
  intro s a hm hn ha
  rw [mfmN_ne_zero] at hn
  have hzero : s.mfm.m = 0 := mfmM_eq_zero.1 hm
  refine ⟨?_, fun hlt hread => ?_, fun hover => ?_, fun hlt hread => ?_⟩
  · have hbody := decodeBody_of_no_bits hn hzero ⟨s.mem, []⟩
    refine ⟨congrArg Host.Outcome.next (perform_of_no_bits hm hbody), ?_⟩
    rw [commandAccesses, commandRun, runBody_ok hbody, List.reverse_nil]
  · have hbody := encodeBody_of_no_bits hn hzero ha (accessAllowed_iff.2 ⟨hlt, hread⟩) ⟨s.mem, []⟩
    refine ⟨congrArg Host.Outcome.next (perform_of_no_bits hm hbody), ?_⟩
    rw [commandAccesses, commandRun, runBody_ok hbody, List.reverse_singleton]
  · rw [exec_mfmEncode_of_refused hn ha (accessAllowed_eq_false (.inl hover)), accessFault_overflow hover, trunc32]
  · rw [exec_mfmEncode_of_refused hn ha (accessAllowed_eq_false (.inr hread)), accessFault_refused hlt, trunc32]

/-! ## The bits a decode and an encode leave (R92 to R96, R99) -/

/-- Settles O23: the loop leaves PairDecode of each pair in its output bit. -/
theorem mfmDecodeEmitsOneBitPerPair : Obligations.MfmDecodeEmitsOneBitPerPair := by
  intro s hm hn ha hd
  rw [mfmN_ne_zero] at hn
  obtain ⟨c, w, hloop, he⟩ := exec_mfmDecode_loop hn ha
  rw [readFootprint, writeFootprint, if_neg hn, if_neg hn, disjointBytes_iff] at hd
  have hpos : 0 < s.mfm.n := Nat.pos_of_ne_zero hn
  have hbytes : ∀ k, k < 2 * s.mfm.m → ∀ l, l < s.mfm.m →
      byteAddr s.mfm.src ((s.mfm.start + k) % s.mfm.n) ≠ byteAddr s.mfm.dst (0 + l) := by
    intro k hk l hl hbyte
    rw [start_add_mod, Nat.zero_add] at hbyte
    exact hd _ (mem_ringBytes.2 ⟨k, hk, hbyte⟩) (mem_linearBytes.2 ⟨l, hl, rfl⟩)
  obtain ⟨-, hout, hrest⟩ := decodeLoop_bits hpos (start_lt hpos) hm hbytes hloop
  simp only [Nat.zero_add, start_add_mod] at hout hrest
  exact ⟨_, he, hout, hrest⟩

/-- The bit before input bit `i` of an encode that starts with memory as it is: the input bit before it, or, before the first,
the ring bit before the cursor (R96). -/
theorem prevOf_eq (m : Memory) (base : Nat) (prev : Bool) (i : Nat) :
    prevOf m base 0 prev i = if i = 0 then prev else Memory.bit m (8 * base + (i - 1)) := by
  cases i with
  | zero => rfl
  | succ i => rw [if_neg (Nat.succ_ne_zero i), prevOf, Nat.zero_add, Nat.add_sub_cancel]

/-- Settles O24: the loop leaves the pair of each input bit at its two ring positions, until a later pair overwrites it. -/
theorem mfmEncodeWritesClockAndDataBits : Obligations.MfmEncodeWritesClockAndDataBits := by
  intro s hm hn ha hd
  rw [mfmN_ne_zero] at hn
  obtain ⟨c, w, w', hmem, hloop, he⟩ := exec_mfmEncode_loop hn ha
  rw [writeFootprint, if_neg hn, disjointBytes_iff] at hd
  have hpos : 0 < s.mfm.n := Nat.pos_of_ne_zero hn
  have hbytes : ∀ k, k < 2 * s.mfm.m → ∀ l, l < s.mfm.m →
      byteAddr s.mfm.dst ((s.mfm.start + k) % s.mfm.n) ≠ byteAddr s.mfm.src (0 + l) := by
    intro k hk l hl hbyte
    rw [start_add_mod, Nat.zero_add] at hbyte
    exact hd _ (mem_linearBytes.2 ⟨l, hl, rfl⟩) (mem_ringBytes.2 ⟨k, hk, hbyte⟩)
  obtain ⟨-, hclock, hdata, hrest⟩ := encodeLoop_bits hpos (start_lt hpos) (hmem ▸ hm) hbytes hloop
  simp only [Nat.zero_add, start_add_mod, hmem, prevOf_eq] at hclock hdata hrest
  exact ⟨_, he, hclock, hdata, hrest⟩

end Sys2Proof.Machine
end

section
/-! MFM encoding as a law about bits: an encode whose ring positions are all different lays the encoding of its input on the ring
(R94 to R96). From it follow the round trip (R98) and resumed encodes (R100). -/

namespace Sys2Proof.Machine

/-! ## The encoding of a run of bits (R94) -/

/-- The bit at place `k` of the encoding of an input that `prev` stands before: clock bits at even places, data bits at odd ones
(R94). -/
def mfmBit (input : Nat → Bool) (prev : Bool) (k : Nat) : Bool :=
  if k % 2 = 1 then input (k / 2) else !input (k / 2) && !(if k / 2 = 0 then prev else input (k / 2 - 1))

theorem mfmBit_clock (input : Nat → Bool) (prev : Bool) (i : Nat) :
    mfmBit input prev (2 * i) = (!input i && !(if i = 0 then prev else input (i - 1))) := by
  rw [mfmBit, if_neg (by omega), Nat.mul_div_cancel_left i (by omega)]

theorem mfmBit_data (input : Nat → Bool) (prev : Bool) (i : Nat) : mfmBit input prev (2 * i + 1) = input i := by
  rw [mfmBit, if_pos (by omega), show (2 * i + 1) / 2 = i by omega]

/-- Decoding a pair of an encoding gives its input bit (R92, R94). -/
theorem mfmBit_pair (input : Nat → Bool) (prev : Bool) (i : Nat) :
    (!mfmBit input prev (2 * i) && mfmBit input prev (2 * i + 1)) = input i := by
  rw [mfmBit_clock, mfmBit_data]
  cases input i <;> simp

/-- Place `k` of an encoding depends on the input bits up to that place only. -/
theorem mfmBit_congr {input input' : Nat → Bool} {n k : Nat} (h : ∀ i, i < n → input i = input' i) (prev : Bool)
    (hk : k < 2 * n) : mfmBit input prev k = mfmBit input' prev k := by
  unfold mfmBit
  rw [h (k / 2) (by omega), h (k / 2 - 1) (by omega)]

/-- The encoding of an input from bit `n` on goes on where the encoding of its first `n` bits ends (R100). -/
theorem mfmBit_resume (input : Nat → Bool) (prev : Bool) {n : Nat} (hn : 1 ≤ n) (k : Nat) :
    mfmBit (fun i => input (n + i)) (input (n - 1)) k = mfmBit input prev (2 * n + k) := by
  have hprev : (if k / 2 = 0 then input (n - 1) else input (n + (k / 2 - 1))) = input (n + k / 2 - 1) := by
    split
    · congr 1; omega
    · congr 1; omega
  unfold mfmBit
  rw [Nat.mul_add_mod, Nat.mul_add_div (by omega), if_neg (show ¬ n + k / 2 = 0 by omega), ← hprev]

/-! ## Laying bits at a run of places -/

/-- Memory `m'` is `m` with the bits of the places from `lo` up to `hi` laid in it, and every other buffer bit as it was. -/
structure Lays (place : Nat → Nat) (bits : Nat → Bool) (lo hi : Nat) (m m' : Memory) : Prop where
  laid : ∀ k, lo ≤ k → k < hi → Memory.bit m' (place k) = bits k
  kept : ∀ j, (∀ k, lo ≤ k → k < hi → j ≠ place k) → Memory.bit m' j = Memory.bit m j

section Lays
variable {place : Nat → Nat} {bits : Nat → Bool} {lo mid hi : Nat} {m m' m'' : Memory}

/-- Two adjoining runs laid one after the other are one run, when no place of the second is one of the first. -/
theorem Lays.trans (hlo : lo ≤ mid) (hhi : mid ≤ hi) (h : Lays place bits lo mid m m') (h' : Lays place bits mid hi m' m'')
    (hne : ∀ k, lo ≤ k → k < mid → ∀ l, mid ≤ l → l < hi → place k ≠ place l) : Lays place bits lo hi m m'' where
  laid k hk hk' := by
    by_cases hmid : k < mid
    · rw [h'.kept _ (hne k hk hmid), h.laid k hk hmid]
    · exact h'.laid k (Nat.not_lt.1 hmid) hk'
  kept j hj := by
    rw [h'.kept j fun k hk hk' => hj k (hlo.trans hk) hk', h.kept j fun k hk hk' => hj k hk (hk'.trans_le hhi)]

/-- Laying the same bits at the same places leaves the same buffer bits. -/
theorem Lays.bit_eq (h : Lays place bits lo hi m m') (h' : Lays place bits lo hi m m'') (j : Nat) :
    Memory.bit m' j = Memory.bit m'' j := by
  by_cases hj : ∃ k, lo ≤ k ∧ k < hi ∧ j = place k
  · obtain ⟨k, hk, hk', rfl⟩ := hj
    rw [h.laid k hk hk', h'.laid k hk hk']
  · have hout : ∀ k, lo ≤ k → k < hi → j ≠ place k := fun k hk hk' e => hj ⟨k, hk, hk', e⟩
    rw [h.kept j hout, h'.kept j hout]

end Lays

/-! ## An encode that fits its ring, whole or in parts (R98, R100) -/

/-- The buffer bit at the `k`-th ring position from the cursor of an encode (R55). -/
def State.ringPlace (s : State) (k : Nat) : Nat := 8 * s.mfmDst.toNat + (s.mfmCursor.toNat + k) % s.mfmN.toNat

/-- Bit `i` of the input of an MFM command. -/
def State.inputBit (s : State) (i : Nat) : Bool := Memory.bit s.mem (8 * s.mfmSrc.toNat + i)

/-- The ring bit before the cursor, from which an encode starts (R96). -/
def State.ringPrev (s : State) : Bool :=
  Memory.bit s.mem (8 * s.mfmDst.toNat + prevPosition s.mfmN.toNat (s.mfmCursor.toNat % s.mfmN.toNat))

/-- The position before the one reached by `k + 1` steps is the one reached by `k` (R96). -/
theorem prevPosition_succ {n : Nat} (hn : 0 < n) (c k : Nat) : prevPosition n ((c + (k + 1)) % n) = (c + k) % n := by
  rw [prevPosition, Nat.add_sub_assoc hn, Nat.mod_add_mod, show c + (k + 1) + (n - 1) = c + k + n by omega,
    Nat.add_mod_right]

section Fits
variable {s t : State}

/-- Ring positions less than N apart are different places. -/
theorem ringPlace_ne {k l : Nat} (hkl : k < l) (hln : l < k + s.mfmN.toNat) : s.ringPlace k ≠ s.ringPlace l := by
  have := ring_positions_ne (n := s.mfmN.toNat) (c := s.mfmCursor.toNat) hkl hln
  unfold State.ringPlace
  omega

theorem mem_writeFootprint_mfmEncode (hn : s.mfm.n ≠ 0) {a : Nat} :
    a ∈ writeFootprint .mfmEncode s ↔ ∃ k, k < 2 * s.mfmM.toNat ∧ s.ringPlace k / 8 = a := by
  rw [writeFootprint, if_neg hn, mem_ringBytes]
  simp only [State.ringPlace, byte_of_bit]
  rfl

/-- A completed encode whose 2M ring positions are all different lays the encoding of its input there. -/
theorem encode_lays_of_fits (hm : Memory.wf s.mem = true) (hc : commandFault .mfmEncode s = none)
    (hd : disjointBytes (linearBytes s.mfmSrc.toNat s.mfmM.toNat) (writeFootprint .mfmEncode s) = true)
    (h : exec .mfmEncode s = .next t) (hfit : 2 * s.mfmM.toNat ≤ s.mfmN.toNat) :
    Lays s.ringPlace (mfmBit s.inputBit s.ringPrev) 0 (2 * s.mfmM.toNat) s.mem t.mem := by
  have hn := mfm_n_ne_zero_of_completes (.inr rfl) hc
  obtain ⟨t', he, hclock, hdata, hrest⟩ :=
    mfmEncodeWritesClockAndDataBits s hm (mfmN_ne_zero.2 hn) ((commandFault_mfm (.inr rfl) hn).1 hc) hd
  cases he.symm.trans h
  have hpairs : ∀ k, k < 2 * s.mfmM.toNat → Memory.bit t.mem (s.ringPlace k) = mfmBit s.inputBit s.ringPrev k := by
    refine forall_lt_two_mul.2 fun i hi => ⟨?_, ?_⟩
    · rw [mfmBit_clock]
      exact hclock i hi (by omega)
    · rw [mfmBit_data]
      exact hdata i hi (by omega)
  exact ⟨fun k _ => hpairs k, fun j hj => hrest j fun k => hj k (Nat.zero_le k)⟩

/-- An encode leaves alone every bit of a buffer that shares no byte with the ring positions written. -/
theorem encode_keeps_disjoint {base count : Nat}
    (hd : disjointBytes (linearBytes base count) (writeFootprint .mfmEncode s) = true) (h : exec .mfmEncode s = .next t)
    {i : Nat} (hi : i < count) : Memory.bit t.mem (8 * base + i) = Memory.bit s.mem (8 * base + i) := by
  refine Memory.bit_congr (exec_read_outside h (disjointBytes_iff.1 hd _ ?_))
  rw [byte_of_bit]
  exact mem_linearBytes.2 ⟨i, hi, rfl⟩

end Fits

/-- Settles O29: the pairs the decode reads are those the encode left, and decoding a pair gives the bit it encodes. -/
theorem encodeThenDecodeReturnsTheBits : Obligations.EncodeThenDecodeReturnsTheBits := by
  intro s t u v hm hfit hd hc hst hmem hsrc hN hM hcursor hd' hc' huv
  have hn := mfm_n_ne_zero_of_completes (.inl rfl) hc'
  have hlays := encode_lays_of_fits hm hc hd hst hfit
  obtain ⟨v', he, hout, -⟩ := mfmDecodeEmitsOneBitPerPair u (hmem ▸ exec_mem_wf hst hm) (mfmN_ne_zero.2 hn)
    ((commandFault_mfm (.inl rfl) hn).1 hc') hd'
  cases he.symm.trans huv
  rw [hmem, hsrc, hN, hM, hcursor] at hout
  refine ⟨fun i hi => ?_, ?_, fun hpos => cursor_of_completes (.inr rfl) hc hst (.inl hpos)⟩
  · calc Memory.bit v.mem (8 * u.mfmDst.toNat + i)
      _ = (!Memory.bit t.mem (s.ringPlace (2 * i)) && Memory.bit t.mem (s.ringPlace (2 * i + 1))) := hout i hi
      _ = (!mfmBit s.inputBit s.ringPrev (2 * i) && mfmBit s.inputBit s.ringPrev (2 * i + 1)) := by
          rw [hlays.laid _ (by omega) (by omega), hlays.laid _ (by omega) (by omega)]
      _ = s.inputBit i := mfmBit_pair _ _ i
  · rw [eq_afterMfm_of_completes (.inr rfl) hc hst, eq_afterMfm_of_completes (.inl rfl) hc' huv]
    simp only [State.afterMfm, hN, hM, hcursor]

/-- The encode of `s'` works on the ring of the encode of `s`, from `d` positions after its cursor. -/
structure OnRingOf (s : State) (d : Nat) (s' : State) : Prop where
  dst : s'.mfmDst = s.mfmDst
  n : s'.mfmN = s.mfmN
  cursor : s'.mfmCursor.toNat % s.mfmN.toNat = (s.mfmCursor.toNat + d) % s.mfmN.toNat

section Parts
variable {s s' t' : State} {d : Nat}

theorem OnRingOf.ringPlace (h : OnRingOf s d s') (k : Nat) : s'.ringPlace k = s.ringPlace (d + k) := by
  rw [State.ringPlace, h.dst, h.n, Nat.add_mod, h.cursor, ← Nat.add_mod, Nat.add_assoc]
  rfl

/-- The bit before a cursor that is past the whole's is the one at the place before it. -/
theorem OnRingOf.ringPrev_succ (h : OnRingOf s (d + 1) s') (hn : s.mfm.n ≠ 0) :
    s'.ringPrev = Memory.bit s'.mem (s.ringPlace d) := by
  rw [State.ringPrev, h.dst, h.n, h.cursor, prevPosition_succ (n := s.mfmN.toNat) (Nat.pos_of_ne_zero hn)]
  rfl

theorem OnRingOf.ringPrev_zero (h : OnRingOf s 0 s') (hmem : s'.mem = s.mem) : s'.ringPrev = s.ringPrev := by
  rw [State.ringPrev, h.dst, h.n, h.cursor, hmem]
  rfl

/-- A part that ends within the whole writes bytes of the whole's ring positions only. -/
theorem OnRingOf.writeFootprint_subset (h : OnRingOf s d s') (hn : s.mfm.n ≠ 0)
    (hpart : d + 2 * s'.mfmM.toNat ≤ 2 * s.mfmM.toNat) :
    ∀ a ∈ writeFootprint .mfmEncode s', a ∈ writeFootprint .mfmEncode s := by
  have hn' : s'.mfm.n ≠ 0 := by rw [← mfmN_ne_zero, h.n]; exact mfmN_ne_zero.2 hn
  intro a ha
  obtain ⟨k, hk, rfl⟩ := (mem_writeFootprint_mfmEncode hn').1 ha
  exact (mem_writeFootprint_mfmEncode hn).2 ⟨d + k, by omega, by rw [h.ringPlace]⟩

theorem disjointBytes_subset {xs ys zs : List Nat} (h : disjointBytes xs ys = true) (hsub : ∀ a ∈ zs, a ∈ ys) :
    disjointBytes xs zs = true :=
  disjointBytes_iff.2 fun a ha hz => disjointBytes_iff.1 h a ha (hsub a hz)

/-- The encode of a part lays its bits at places of the whole. When they are the bits of the whole's encoding from there on, it
lays those. -/
theorem OnRingOf.encode_lays (h : OnRingOf s d s') (hpart : d + 2 * s'.mfmM.toNat ≤ 2 * s.mfmM.toNat)
    (hfit : 2 * s.mfmM.toNat ≤ s.mfmN.toNat) (hm : Memory.wf s'.mem = true) (hn : s.mfm.n ≠ 0)
    (hd : disjointBytes (linearBytes s'.mfmSrc.toNat s'.mfmM.toNat) (writeFootprint .mfmEncode s) = true)
    (hc : commandFault .mfmEncode s' = none) (he : exec .mfmEncode s' = .next t') {bits : Nat → Bool}
    (hbits : ∀ k, k < 2 * s'.mfmM.toNat → mfmBit s'.inputBit s'.ringPrev k = bits (d + k)) :
    Lays s.ringPlace bits d (d + 2 * s'.mfmM.toNat) s'.mem t'.mem := by
  have hlays := encode_lays_of_fits hm hc (disjointBytes_subset hd (h.writeFootprint_subset hn hpart)) he
    (by rw [h.n]; omega)
  refine ⟨fun k hk hk' => ?_, fun j hj => hlays.kept j fun k _ hk => ?_⟩
  · obtain ⟨l, rfl⟩ := Nat.exists_eq_add_of_le hk
    rw [← h.ringPlace, hlays.laid l (Nat.zero_le l) (by omega), hbits l (by omega)]
  · rw [h.ringPlace]
    exact hj (d + k) (by omega) (by omega)

end Parts

/-- Settles O30: the two parts lay the encoding of the whole, the second because its prev is the first part's last data bit. -/
theorem encodingResumesSeamlessly : Obligations.EncodingResumesSeamlessly := by
  intro s s1 t1 s2 t2 t hm hmem1 hdst1 hN1 hcur1 hmem2 hdst2 hN2 hcur2 hpos hM hfit hin1 hin2 hd hd1 hd2 hc hc1 hc2
    hst hst1 hst2
  have hn := mfm_n_ne_zero_of_completes (.inr rfl) hc
  have hm1 : Memory.wf s1.mem = true := hmem1 ▸ hm
  have hcursor1 := cursor_of_completes (.inr rfl) hc1 hst1 (.inl hpos)
  rw [hcur1, hN1, ← hcur2] at hcursor1
  -- the first part starts at the cursor of the whole, the second after the first part's pairs
  have hring1 : OnRingOf s 0 s1 := ⟨hdst1, hN1, by rw [hcur1, Nat.add_zero]⟩
  have hring2 : OnRingOf s (2 * s1.mfmM.toNat) s2 := ⟨hdst2, hN2, by rw [hcursor1, Nat.mod_mod]⟩
  have hinput1 : ∀ i, i < s1.mfmM.toNat → s1.inputBit i = s.inputBit i := fun i hi => by
    rw [State.inputBit, hmem1]
    exact hin1 i hi
  have hlays1 : Lays s.ringPlace (mfmBit s.inputBit s.ringPrev) 0 (2 * s1.mfmM.toNat) s.mem t1.mem := by
    have h := hring1.encode_lays (bits := mfmBit s.inputBit s.ringPrev) (by omega) hfit hm1 hn hd1 hc1 hst1 fun k hk => by
      rw [mfmBit_congr hinput1 _ hk, hring1.ringPrev_zero hmem1, Nat.zero_add]
    rwa [Nat.zero_add, hmem1] at h
  have hinput2 : ∀ i, i < s2.mfmM.toNat → s2.inputBit i = s.inputBit (s1.mfmM.toNat + i) := fun i hi => by
    have hd21 := disjointBytes_subset hd2 (hring1.writeFootprint_subset hn (by omega))
    rw [State.inputBit, hmem2, encode_keeps_disjoint hd21 hst1 hi, hmem1]
    exact hin2 i hi
  have hprev2 : s2.ringPrev = s.inputBit (s1.mfmM.toNat - 1) := by
    have hlast : 2 * s1.mfmM.toNat = 2 * (s1.mfmM.toNat - 1) + 1 + 1 := by omega
    rw [OnRingOf.ringPrev_succ (hlast ▸ hring2) hn, hmem2, hlays1.laid _ (Nat.zero_le _) (by omega), mfmBit_data]
  have hlays2 : Lays s.ringPlace (mfmBit s.inputBit s.ringPrev) (2 * s1.mfmM.toNat) (2 * s.mfmM.toNat) t1.mem t2.mem := by
    have h := hring2.encode_lays (by omega) hfit (hmem2 ▸ exec_mem_wf hst1 hm1) hn hd2 hc2 hst2 fun k hk => by
      rw [mfmBit_congr hinput2 _ hk, hprev2, mfmBit_resume _ s.ringPrev hpos]
    rwa [← Nat.mul_add, ← hM, hmem2] at h
  refine ⟨?_, BitVec.eq_of_toNat_eq ?_⟩
  · have hparts := hlays1.trans (Nat.zero_le _) (by omega) hlays2
      fun k _ hk l hl hl' => ringPlace_ne (by omega) (by omega)
    exact hparts.bit_eq (encode_lays_of_fits hm hc hd hst hfit)
  · have hlt : s2.mfmCursor.toNat < s2.mfmN.toNat := by
      rw [hcursor1, hN2]
      exact Nat.mod_lt _ (Nat.pos_of_ne_zero hn)
    rw [cursor_of_completes (.inr rfl) hc2 hst2 (.inr hlt), cursor_of_completes (.inr rfl) hc hst (.inl (by omega)),
      hcursor1, hN2, hM, Nat.mod_add_mod, Nat.add_assoc, Nat.mul_add]

end Sys2Proof.Machine
end

section
/-! The CRC-16 commands: what CRC.BUILD, CRC.RESET and CRC.UPDATE leave (R105 to R107), CRC.CHECK turn by turn up to the first byte
it refuses (R108, R119), and the append law (R110). -/

namespace Sys2Proof.Machine

/-! ## The nibble step and the byte update, fault or value (R103, R104, R113) -/

/-- The fault of a nibble step whose index the table does not hold (R113). -/
def indexFault (a : Half) (n : Nat) : Raise := ⟨.tableIndex, BitVec.ofNat 32 ((a.toNat >>> 12) ^^^ n)⟩

theorem nibbleStep_eq (t : Table) (a : Half) (n : Nibble) (w : Work) :
    nibbleStep t a n w =
      if IndexHeld t a n.toNat then .ok (tableNibble t a n.toNat) w else .error (indexFault a n.toNat) w := by
  have hcases := nibbleStep_cases t a n w
  rw [nibbleIndex_eq, nibbleValue_eq] at hcases
  rcases hcases with ⟨held, e⟩ | ⟨beyond, e⟩
  · rw [e, if_pos held]
  · rw [e, if_neg (Nat.not_lt.2 beyond)]
    rfl

/-- Everything a byte update can do: the high nibble's fault, else the low nibble's, else its value. -/
theorem byteUpdate_eq (t : Table) (a : Half) (b : Byte) (w : Work) :
    byteUpdate t a b w =
      if IndexHeld t a (b.toNat / 16) then
        if IndexHeld t (tableNibble t a (b.toNat / 16)) (b.toNat % 16) then .ok (tableByte t a b) w
        else .error (indexFault (tableNibble t a (b.toNat / 16)) (b.toNat % 16)) w
      else .error (indexFault a (b.toNat / 16)) w := by
  rw [byteUpdate, cmd_bind, nibbleStep_eq, highNibble_toNat]
  split_ifs with high low
  · simp only [nibbleStep_eq, lowNibble_toNat, if_pos low]
    rfl
  · simp only [nibbleStep_eq, lowNibble_toNat, if_neg low]
  · rfl

theorem byteUpdate_eq_ok {t : Table} {a a' : Half} {b : Byte} {w w' : Work} (h : byteUpdate t a b w = .ok a' w') :
    a' = tableByte t a b ∧ w' = w := by
  rw [byteUpdate_eq] at h
  split_ifs at h
  cases h
  exact ⟨rfl, rfl⟩

/-- The index of a nibble step has four bits (R103). -/
theorem nibbleIndex_lt_sixteen (a : Half) {n : Nat} (hn : n < 16) : (a.toNat >>> 12) ^^^ n < 16 := by
  have htop : a.toNat >>> 12 < 2 ^ 4 := by
    rw [Nat.shiftRight_eq_div_pow]
    omega
  exact Nat.xor_lt_two_pow htop hn

/-- A table of width at least 4 holds every nibble index (R107: "only when TW < 4"). -/
theorem byteHeld_wide {t : Table} (h : 4 ≤ t.tw.toNat) (a : Half) (b : Byte) : ByteHeld t a b := by
  have h16 := sixteen_le_two_pow h
  have held : ∀ (x : Half) {n : Nat}, n < 16 → IndexHeld t x n := fun x _ hn =>
    Nat.lt_of_lt_of_le (nibbleIndex_lt_sixteen x hn) h16
  exact ⟨held a (by omega), held _ (by omega)⟩

/-! ## CRC.BUILD, CRC.RESET and CRC.UPDATE (R105 to R107) -/

/-- A command whose one output is CRC_ACC, when its body completes and leaves memory alone (R42). -/
theorem perform_crcAcc_of_mem_eq {i : Instr} {body : Cmd Half} {s : State} {a : Half} {w : Work}
    (hbody : body ⟨s.mem, []⟩ = .ok a w) (hmem : w.mem = s.mem) :
    perform i body (fun a u => { u with crcAcc := a }) s = { s with crcAcc := a, pending := none } := by
  rw [perform_ok hbody, hmem]
  rfl

/-- Settles O31: the two cases of the body of CRC.BUILD. -/
theorem crcBuildLoadsTheTableOrFaults : Obligations.CrcBuildLoadsTheTableOrFaults := by
  intro s
  rcases buildBody_cases s.platform s.crcPoly s.crcWidth ⟨s.mem, []⟩ with ⟨legal, hbody⟩ | ⟨illegal, hbody⟩
  · exact ⟨fun _ _ => congrArg Host.Outcome.next (perform_ok hbody), fun h => absurd h (by omega)⟩
  · refine ⟨fun h1 h2 => absurd illegal (by omega), fun _ => ?_⟩
    rw [trunc32, BitVec.ofNat_toNat] at hbody
    exact congrArg Host.Outcome.next (perform_error_of_mem_eq hbody rfl)

/-- Settles O32: the body of CRC.RESET always completes, with CRC_INIT. -/
theorem crcResetCopiesTheInitialValue : Obligations.CrcResetCopiesTheInitialValue := fun _ =>
  congrArg Host.Outcome.next (perform_crcAcc_of_mem_eq rfl rfl)

/-- Settles O33: the three ends of the byte update of CRC_ACC and CRC_DATA. -/
theorem crcUpdateStepsTwoNibblesOrFaults : Obligations.CrcUpdateStepsTwoNibblesOrFaults := by
  rintro s i1 i2 a1 rfl rfl rfl
  have hbody := byteUpdate_eq s.table s.crcAcc s.crcData ⟨s.mem, []⟩
  simp only [← Nat.shiftRight_eq_div_pow]
  rw [← tableNibble]
  split_ifs with high low
  · rw [if_neg (Nat.not_lt.2 high)] at hbody
    exact congrArg Host.Outcome.next (perform_error_of_mem_eq hbody rfl)
  · rw [if_pos (Nat.not_le.1 high), if_neg (Nat.not_lt.2 low)] at hbody
    exact congrArg Host.Outcome.next (perform_error_of_mem_eq hbody rfl)
  · rw [if_pos (Nat.not_le.1 high), if_pos (Nat.not_le.1 low)] at hbody
    exact congrArg Host.Outcome.next (perform_crcAcc_of_mem_eq hbody rfl)

/-- Settles O34: a wide table holds both indices. -/
theorem crcUpdateCompletesWithAWideTable : Obligations.CrcUpdateCompletesWithAWideTable := fun _ h =>
  congrArg Host.Outcome.next (perform_crcAcc_of_mem_eq (byteUpdate_held (byteHeld_wide h _ _) _) rfl)

/-! ## CRC.CHECK, turn by turn (R108) -/

/-- A turn of CRC.CHECK's loop: the byte at an exact address, and its byte update. -/
def checkTurn (p : Platform) (t : Table) (addr : Nat) (a : Half) : Cmd Half := do
  let x ← checkAddr addr
  let b ← memRead p x
  byteUpdate t a b

section CheckLoop
variable {p : Platform} {t : Table} {n addr : Nat} {a : Half}

theorem checkLoop_succ : checkLoop p t (n + 1) addr a = checkTurn p t addr a >>= checkLoop p t n (addr + 1) := by
  simp only [checkLoop, checkTurn, bind_assoc]

/-- A turn at a byte the block may read makes that read and updates with the byte read. -/
theorem checkTurn_of_allowed (h : readAllowed p addr = true) (w : Work) :
    checkTurn p t addr a w = byteUpdate t a (Memory.read w.mem addr)
      ⟨w.mem, ⟨.read, addr, Memory.read w.mem addr⟩ :: w.accesses⟩ := by
  obtain ⟨hlt, hread⟩ := (readAllowed_iff ..).1 h
  rcases checkAddr_cases addr w with ⟨-, ha⟩ | ⟨hge, -⟩
  · rcases memRead_cases p addr w with ⟨-, hm⟩ | ⟨hno, -⟩
    · rw [checkTurn, cmd_bind_ok ha, cmd_bind_ok hm]
    · simp [hread] at hno
  · omega

/-- A turn at a byte the block may not read makes no access (R50, R54). -/
theorem checkTurn_of_refused (h : accessAllowed p (.read, addr) = false) (w : Work) :
    checkTurn p t addr a w = .error (accessFault (.read, addr)) w := by
  rcases checkAddr_cases addr w with ⟨hlt, ha⟩ | ⟨hge, ha⟩
  · rcases memRead_cases p addr w with ⟨hread, -⟩ | ⟨-, hm⟩
    · simp [accessAllowed_iff.2 ⟨hlt, hread⟩] at h
    · rw [checkTurn, cmd_bind_ok ha, cmd_bind_error hm, accessFault_refused hlt]
  · rw [checkTurn, cmd_bind_error ha, accessFault_overflow hge]

/-- A turn completes only with the byte update of its byte, and leaves memory alone. -/
theorem checkTurn_eq_ok {a' : Half} {w w' : Work} (h : checkTurn p t addr a w = .ok a' w') :
    a' = tableByte t a (Memory.read w.mem addr) ∧ w'.mem = w.mem := by
  cases hallowed : accessAllowed p (.read, addr)
  · rw [checkTurn_of_refused hallowed] at h
    cases h
  · rw [checkTurn_of_allowed hallowed] at h
    obtain ⟨ha, rfl⟩ := byteUpdate_eq_ok h
    exact ⟨ha, rfl⟩

/-- The first byte of a buffer, then the others. -/
theorem bytesAt_succ (m : Memory) (base count : Nat) :
    bytesAt m base (count + 1) = Memory.read m base :: bytesAt m (base + 1) count := by
  simp [bytesAt, List.range_succ_eq_map, Function.comp_def, Nat.add_comm, Nat.add_left_comm]

theorem tableBytes_append (bs bs' : List Byte) : tableBytes t a (bs ++ bs') = tableBytes t (tableBytes t a bs) bs' :=
  List.foldl_append

/-- A loop that completes has taken every byte of its buffer. -/
theorem checkLoop_eq_ok {a' : Half} {w w' : Work} (h : checkLoop p t n addr a w = .ok a' w') :
    a' = tableBytes t a (bytesAt w.mem addr n) := by
  induction n generalizing addr a w with
  | zero =>
    cases h
    rfl
  | succ n ih =>
    rw [checkLoop_succ] at h
    obtain ⟨a1, w1, hturn, hrest⟩ := cmd_bind_eq_ok.1 h
    obtain ⟨rfl, hmem⟩ := checkTurn_eq_ok hturn
    rw [ih hrest, hmem, bytesAt_succ]
    rfl

/-- Byte `k` of a buffer lets the turns of the loop go on: it may be read, and its two nibble indices are held (R108, R119). -/
def TurnCompletes (p : Platform) (t : Table) (m : Memory) (addr : Nat) (a : Half) (k : Nat) : Prop :=
  readAllowed p (addr + k) = true ∧ ByteHeld t (tableBytes t a (bytesAt m addr k)) (Memory.read m (addr + k))

/-- Turns that complete leave the loop with the bytes that remain, and memory alone. -/
theorem checkLoop_after {k : Nat} {w : Work} (h : ∀ j, j < k → TurnCompletes p t w.mem addr a j) :
    ∃ w', w'.mem = w.mem ∧
      checkLoop p t (k + n) addr a w = checkLoop p t n (addr + k) (tableBytes t a (bytesAt w.mem addr k)) w' := by
  induction k generalizing addr a w with
  | zero => exact ⟨w, rfl, by rw [Nat.zero_add]; rfl⟩
  | succ k ih =>
    obtain ⟨hread, hheld⟩ : readAllowed p addr = true ∧ ByteHeld t a (Memory.read w.mem addr) := h 0 (by omega)
    have hturn := (checkTurn_of_allowed (t := t) (a := a) hread w).trans (byteUpdate_held hheld _)
    obtain ⟨w', hmem, hloop⟩ := ih (addr := addr + 1) (a := tableByte t a (Memory.read w.mem addr))
      (w := ⟨w.mem, ⟨.read, addr, Memory.read w.mem addr⟩ :: w.accesses⟩) fun j hj => by
        have hj := h (j + 1) (by omega)
        rw [TurnCompletes, bytesAt_succ, ← Nat.add_assoc, Nat.add_right_comm addr] at hj
        exact hj
    refine ⟨w', hmem, ?_⟩
    rw [Nat.add_right_comm, checkLoop_succ, cmd_bind_ok hturn, bytesAt_succ, ← Nat.add_assoc, Nat.add_right_comm addr]
    exact hloop

end CheckLoop

section Check
variable {s t : State}

/-- CRC.CHECK when every turn completes. -/
theorem exec_crcCheck_of_completes
    (h : ∀ k, k < s.crcLen.toNat → TurnCompletes s.platform s.table s.mem s.crcBase.toNat s.crcInit k) :
    exec .crcCheck s = .next { s with
      crcAcc := tableBytes s.table s.crcInit (bytesAt s.mem s.crcBase.toNat s.crcLen.toNat), pending := none } := by
  obtain ⟨w, hmem, hbody⟩ := checkLoop_after (n := 0) (w := ⟨s.mem, []⟩) h
  exact congrArg Host.Outcome.next (perform_crcAcc_of_mem_eq hbody hmem)

/-- What a CRC.CHECK that raises no fault leaves in CRC_ACC. -/
theorem crcAcc_of_crcCheck (hc : commandFault .crcCheck s = none) (ht : exec .crcCheck s = .next t) :
    t.crcAcc = tableBytes s.table s.crcInit (bytesAt s.mem s.crcBase.toNat s.crcLen.toNat) := by
  obtain ⟨a, w, hbody⟩ := runBody_fault_none.1 hc
  cases ht
  have hacc : (perform .crcCheck (checkBody s) (fun a u => { u with crcAcc := a }) s).crcAcc = a := by
    rw [perform_ok hbody]
    rfl
  exact hacc.trans (checkLoop_eq_ok hbody)

end Check

section FirstFault
variable {s : State} {j : Nat} {a : Half} (hj : j < s.crcLen.toNat)
  (hbefore : ∀ k, k < j → TurnCompletes s.platform s.table s.mem s.crcBase.toNat s.crcInit k)
  (ha : a = tableBytes s.table s.crcInit (bytesAt s.mem s.crcBase.toNat j))
include hj hbefore ha

/-- CRC.CHECK when the turn at byte j raises a fault and the turns before it complete (R119). -/
theorem exec_crcCheck_of_turn_fault {r : Raise}
    (h : ∀ l, ∃ w, checkTurn s.platform s.table (s.crcBase.toNat + j) a ⟨s.mem, l⟩ = .error r w ∧ w.mem = s.mem) :
    exec .crcCheck s = .next (recordFault ⟨r.code, 0x23#8, r.info⟩ { s with pending := none }) := by
  subst ha
  obtain ⟨n, hlen⟩ : ∃ n, s.crcLen.toNat = j + (n + 1) := Nat.exists_eq_add_of_lt hj
  obtain ⟨⟨_, l⟩, rfl, hloop⟩ := checkLoop_after (n := n + 1) (w := ⟨s.mem, []⟩) hbefore
  obtain ⟨w, hfault, hmem⟩ := h l
  rw [checkLoop_succ, cmd_bind_error hfault, ← hlen] at hloop
  exact congrArg Host.Outcome.next (perform_error_of_mem_eq hloop hmem)

theorem exec_crcCheck_of_refused_byte (h : accessAllowed s.platform (.read, s.crcBase.toNat + j) = false) :
    exec .crcCheck s = .next (recordFault ⟨(accessFault (.read, s.crcBase.toNat + j)).code, 0x23#8,
      (accessFault (.read, s.crcBase.toNat + j)).info⟩ { s with pending := none }) :=
  exec_crcCheck_of_turn_fault hj hbefore ha fun _ => ⟨_, checkTurn_of_refused h _, rfl⟩

theorem exec_crcCheck_of_update_fault {r : Raise} (hread : readAllowed s.platform (s.crcBase.toNat + j) = true)
    (h : ∀ w, byteUpdate s.table a (Memory.read s.mem (s.crcBase.toNat + j)) w = .error r w) :
    exec .crcCheck s = .next (recordFault ⟨r.code, 0x23#8, r.info⟩ { s with pending := none }) :=
  exec_crcCheck_of_turn_fault hj hbefore ha fun _ => ⟨_, (checkTurn_of_allowed hread _).trans (h _), rfl⟩

end FirstFault

/-- Settles O35: every turn of the loop completes. -/
theorem crcCheckRunsOverEveryByte : Obligations.CrcCheckRunsOverEveryByte := by
  refine ⟨fun s hallowed hheld => ?_, fun _ a b h => byteHeld_wide h a b, fun s hlen => ?_⟩
  · have hread := (footprintAllowed_iff.1 hallowed).1
    refine exec_crcCheck_of_completes fun k hk => ⟨hread _ ?_, hheld k hk⟩
    exact List.mem_map.2 ⟨k, List.mem_range.2 hk, rfl⟩
  · have hzero : s.crcLen.toNat = 0 := by rw [hlen]; rfl
    have h := exec_crcCheck_of_completes (s := s) fun k hk => by omega
    rwa [hzero] at h

/-- Settles O36: the turn at byte j raises the fault, in the order address, access, high nibble, low nibble. -/
theorem crcCheckFaultsAtTheFirstRefusedByte : Obligations.CrcCheckFaultsAtTheFirstRefusedByte := by
  rintro s j a b hj hbefore ha rfl
  refine ⟨fun hover => ?_, fun hlt hbus => ?_, fun hread hhigh => ?_, fun hread hhigh hlow => ?_⟩
  · have h := exec_crcCheck_of_refused_byte hj hbefore ha (accessAllowed_eq_false (.inl hover))
    rwa [accessFault_overflow hover] at h
  · have h := exec_crcCheck_of_refused_byte hj hbefore ha (accessAllowed_eq_false (.inr hbus))
    rwa [accessFault_refused hlt] at h
  · exact exec_crcCheck_of_update_fault hj hbefore ha hread fun w => by rw [byteUpdate_eq, if_neg hhigh, indexFault]
  · exact exec_crcCheck_of_update_fault hj hbefore ha hread fun w => by
      rw [byteUpdate_eq, if_pos hhigh, if_neg hlow, indexFault]

/-! ## The append law (R110) -/

section Append
variable {t : Table} (h0 : t.entry 0 = 0#16)
include h0

/-- A nibble step fed the accumulator's own top nibble reads T[0], so it only shifts. -/
theorem tableNibble_own_top (a : Half) : tableNibble t a (a.toNat >>> 12) = a <<< 4 := by
  rw [tableNibble, Nat.xor_self, h0, BitVec.xor_zero]

/-- A byte update fed the accumulator's own high byte only shifts. -/
theorem tableByte_own_high (a : Half) : tableByte t a (a.extractLsb' 8 8) = a <<< 8 := by
  have hbyte : (a.extractLsb' 8 8).toNat = a.toNat / 256 := by
    rw [BitVec.extractLsb'_toNat, Nat.shiftRight_eq_div_pow]
    omega
  have hhigh : (a.extractLsb' 8 8).toNat / 16 = a.toNat >>> 12 := by
    rw [hbyte, Nat.shiftRight_eq_div_pow]
    omega
  have hlow : (a.extractLsb' 8 8).toNat % 16 = (a <<< 4).toNat >>> 12 := by
    rw [hbyte, BitVec.toNat_shiftLeft, Nat.shiftLeft_eq, Nat.shiftRight_eq_div_pow]
    omega
  rw [tableByte, hhigh, tableNibble_own_top h0, hlow, tableNibble_own_top h0, ← BitVec.shiftLeft_add]

/-- Fed its own high byte and then its own low byte, the accumulator runs empty (R110). -/
theorem tableBytes_own (a : Half) : tableBytes t a [a.extractLsb' 8 8, a.extractLsb' 0 8] = 0#16 := by
  have hlow : a.extractLsb' 0 8 = (a <<< 8).extractLsb' 8 8 := by
    ext j hj
    have hj16 : 8 + j < 16 := by omega
    simp [hj16, BitVec.getLsbD_eq_getElem (show j < 16 by omega)]
  calc tableBytes t a [a.extractLsb' 8 8, a.extractLsb' 0 8]
      = tableByte t (tableByte t a (a.extractLsb' 8 8)) (a.extractLsb' 0 8) := rfl
    _ = a <<< 8 <<< 8 := by rw [tableByte_own_high h0, hlow, tableByte_own_high h0]
    _ = 0#16 := by rw [← BitVec.shiftLeft_add, BitVec.shiftLeft_eq_zero (by omega)]

end Append

/-- Settles O38: the second check first takes the bytes of the first one, which leave r, and then r's own two bytes. -/
theorem appendedChecksumChecksToZero : Obligations.AppendedChecksumChecksToZero := by
  intro s t u v hloaded _ hs ht htable hinit _ hbytes hu hv
  have h0 : s.table.entry 0 = 0#16 := by rw [hloaded.entry (Nat.two_pow_pos _), tableEntry_zero]
  rw [crcAcc_of_crcCheck hu hv, htable, hinit, hbytes, tableBytes_append, ← crcAcc_of_crcCheck hs ht,
    tableBytes_own h0]

end Sys2Proof.Machine
end

section
/-! The table and the bitwise CRC register: entries below 16 do not depend on the width (R111), and the nibble steps and byte
updates of a built table feed the bitwise register the bits of a nibble and of a byte (R102 to R104, R110). -/

namespace Sys2Proof.Machine

/-! ## The entries of BuildTable below 16 (R102, R111) -/

/-- While the register's set bits stay below the top, the iterations only shift (R111). -/
theorem tableShifts_of_lt (poly : Half) {k : Nat} (hk : k ≤ 16) {r : Half} (h : r.toNat < 2 ^ (16 - k)) :
    tableShifts poly k r = r <<< k := by
  induction k generalizing r with
  | zero => exact (BitVec.shiftLeft_zero r).symm
  | succ k ih =>
    have hpow : 2 ^ (16 - k) = 2 * 2 ^ (16 - (k + 1)) := by
      rw [← Nat.pow_add_one', show 16 - (k + 1) + 1 = 16 - k by omega]
    have hsmall : 2 ^ (16 - (k + 1)) ≤ 2 ^ 15 := Nat.pow_le_pow_right (by omega) (by omega)
    have htop : r.getLsbD 15 = false := Nat.testBit_lt_two_pow (Nat.lt_of_lt_of_le h hsmall)
    have hshift : (r <<< 1).toNat < 2 ^ (16 - k) := by
      rw [BitVec.toNat_shiftLeft, Nat.shiftLeft_eq]
      omega
    rw [tableShifts, tableShift_of_msb_false poly r htop, ih (by omega) hshift, ← BitVec.shiftLeft_add, Nat.add_comm]

/-- A nibble at the top of the 16-bit register, where BuildTable starts the entry of a table of width 4 (R102). -/
def atTop (n : Nat) : Half := BitVec.ofNat 16 (n <<< 12)

theorem atTop_getLsbD (n j : Nat) :
    (atTop n).getLsbD j = (decide (j < 16) && (decide (12 ≤ j) && n.testBit (j - 12))) := by
  rw [atTop, BitVec.getLsbD_ofNat, Nat.testBit_shiftLeft]

/-- Below 16 an entry is its index at the top of the register and four iterations, whatever the width (R111). -/
theorem tableEntry_eq_shifts (poly : Half) {w i : Nat} (h4 : 4 ≤ w) (h16 : w ≤ 16) (hi : i < 16) :
    tableEntry poly w i = tableShifts poly 4 (atTop i) := by
  obtain ⟨k, rfl⟩ := Nat.exists_eq_add_of_le' h4
  have hplaced : i <<< (16 - (k + 4)) < 2 ^ (16 - k) := by
    rw [Nat.shiftLeft_eq, show 16 - k = 4 + (16 - (k + 4)) by omega, Nat.pow_add]
    exact Nat.mul_lt_mul_of_pos_right hi (Nat.two_pow_pos _)
  have hsmall : (BitVec.ofNat 16 (i <<< (16 - (k + 4)))).toNat < 2 ^ (16 - k) :=
    Nat.lt_of_le_of_lt (Nat.mod_le _ _) hplaced
  have hshifted : BitVec.ofNat 16 (i <<< (16 - (k + 4))) <<< k = atTop i := by
    rw [atTop, show 12 = 16 - (k + 4) + k by omega, Nat.shiftLeft_add]
    exact BitVec.eq_of_toNat_eq (by simp [Nat.shiftLeft_eq])
  rw [tableEntry, tableShifts_add, tableShifts_of_lt poly (by omega) hsmall, hshifted]

/-! ## The bitwise register (R110) -/

/-- A step fed the top bit of `z` where `z` is added to a register that holds `y`: `y` shifts as in R102, and `z` moves up. -/
theorem crcBitStep_xor (poly y z : Half) :
    crcBitStep poly (y ^^^ z) (z.getLsbD 15) = tableShift poly y ^^^ (z <<< 1) := by
  have hfeed : ((y ^^^ z).getLsbD 15 ^^ z.getLsbD 15) = y.getLsbD 15 := by simp
  rw [crcBitStep, hfeed, tableShift, BitVec.shiftLeft_xor_distrib]
  cases y.getLsbD 15
  · rfl
  · simp only [if_true]
    ac_rfl

theorem crcBits_append (poly a : Half) (bits bits' : List Bool) :
    crcBits poly a (bits ++ bits') = crcBits poly (crcBits poly a bits) bits' := List.foldl_append

/-- The first `k` bits of a 16-bit word, the top bit first. -/
def topBits (k : Nat) (z : Half) : List Bool := (List.range k).map fun j => z.getLsbD (15 - j)

theorem topBits_succ {k : Nat} (hk : k < 16) (z : Half) : topBits (k + 1) z = z.getLsbD 15 :: topBits k (z <<< 1) := by
  rw [topBits, List.range_succ_eq_map, List.map_cons, List.map_map, topBits]
  refine congrArg _ (List.map_congr_left fun j hj => ?_)
  have hj := List.mem_range.1 hj
  have hin : 15 - j < 16 := by omega
  have hmoved : ¬15 - j < 1 := by omega
  rw [Function.comp_apply, BitVec.getLsbD_shiftLeft, decide_eq_true hin, decide_eq_false hmoved, Nat.sub_sub]
  rfl

/-- The bitwise register fed the top bits of a word that is added to it. -/
theorem crcBits_topBits (poly : Half) {k : Nat} (hk : k ≤ 16) (y z : Half) :
    crcBits poly (y ^^^ z) (topBits k z) = tableShifts poly k y ^^^ (z <<< k) := by
  induction k generalizing y z with
  | zero => simp [topBits, crcBits, tableShifts]
  | succ k ih =>
    rw [topBits_succ (by omega), crcBits, List.foldl_cons, crcBitStep_xor, ← crcBits, ih (by omega), tableShifts,
      ← BitVec.shiftLeft_add, Nat.add_comm 1]

/-- The bits of a nibble, the most significant first. -/
def nibbleBits (n : Nat) : List Bool := (List.range 4).map fun j => n.testBit (3 - j)

/-- The bits of a byte, the most significant first (R51). -/
def byteBits (b : Byte) : List Bool := (List.range 8).map fun j => b.getLsbD (7 - j)

theorem topBits_atTop (n : Nat) : topBits 4 (atTop n) = nibbleBits n := by
  refine List.map_congr_left fun j hj => ?_
  have hj := List.mem_range.1 hj
  have hin : 15 - j < 16 := by omega
  have htop : 12 ≤ 15 - j := by omega
  rw [atTop_getLsbD, decide_eq_true hin, decide_eq_true htop, Bool.true_and, Bool.true_and,
    show 15 - j - 12 = 3 - j by omega]

theorem byteBits_eq (b : Byte) : byteBits b = nibbleBits (b.toNat / 16) ++ nibbleBits (b.toNat % 16) := by
  rw [byteBits, show List.range 8 = List.range 4 ++ (List.range 4).map (4 + ·) from rfl, List.map_append, List.map_map]
  refine congrArg₂ _ (List.map_congr_left fun j hj => ?_) (List.map_congr_left fun j hj => ?_)
  · have hj := List.mem_range.1 hj
    rw [show 16 = 2 ^ 4 from rfl, Nat.testBit_div_two_pow, BitVec.testBit_toNat, show 3 - j + 4 = 7 - j by omega]
  · have hlow : 3 - j < 4 := by omega
    rw [show 16 = 2 ^ 4 from rfl, Nat.testBit_mod_two_pow, BitVec.testBit_toNat, decide_eq_true hlow, Bool.true_and,
      Function.comp_apply, ← Nat.sub_sub]

/-- Adding a nibble to the register's top nibble leaves the nibble index there, and the other bits below (R103). -/
theorem xor_atTop (a : Half) (n : Nat) :
    a ^^^ atTop n = atTop ((a.toNat >>> 12) ^^^ n) ^^^ ((a <<< 4) >>> 4) := by
  refine BitVec.eq_of_getLsbD_eq fun j hj => ?_
  simp only [BitVec.getLsbD_xor, atTop_getLsbD, Nat.testBit_xor, Nat.testBit_shiftRight, BitVec.testBit_toNat,
    BitVec.getLsbD_ushiftRight, BitVec.getLsbD_shiftLeft]
  by_cases htop : 12 ≤ j
  · have hout : ¬4 + j < 16 := by omega
    simp [htop, hj, hout]
  · have hin : 4 + j < 16 := by omega
    simp [htop, hin]

section Built
variable {t : Table} (hbuilt : t.entries = buildTable t.tpoly t.tw.toNat) (h4 : 4 ≤ t.tw.toNat) (h16 : t.tw.toNat ≤ 16)
include hbuilt h4 h16

/-- A nibble step against a built table feeds the bitwise register the four bits of the nibble (R103). -/
theorem tableNibble_eq_crcBits (a : Half) {n : Nat} (hn : n < 16) :
    tableNibble t a n = crcBits t.tpoly a (nibbleBits n) := by
  have hidx := nibbleIndex_lt_sixteen a hn
  have hlow : ((a <<< 4) >>> 4).toNat < 2 ^ (16 - 4) := by
    rw [BitVec.toNat_ushiftRight, Nat.shiftRight_eq_div_pow]
    omega
  have hentry : t.entry ((a.toNat >>> 12) ^^^ n) = tableShifts t.tpoly 4 (atTop ((a.toNat >>> 12) ^^^ n)) := by
    rw [Table.entry, hbuilt, buildTable_getD _ (Nat.lt_of_lt_of_le hidx (sixteen_le_two_pow h4)),
      tableEntry_eq_shifts _ h4 h16 hidx]
  have hshift : ((a <<< 4) >>> 4) <<< 4 = a <<< 4 := by
    refine BitVec.eq_of_toNat_eq ?_
    simp only [BitVec.toNat_shiftLeft, BitVec.toNat_ushiftRight, Nat.shiftLeft_eq, Nat.shiftRight_eq_div_pow]
    omega
  have hout : atTop n <<< 4 = 0#16 := by
    refine BitVec.eq_of_getLsbD_eq fun j hj => ?_
    have hbelow : ¬12 ≤ j - 4 := by omega
    simp [atTop_getLsbD, hbelow]
  calc tableNibble t a n
      = tableShifts t.tpoly 4 (a ^^^ atTop n) := by
        rw [tableNibble, hentry, xor_atTop, tableShifts_xor, tableShifts_of_lt _ (by omega) hlow, hshift, BitVec.xor_comm]
    _ = crcBits t.tpoly (a ^^^ atTop n ^^^ atTop n) (topBits 4 (atTop n)) := by
        rw [crcBits_topBits _ (by omega), hout, BitVec.xor_zero]
    _ = crcBits t.tpoly a (nibbleBits n) := by rw [topBits_atTop, BitVec.xor_assoc, BitVec.xor_self, BitVec.xor_zero]

/-- A byte update against a built table feeds the bitwise register the eight bits of the byte (R104). -/
theorem tableByte_eq_crcBits (a : Half) (b : Byte) : tableByte t a b = crcBits t.tpoly a (byteBits b) := by
  rw [tableByte, tableNibble_eq_crcBits hbuilt h4 h16 a (by omega), tableNibble_eq_crcBits hbuilt h4 h16 _ (by omega),
    byteBits_eq, crcBits_append]

/-- A run of bytes feeds the bitwise register the bits of each byte in turn (R108). -/
theorem tableBytes_eq_crcBits (a : Half) (bs : List Byte) :
    tableBytes t a bs = crcBits t.tpoly a (bs.flatMap byteBits) := by
  induction bs generalizing a with
  | nil => rfl
  | cons b bs ih =>
    rw [tableBytes, List.foldl_cons, ← tableBytes, ih, tableByte_eq_crcBits hbuilt h4 h16, List.flatMap_cons,
      crcBits_append]

end Built

/-- The bits of a buffer are the bits of its bytes, one byte after the other (R51). -/
theorem bitsAt_eq_flatMap (m : Memory) (base count : Nat) :
    bitsAt m base (8 * count) = (bytesAt m base count).flatMap byteBits := by
  induction count generalizing base with
  | zero => rfl
  | succ count ih =>
    have hfirst : bitsAt m base 8 = byteBits (Memory.read m base) := by
      refine List.map_congr_left fun j hj => ?_
      have hj := List.mem_range.1 hj
      rw [Memory.bit, show (8 * base + j) / 8 = base by omega, show (8 * base + j) % 8 = j by omega]
    have hrest : bitsAt m base (8 + 8 * count) = bitsAt m base 8 ++ bitsAt m (base + 1) (8 * count) := by
      simp only [bitsAt, List.range_add, List.map_append, List.map_map, Function.comp_def, Nat.mul_add, Nat.mul_one,
        Nat.add_assoc]
    rw [Nat.mul_succ, Nat.add_comm, hrest, hfirst, ih, bytesAt_succ, List.flatMap_cons]

/-- Settles O37: below 16 an entry is made by four iterations for either width, and a byte update reads no other entry. -/
theorem tableEntriesBelowSixteenDoNotDependOnTheWidth : Obligations.TableEntriesBelowSixteenDoNotDependOnTheWidth := by
  intro p w h4 h16
  refine ⟨fun i hi => ?_, fun a b => ?_⟩
  · have hwide := Nat.lt_of_lt_of_le hi (sixteen_le_two_pow h4)
    calc (buildTable p w).getD i 0#16
        = tableEntry p w i := buildTable_getD p hwide
      _ = tableEntry p 4 i := by
        rw [tableEntry_eq_shifts p h4 h16 hi, tableEntry_eq_shifts p (Nat.le_refl 4) (by omega) hi]
      _ = (buildTable p 4).getD i 0#16 := (buildTable_getD p hi).symm
  · have hw : (loadTable p (BitVec.ofNat 5 w)).tw.toNat = w := Nat.mod_eq_of_lt (by omega)
    have hfour : (loadTable p 4#5).tw.toNat = 4 := rfl
    rw [tableByte_eq_crcBits rfl (by omega) (by omega), tableByte_eq_crcBits rfl (by omega) (by omega)]
    rfl

/-- Settles O39: every turn completes, and every byte update feeds the register the bits of its byte. -/
theorem crcCheckIsTheBitwiseRegister : Obligations.CrcCheckIsTheBitwiseRegister := by
  intro s hinv h4 hallowed
  obtain ⟨-, hwidth, hbuilt⟩ := hinv.table
  obtain ⟨-, hmax, -⟩ := platform_wf_iff.1 hinv.platform
  refine ⟨_, crcCheckRunsOverEveryByte.1 s hallowed fun _ _ => byteHeld_wide h4 _ _, ?_⟩
  rw [bitsAt_eq_flatMap, ← tableBytes_eq_crcBits hbuilt h4 (hwidth.trans hmax)]

end Sys2Proof.Machine
end

section
/-! Recording a fault, the whole of fault entry in this block: the first fault since reset is kept (R116, R121). -/

namespace Sys2Proof.Machine

/-- A block with no fault recorded records the fault as it is raised (R116). -/
theorem recordFault_of_unfaulted {s : State} (h : s.faultRec = none) (f : FaultRecord) :
    recordFault f s = { s with faultRec := some f } := by
  rw [recordFault_eq, h, Option.getD_none]

/-- Settles O41: by whether a fault is recorded already. -/
theorem firstFaultIsRecordedAndKept : Obligations.FirstFaultIsRecordedAndKept :=
  fun f _ => ⟨fun hnone => recordFault_of_unfaulted hnone f, fun hfaulted => recordFault_of_faulted hfaulted f⟩

end Sys2Proof.Machine
end

section
/-! Reset: what every register reads after it (R131), and what it leaves in buffer memory, also during a command (R132, R133). -/

namespace Sys2Proof.Machine

/-! ## The registers after reset (R131) -/

/-- The reset column of R131, with the launch's literals (U9), and the reset table's words below 2^4 (R40). -/
def resetWord (p : Platform) : Reg → Word
  | .crcPoly => 0#16 ++ p.polyReset
  | .crcInit => 0#16 ++ p.initReset
  | .crcWidth => 4#32
  | .crcTinfo => p.polyReset ++ 4#16
  | .crcTable i => if i < 16 then 0#16 ++ tableEntry p.polyReset 4 i else 0#32
  | _ => 0#32

/-- STATUS reads 0 while nothing is pending and no fault is recorded (R22). -/
theorem statusWord_of_idle_unfaulted {s : State} (hp : s.pending = none) (hf : s.faultRec = none) : s.statusWord = 0#32 := by
  simp [State.statusWord, State.faultOp, State.faultCode, State.faulted, State.busy, hp, hf]

/-- After reset every register reads its reset value. -/
theorem readReg_resetOn (p : Platform) (m : Memory) (script : List HostEvent) (d : Word) (r : Reg) :
    (State.resetOn p m script d).readReg r = resetWord p r := by
  cases r with
  | status => exact statusWord_of_idle_unfaulted rfl rfl
  | crcPoly => exact setWidth_eq_zero_append p.polyReset
  | crcInit => exact setWidth_eq_zero_append p.initReset
  | crcTable i =>
    have hentry (hi : i < 16) : (loadTable p.polyReset 4#5).entry i = tableEntry p.polyReset 4 i :=
      buildTable_getD p.polyReset hi
    rw [State.readReg, tableWord_eq, resetOn_table, resetWord]
    exact ite_congr rfl (fun hi => congrArg (0#16 ++ ·) (hentry hi)) fun _ => rfl
  | crcTinfo =>
    have hwidth : 0#11 ++ 4#5 = 4#16 := by decide
    exact congrArg (p.polyReset ++ ·) hwidth
  | _ => rfl

/-- The 16 entries of the reset table for the default polynomial, as R131 writes them out. -/
theorem buildTable_default :
    buildTable 0x8005#16 4 = [0x0000#16, 0x8005#16, 0x800F#16, 0x000A#16, 0x801B#16, 0x001E#16, 0x0014#16, 0x8011#16,
      0x8033#16, 0x0036#16, 0x003C#16, 0x8039#16, 0x0028#16, 0x802D#16, 0x8027#16, 0x0022#16] := by
  decide

/-! ## Buffer memory after reset (R132, R133) -/

section
variable {i : Instr} {s : State}

theorem applyReset_of_idle (h : s.pending = none) (drawn : Nat) :
    applyReset drawn s = State.resetOn s.platform s.mem s.script s.readData := by
  rw [applyReset, h]

theorem applyReset_of_pending (h : s.pending = some i) (drawn : Nat) :
    applyReset drawn s = State.resetOn s.platform (memAfterWrites i s drawn) s.script s.readData := by
  rw [applyReset, h]

/-- Reset always gives the reset state on the launch's platform; only buffer memory depends on what was pending. -/
theorem applyReset_eq_resetOn (drawn : Nat) (s : State) :
    ∃ m, applyReset drawn s = State.resetOn s.platform m s.script s.readData ∧ (s.pending = none → m = s.mem) := by
  cases h : s.pending with
  | none => exact ⟨s.mem, applyReset_of_idle h drawn, fun _ => rfl⟩
  | some i => exact ⟨memAfterWrites i s drawn, applyReset_of_pending h drawn, nofun⟩

theorem memAfterWrites_zero (i : Instr) (s : State) : memAfterWrites i s 0 = s.mem := rfl

/-- A draw that reaches the number of writes leaves the memory the command itself would have left (R60, R132). -/
theorem memAfterWrites_eq_exec_mem {u : State} {drawn : Nat} (hall : (writesOf (commandAccesses i s)).length ≤ drawn)
    (hexec : exec i s = .next u) : memAfterWrites i s drawn = u.mem := by
  rw [memAfterWrites, List.take_of_length_le hall, exec_mem_writes hexec]

/-- However many of its writes a command makes, it leaves every byte outside its written footprint alone (R59). -/
theorem read_memAfterWrites_outside {a : Nat} (ha : a ∉ writeFootprint i s) (drawn : Nat) :
    Memory.read (memAfterWrites i s drawn) a = Memory.read s.mem a := by
  refine Memory.read_writeAll_other (fun c hc hca => ha ?_) s.mem
  rw [← hca]
  exact (command_writes (List.mem_of_mem_take hc)).1

end

/-! ## The statements about reset -/

/-- Settles O56: reset puts the memory after the drawn writes into the reset state, and each clause is one fact about that
memory. -/
theorem resetDuringACommandLeavesAPrefixOfItsWrites : Obligations.ResetDuringACommandLeavesAPrefixOfItsWrites := by
  intro s i drawn hpending
  refine ⟨_, congrArg Host.Outcome.next (applyReset_of_pending hpending drawn), resetOn_pending .., resetOn_mem .., ?_, ?_, ?_⟩
  · rintro rfl
    exact memAfterWrites_zero i s
  · intro u hall hexec
    exact memAfterWrites_eq_exec_mem hall hexec
  · intro a ha
    exact read_memAfterWrites_outside ha drawn

/-- Settles O55: every register by the reset column, on any platform; the default literals by rewriting with them. -/
theorem resetLeavesTheResetValues : Obligations.ResetLeavesTheResetValues := by
  intro s drawn
  obtain ⟨m, hreset, hmem⟩ := applyReset_eq_resetOn drawn s
  have reads := readReg_resetOn s.platform m s.script s.readData
  refine ⟨_, congrArg Host.Outcome.next hreset, reads .cmd, reads .status, reads .faultInfo, reads .bitBase, reads .bitIndex,
    reads .bitData, reads .mfmSrc, reads .mfmDst, reads .mfmN, reads .mfmM, reads .mfmCursor, reads .crcAcc, reads .crcPoly,
    reads .crcInit, reads .crcWidth, reads .crcData, reads .crcBase, reads .crcLen, reads .crcTinfo, resetOn_pending ..,
    resetOn_faultRec .., resetOn_table .., ?_, ?_, resetOn_platform .., resetOn_script .., resetOn_readData .., hmem⟩
  · intro hpoly
    refine ⟨?_, ?_, ?_⟩
    · rw [reads, resetWord, hpoly]
      rfl
    · rw [reads, resetWord, hpoly]
      rfl
    · rw [resetOn_table, hpoly]
      exact buildTable_default
  · intro hinit
    rw [reads, resetWord, hinit]
    rfl

/-- Settles O57: the standard platform is legal, its memory lists nothing, and every reset on a legal platform meets the
invariant. -/
theorem resetMeetsTheInvariant : Obligations.ResetMeetsTheInvariant := by
  have hplatform : Platform.standard.wf = true := by decide
  have hmemory : Memory.wf [] = true := rfl
  exact resetOn_inv hplatform hmemory [] 0#32

end Sys2Proof.Machine
end
